-- ==== Sys2Proof/Word.lean ====
section
/-! DEFINITION. The widths of the block: a byte (R7), a 16-bit half word (a `DEST` value, an event word, a 16-bit bus
access) and the 32-bit word of the host bus and of a command (R90, R37). There is no signed quantity in the block (R7). -/

namespace Sys2Proof

/-- A byte: 8 bits, unsigned, 0..255 (R7). -/
abbrev Byte := BitVec 8

/-- 16 bits: `DEST` (R29), an event word (R100), the value of a 16-bit bus access (R66). -/
abbrev Half := BitVec 16

/-- 32 bits: a command word (R91), a register value on the host bus (R37). -/
abbrev Word := BitVec 32

end Sys2Proof
end

