-- ==== Sys2Proof/Config.lean ====
section
/-! DEFINITION. The implementation parameters of 00_scope.md section 4 (R6). A parameter with a value for this hardware is
a `def`; a parameter marked OPEN is an `opaque` constant with no body, so that every claim holds whatever it is (log
entry 1). The unspecified contents of storage at reset (R284, R281) are opaque functions too: free values (log entry 2). -/

namespace Sys2Proof

/-- The legal values of the OPEN parameter `CHECKSUM_KIND` (R210). -/
inductive ChecksumKind where
  | add8
  | xor8
deriving DecidableEq, Repr, Inhabited

/-- The sources of events (R11, R255), the things the OPEN parameter `EVENT_ORDER` orders. -/
inductive EventSource where
  | transmitLine (port : Nat)
  | receiveLine (port : Nat)
  | tick2ms
  | tick1s
deriving DecidableEq, Repr, Inhabited

namespace Config

/-- `N_PORTS`, the number of Serial Transport instances: 2 for this hardware (section 4; D9). -/
def nPorts : Nat := 2

/-- `N_AUX_RINGS`, the rings attached to no port: 1 for this hardware (section 4; D10). -/
def nAuxRings : Nat := 1

/-- `N_RINGS = 2·N_PORTS + N_AUX_RINGS` (R22). -/
def nRings : Nat := 2 * nPorts + nAuxRings

/-- `CAP_MAX`, the byte storage of each ring and its largest legal capacity: 128 for this hardware (section 4; D11). -/
def capMax : Nat := 128

/-- `PAYLOAD_MAX`, the length of a frame's payload field (section 4). -/
def payloadMax : Nat := 61

/-- `FRAME_LEN`: type, payload field, checksum (R181). -/
def frameLen : Nat := payloadMax + 2

/-- `ENVELOPE_LEN`: two address bytes, the channel, a frame (R182; 90_conflicts.md C1). -/
def envelopeLen : Nat := frameLen + 3

/-- `DBUF_SIZE`, the bytes of the staging buffer (R25). -/
def dbufSize : Nat := 256

/-- `TYPE_DATA`, the packet-type code of DATA: 0x00 for this hardware (R193; D29). -/
def typeData : Byte := 0x00#8

/-- `TYPE_ROUTE`, the packet-type code of ROUTE: 0x01 for this hardware (R193; D29). -/
def typeRoute : Byte := 0x01#8

/-- `T_TICK2MS` in milliseconds; nominal, no rule depends on it (R262). -/
def tTick2ms : Nat := 2

/-- `T_TICK1S` in milliseconds; nominal, no rule depends on it (R262). -/
def tTick1s : Nat := 1000

/-- `CHECKSUM_KIND`, OPEN (R6, R210). -/
opaque checksumKind : ChecksumKind

/-- `RADIO_WINDOW_OFFSET` (W), OPEN in {0, 1} (R6, R190). -/
opaque radioWindowOffset : Fin 2

/-- `BASE`, the bus address of the register block, OPEN (R6, R37). -/
opaque base : Nat

/-- `EVENT_ORDER`, an implementation's fixed priority, OPEN; no rule reads it (R257), and neither does the model, which
admits every order. -/
opaque eventOrder : List EventSource

/-- Free value: what `DBUF[i]` holds after the reset numbered `epoch` until it is written (R284). -/
opaque dbufAtReset (epoch i : Nat) : Byte

/-- Free value: what `ring[r].mem[i]` holds after the reset numbered `epoch` until it is written (R281, R44). -/
opaque ringMemAtReset (epoch r i : Nat) : Byte

end Config

end Sys2Proof
end

