-- ==== Sys2Proof/Syntax.lean ====
section
/-! DEFINITION. The operations of the block (R90) as syntax: what the agents hand it (`Operation`), the command of a
Format C word (`Command`, R94), and `Instr`, one constructor for each row of spec/opcode_table.json. -/

namespace Sys2Proof

/-- The direction of a host bus access, with the value a write carries (R90 Format M). -/
inductive Dir where
  | read
  | write (v : Word)
deriving DecidableEq, Repr

/-- One operation of one agent, before decoding (R90, R11): a host bus access at a byte offset of the 512-byte window, of
`width` bytes (any width can be tried; R63 refuses those not in {1, 2, 4}), or an event word of a line or tick source. -/
inductive Operation where
  | access (off : BitVec 9) (width : Nat) (dir : Dir)
  | event (w : Half)
deriving DecidableEq, Repr

/-- The 17 mnemonics of the Format C table (R93). -/
inductive Op where
  | rbInit | rbEnq | rbDeq | rbIsEmpty | rbIsFull | rbCount | rbCap
  | serWrite | serRead
  | pktEncode | pktEnvelope | pktRoute | pktDecode | pktSend
  | ckClear | ckByte | ckBuf
deriving DecidableEq, Repr

/-- What decoding a legal command word gives (R94): the mnemonic and the three fields. -/
structure Command where
  op : Op
  idx : Byte
  len : Byte
  imm : Byte
deriving DecidableEq, Repr

/-- The instructions: one constructor per row of spec/opcode_table.json. Operands are the row's free fields. -/
inductive Instr where
  -- Format C: command words (R93)
  | rbInit (r cap : Byte)
  | rbEnq (r n : Byte)
  | rbDeq (r n : Byte)
  | rbIsEmpty (r : Byte)
  | rbIsFull (r : Byte)
  | rbCount (r : Byte)
  | rbCap (r : Byte)
  | serWrite (p n : Byte)
  | serRead (p n : Byte)
  | pktEncode (n t : Byte)
  | pktEnvelope (n t : Byte)
  | pktRoute (n : Byte)
  | pktDecode (off : Byte)
  | pktSend (p : Byte)
  | ckClear
  | ckByte (b : Byte)
  | ckBuf (n : Byte)
  -- Format M: register accesses (R37, R39 to R41, R95, R163, R164, R233, R234)
  | st32Cmd (w : Word)
  | ld32Cmd
  | ld32Res
  | st32Res (v : Word)
  | ld32Err
  | st32Err (v : Word)
  | ld32Tflag
  | st32Tflag (v : Word)
  | ld32Dest
  | st32Dest (v : Word)
  | ld32Chan
  | st32Chan (v : Word)
  | ld32Ckacc
  | st32Ckacc (v : Word)
  | ld32Rtype
  | st32Rtype (v : Word)
  | ld32Cfg
  | st32Cfg (v : Word)
  | ld32Cfg2
  | st32Cfg2 (v : Word)
  | ld32Pstat (p : BitVec 3)
  | st32Pstat (p : BitVec 3) (v : Word)
  -- Format M: staging-buffer accesses (R66, R67)
  | ld8Dbuf (i : Byte)
  | st8Dbuf (i : Byte) (v : Byte)
  | ld16Dbuf (i : Byte)
  | st16Dbuf (i : Byte) (v : Half)
  | ld32Dbuf (i : Byte)
  | st32Dbuf (i : Byte) (v : Word)
  -- Format M: reserved offsets (R64) and refused accesses (R62, R63, R252)
  | reservedOffset (off : BitVec 9) (dir : Dir)
  | badAccess (off : BitVec 9) (width : Nat) (dir : Dir)
  -- Format E: events (R100)
  | evRx (p : BitVec 4) (b : Byte)
  | evTxrdy (p : BitVec 4)
  | evTick2ms
  | evTick1s
deriving DecidableEq, Repr

/-- The instruction a decoded command is (R93's operand columns). -/
def Command.toInstr (c : Command) : Instr :=
  match c.op with
  | .rbInit => .rbInit c.idx c.len
  | .rbEnq => .rbEnq c.idx c.len
  | .rbDeq => .rbDeq c.idx c.len
  | .rbIsEmpty => .rbIsEmpty c.idx
  | .rbIsFull => .rbIsFull c.idx
  | .rbCount => .rbCount c.idx
  | .rbCap => .rbCap c.idx
  | .serWrite => .serWrite c.idx c.len
  | .serRead => .serRead c.idx c.len
  | .pktEncode => .pktEncode c.len c.imm
  | .pktEnvelope => .pktEnvelope c.len c.imm
  | .pktRoute => .pktRoute c.len
  | .pktDecode => .pktDecode c.imm
  | .pktSend => .pktSend c.idx
  | .ckClear => .ckClear
  | .ckByte => .ckByte c.imm
  | .ckBuf => .ckBuf c.len

end Sys2Proof
end

