-- ==== Sys2Proof/WellFormed.lean ====
section
/-! DEFINITION. Which instructions some operation of an agent can be: the operand ranges of R63, R64, R96, R99 and R101,
checked apart from the decoder. The match and mask of each Format C row are those of spec/opcode_table.json. -/

namespace Sys2Proof

/-- A Format C row of the opcode table: a word `w` is of the row when `w &&& mask = pattern`. -/
structure MatchRow where
  op : Op
  pattern : Word
  mask : Word
deriving DecidableEq, Repr

/-- Whether a word is of a row. -/
def MatchRow.fits (row : MatchRow) (w : Word) : Bool := w &&& row.mask == row.pattern

/-- The Format C rows of spec/opcode_table.json, in its order. -/
def commandRows : List MatchRow :=
  [⟨.rbInit, 0x01000000#32, 0xFF0000FF#32⟩, ⟨.rbEnq, 0x02000000#32, 0xFF0000FF#32⟩,
   ⟨.rbDeq, 0x03000000#32, 0xFF0000FF#32⟩, ⟨.rbIsEmpty, 0x04000000#32, 0xFF00FFFF#32⟩,
   ⟨.rbIsFull, 0x05000000#32, 0xFF00FFFF#32⟩, ⟨.rbCount, 0x06000000#32, 0xFF00FFFF#32⟩,
   ⟨.rbCap, 0x07000000#32, 0xFF00FFFF#32⟩, ⟨.serWrite, 0x10000000#32, 0xFF0000FF#32⟩,
   ⟨.serRead, 0x11000000#32, 0xFF0000FF#32⟩, ⟨.pktEncode, 0x20000000#32, 0xFFFF0000#32⟩,
   ⟨.pktEnvelope, 0x21000000#32, 0xFFFF0000#32⟩, ⟨.pktRoute, 0x22000000#32, 0xFFFF00FF#32⟩,
   ⟨.pktDecode, 0x23000000#32, 0xFFFFFF00#32⟩, ⟨.pktSend, 0x24000000#32, 0xFF00FFFF#32⟩,
   ⟨.ckClear, 0x30000000#32, 0xFFFFFFFF#32⟩, ⟨.ckByte, 0x31000000#32, 0xFFFFFF00#32⟩,
   ⟨.ckBuf, 0x32000000#32, 0xFFFF00FF#32⟩]

/-- The words that are a command: those some row fits. Every other word is `Illegal` (R94, R96, R97). -/
def legalWord (w : Word) : Bool := commandRows.any (·.fits w)

/-- The offsets below 0x100 that hold a register (R37, R61): 0x000 to 0x027, and one port status register per port. -/
def mappedOffset (off : BitVec 9) : Bool :=
  off.toNat < 0x028 || (0x040 ≤ off.toNat && off.toNat < 0x040 + 4 * Config.nPorts)

/-- The accesses the block refuses (R62, R63, R252): another width than 1, 2 or 4 bytes, a misaligned offset, or an 8- or
16-bit access below 0x100. -/
def refusedAccess (off : BitVec 9) (width : Nat) : Bool :=
  !(width == 1 || width == 2 || width == 4) || off.toNat % width != 0 || (off.toNat < 0x100 && width != 4)

/-- The instructions that some operation decodes to. `st32Cmd w` is well-formed only for an illegal word: a `CMD` write of
a legal word is the command's own row (R90: every operation is in exactly one format). -/
def Instr.wellFormed : Instr → Bool
  | .rbInit _ _ | .rbEnq _ _ | .rbDeq _ _ | .rbIsEmpty _ | .rbIsFull _ | .rbCount _ | .rbCap _ => true
  | .serWrite _ _ | .serRead _ _ => true
  | .pktEncode _ _ | .pktEnvelope _ _ | .pktRoute _ | .pktDecode _ | .pktSend _ => true
  | .ckClear | .ckByte _ | .ckBuf _ => true
  | .st32Cmd w => !legalWord w
  | .ld32Cmd | .ld32Res | .ld32Err | .ld32Tflag | .ld32Dest | .ld32Chan | .ld32Ckacc | .ld32Rtype => true
  | .ld32Cfg | .ld32Cfg2 => true
  | .st32Res _ | .st32Err _ | .st32Tflag _ | .st32Dest _ | .st32Chan _ | .st32Ckacc _ | .st32Rtype _ => true
  | .st32Cfg _ | .st32Cfg2 _ => true
  | .ld32Pstat p | .st32Pstat p _ => p.toNat < Config.nPorts
  | .ld8Dbuf _ | .st8Dbuf _ _ => true
  | .ld16Dbuf i | .st16Dbuf i _ => i.toNat % 2 == 0
  | .ld32Dbuf i | .st32Dbuf i _ => i.toNat % 4 == 0
  | .reservedOffset off _ => off.toNat < 0x100 && off.toNat % 4 == 0 && !mappedOffset off
  | .badAccess off width _ => refusedAccess off width
  | .evRx p _ | .evTxrdy p => p.toNat < Config.nPorts
  | .evTick2ms | .evTick1s => true

end Sys2Proof
end

