-- ==== Sys2Proof/Decode.lean ====
section
/-! DEFINITION. Decoding (R94, R99, R100), total on every operation and rejecting by name, then the encoder written from
the same tables, and the words of spec/opcode_table.json as operations. -/

namespace Sys2Proof

/-! ## The Format C table (R93) -/

/-- The `OPC` column of R93. -/
def Op.code : Op → Byte
  | .rbInit => 0x01#8
  | .rbEnq => 0x02#8
  | .rbDeq => 0x03#8
  | .rbIsEmpty => 0x04#8
  | .rbIsFull => 0x05#8
  | .rbCount => 0x06#8
  | .rbCap => 0x07#8
  | .serWrite => 0x10#8
  | .serRead => 0x11#8
  | .pktEncode => 0x20#8
  | .pktEnvelope => 0x21#8
  | .pktRoute => 0x22#8
  | .pktDecode => 0x23#8
  | .pktSend => 0x24#8
  | .ckClear => 0x30#8
  | .ckByte => 0x31#8
  | .ckBuf => 0x32#8

/-- Whether the `IDX` column of R93 names an operand (else the field must be zero). -/
def Op.usesIdx : Op → Bool
  | .rbInit | .rbEnq | .rbDeq | .rbIsEmpty | .rbIsFull | .rbCount | .rbCap => true
  | .serWrite | .serRead | .pktSend => true
  | .pktEncode | .pktEnvelope | .pktRoute | .pktDecode | .ckClear | .ckByte | .ckBuf => false

/-- Whether the `LEN` column of R93 names an operand. -/
def Op.usesLen : Op → Bool
  | .rbInit | .rbEnq | .rbDeq | .serWrite | .serRead | .pktEncode | .pktEnvelope | .pktRoute | .ckBuf => true
  | .rbIsEmpty | .rbIsFull | .rbCount | .rbCap | .pktDecode | .pktSend | .ckClear | .ckByte => false

/-- Whether the `IMM` column of R93 names an operand. -/
def Op.usesImm : Op → Bool
  | .pktEncode | .pktEnvelope | .pktDecode | .ckByte => true
  | .rbInit | .rbEnq | .rbDeq | .rbIsEmpty | .rbIsFull | .rbCount | .rbCap => false
  | .serWrite | .serRead | .pktRoute | .pktSend | .ckClear | .ckBuf => false

/-- The rows of R93 in its order. -/
def Op.all : List Op :=
  [.rbInit, .rbEnq, .rbDeq, .rbIsEmpty, .rbIsFull, .rbCount, .rbCap, .serWrite, .serRead,
   .pktEncode, .pktEnvelope, .pktRoute, .pktDecode, .pktSend, .ckClear, .ckByte, .ckBuf]

/-- `table_R93(opc)` of R94: the row of an opcode, none for a reserved one (R97). -/
def Op.ofCode? (opc : Byte) : Option Op := Op.all.find? (fun op => op.code == opc)

/-- A field that the row does not use holds zero (R92). -/
def zeroUnless (used : Bool) (field : Byte) : Bool := used || field == 0#8

/-- The must-be-zero check of R94 on a row's fields. -/
def Command.legal (c : Command) : Bool :=
  zeroUnless c.op.usesIdx c.idx && zeroUnless c.op.usesLen c.len && zeroUnless c.op.usesImm c.imm

/-! ## Command words (R91, R94) -/

/-- Bits 31:24 of a command word. -/
def wordOpc (w : Word) : Byte := w.extractLsb' 24 8
/-- Bits 23:16 of a command word. -/
def wordIdx (w : Word) : Byte := w.extractLsb' 16 8
/-- Bits 15:8 of a command word. -/
def wordLen (w : Word) : Byte := w.extractLsb' 8 8
/-- Bits 7:0 of a command word. -/
def wordImm (w : Word) : Byte := w.extractLsb' 0 8

/-- `decode(w)` of R94: none is `Illegal`. -/
def decodeCommand (w : Word) : Option Command :=
  match Op.ofCode? (wordOpc w) with
  | none => none
  | some op =>
    let c : Command := ⟨op, wordIdx w, wordLen w, wordImm w⟩
    if c.legal then some c else none

/-- `word = OPC << 24 | IDX << 16 | LEN << 8 | IMM` (R91). -/
def commandWord (opc idx len imm : Byte) : Word :=
  opc.setWidth 32 <<< 24 ||| idx.setWidth 32 <<< 16 ||| len.setWidth 32 <<< 8 ||| imm.setWidth 32

/-- The word of a command (R91, R93). -/
def Command.encode (c : Command) : Word := commandWord c.op.code c.idx c.len c.imm

/-! ## Bus accesses (R99, R37, R63) -/

/-- The registers at fixed offsets (R37). -/
inductive Reg where
  | cmd | res | err | tflag | dest | chan | ckacc | rtype | cfg | cfg2
deriving DecidableEq, Repr

/-- The offset column of R37. -/
def Reg.offset : Reg → BitVec 9
  | .cmd => 0x000#9
  | .res => 0x004#9
  | .err => 0x008#9
  | .tflag => 0x00C#9
  | .dest => 0x010#9
  | .chan => 0x014#9
  | .ckacc => 0x018#9
  | .rtype => 0x01C#9
  | .cfg => 0x020#9
  | .cfg2 => 0x024#9

/-- The registers of R37 in its order. -/
def Reg.all : List Reg := [.cmd, .res, .err, .tflag, .dest, .chan, .ckacc, .rtype, .cfg, .cfg2]

/-- The register at an offset, if R37 puts one there. -/
def Reg.ofOffset? (off : BitVec 9) : Option Reg := Reg.all.find? (fun g => g.offset == off)

/-- The instruction that reads a register. -/
def Reg.readInstr : Reg → Instr
  | .cmd => .ld32Cmd
  | .res => .ld32Res
  | .err => .ld32Err
  | .tflag => .ld32Tflag
  | .dest => .ld32Dest
  | .chan => .ld32Chan
  | .ckacc => .ld32Ckacc
  | .rtype => .ld32Rtype
  | .cfg => .ld32Cfg
  | .cfg2 => .ld32Cfg2

/-- A `CMD` write of word `w` (R95): the command's own row where R94 decodes `w`, else the `CMD` write of an illegal
word (R96; log entry 7). -/
def cmdWriteInstr (w : Word) : Instr :=
  match decodeCommand w with
  | some c => c.toInstr
  | none => .st32Cmd w

/-- The instruction that writes `v` to a register. -/
def Reg.writeInstr (v : Word) : Reg → Instr
  | .cmd => cmdWriteInstr v
  | .res => .st32Res v
  | .err => .st32Err v
  | .tflag => .st32Tflag v
  | .dest => .st32Dest v
  | .chan => .st32Chan v
  | .ckacc => .st32Ckacc v
  | .rtype => .st32Rtype v
  | .cfg => .st32Cfg v
  | .cfg2 => .st32Cfg2 v

/-- The port of a `PSTAT` offset: offset bits 4:2 (the table's row `LD32 PSTAT[p]`). -/
def pstatPort (off : BitVec 9) : BitVec 3 := off.extractLsb' 2 3

/-- Whether an aligned offset is a port status register: `0x040 + 4p`, p < N_PORTS (R37). -/
def isPstat (off : BitVec 9) : Bool := 0x040 ≤ off.toNat && off.toNat < 0x040 + 4 * Config.nPorts

/-- An aligned 32-bit access below 0x100 (R99): a register, a port status register, or a reserved offset (R64). -/
def decodeRegister (off : BitVec 9) (dir : Dir) : Instr :=
  match Reg.ofOffset? off with
  | some g =>
    match dir with
    | .read => g.readInstr
    | .write v => g.writeInstr v
  | none =>
    if isPstat off then
      match dir with
      | .read => .ld32Pstat (pstatPort off)
      | .write v => .st32Pstat (pstatPort off) v
    else .reservedOffset off dir

/-- An aligned access at 0x100..0x1FF (R66, R67): `DBUF[i]`, i the low eight bits of the offset. A narrow write takes the
low bits of the bus value (DEDUCED, log entry 9). -/
def decodeDbuf (off : BitVec 9) (width : Nat) (dir : Dir) : Instr :=
  let i : Byte := off.setWidth 8
  match dir with
  | .read => if width = 1 then .ld8Dbuf i else if width = 2 then .ld16Dbuf i else .ld32Dbuf i
  | .write v =>
    if width = 1 then .st8Dbuf i (v.setWidth 8) else if width = 2 then .st16Dbuf i (v.setWidth 16) else .st32Dbuf i v

/-- `access(off, n, dir, v)` of R63: a refused access, a `DBUF` access or a register access. Total: every access is one
instruction. -/
def decodeAccess (off : BitVec 9) (width : Nat) (dir : Dir) : Instr :=
  if !(width == 1 || width == 2 || width == 4) || off.toNat % width != 0 then .badAccess off width dir
  else if off.toNat < 0x100 && width != 4 then .badAccess off width dir
  else if 0x100 ≤ off.toNat then decodeDbuf off width dir
  else decodeRegister off dir

/-! ## Event words (R100, R101) -/

/-- What decoding an operation gives: an instruction, or the refusal, by name, of a word that is no event (R101). -/
inductive Decoded where
  | instr (i : Instr)
  | notAnEvent (w : Half)
deriving DecidableEq, Repr

/-- Bits 15:12 of an event word. -/
def eventKind (w : Half) : BitVec 4 := w.extractLsb' 12 4
/-- Bits 11:8 of an event word. -/
def eventPort (w : Half) : BitVec 4 := w.extractLsb' 8 4
/-- Bits 7:0 of an event word. -/
def eventData (w : Half) : Byte := w.extractLsb' 0 8

/-- An event word by the rows of R100; a word of no row, or of a port the block has not, is refused (R101). -/
def decodeEvent (w : Half) : Decoded :=
  let port := eventPort w
  let data := eventData w
  if eventKind w = 0x1#4 then
    if port.toNat < Config.nPorts then .instr (.evRx port data) else .notAnEvent w
  else if eventKind w = 0x2#4 then
    if port.toNat < Config.nPorts ∧ data = 0#8 then .instr (.evTxrdy port) else .notAnEvent w
  else if eventKind w = 0x3#4 then
    if port = 0#4 ∧ data = 0#8 then .instr .evTick2ms else .notAnEvent w
  else if eventKind w = 0x4#4 then
    if port = 0#4 ∧ data = 0#8 then .instr .evTick1s else .notAnEvent w
  else .notAnEvent w

/-- `KIND << 12 | PORT << 8 | DATA` (R100). -/
def eventWord (kind port : BitVec 4) (data : Byte) : Half :=
  kind.setWidth 16 <<< 12 ||| port.setWidth 16 <<< 8 ||| data.setWidth 16

/-! ## The decoder and the encoder -/

/-- Decode one operation of one agent. -/
def decode : Operation → Decoded
  | .access off width dir => .instr (decodeAccess off width dir)
  | .event w => decodeEvent w

/-- The `CMD` write that carries a command word (R95). -/
def cmdWrite (w : Word) : Operation := .access 0x000#9 4 (.write w)

/-- A 32-bit read of a fixed register. -/
def regRead (g : Reg) : Operation := .access g.offset 4 .read

/-- A 32-bit write of a fixed register. -/
def regWrite (g : Reg) (v : Word) : Operation := .access g.offset 4 (.write v)

/-- The offset of `PSTAT[p]`: `0x040 + 4p` (R37). -/
def pstatOffset (p : BitVec 3) : BitVec 9 := 0x040#9 + (p.setWidth 9 <<< 2)

/-- The offset of `DBUF[i]`: `0x100 + i` (R37). -/
def dbufOffset (i : Byte) : BitVec 9 := 0x100#9 + i.setWidth 9

/-- The operation of an instruction, from the tables of R93, R37 and R100. -/
def encode : Instr → Operation
  | .rbInit r cap => cmdWrite (commandWord 0x01#8 r cap 0#8)
  | .rbEnq r n => cmdWrite (commandWord 0x02#8 r n 0#8)
  | .rbDeq r n => cmdWrite (commandWord 0x03#8 r n 0#8)
  | .rbIsEmpty r => cmdWrite (commandWord 0x04#8 r 0#8 0#8)
  | .rbIsFull r => cmdWrite (commandWord 0x05#8 r 0#8 0#8)
  | .rbCount r => cmdWrite (commandWord 0x06#8 r 0#8 0#8)
  | .rbCap r => cmdWrite (commandWord 0x07#8 r 0#8 0#8)
  | .serWrite p n => cmdWrite (commandWord 0x10#8 p n 0#8)
  | .serRead p n => cmdWrite (commandWord 0x11#8 p n 0#8)
  | .pktEncode n t => cmdWrite (commandWord 0x20#8 0#8 n t)
  | .pktEnvelope n t => cmdWrite (commandWord 0x21#8 0#8 n t)
  | .pktRoute n => cmdWrite (commandWord 0x22#8 0#8 n 0#8)
  | .pktDecode off => cmdWrite (commandWord 0x23#8 0#8 0#8 off)
  | .pktSend p => cmdWrite (commandWord 0x24#8 p 0#8 0#8)
  | .ckClear => cmdWrite (commandWord 0x30#8 0#8 0#8 0#8)
  | .ckByte b => cmdWrite (commandWord 0x31#8 0#8 0#8 b)
  | .ckBuf n => cmdWrite (commandWord 0x32#8 0#8 n 0#8)
  | .st32Cmd w => cmdWrite w
  | .ld32Cmd => regRead .cmd
  | .ld32Res => regRead .res
  | .st32Res v => regWrite .res v
  | .ld32Err => regRead .err
  | .st32Err v => regWrite .err v
  | .ld32Tflag => regRead .tflag
  | .st32Tflag v => regWrite .tflag v
  | .ld32Dest => regRead .dest
  | .st32Dest v => regWrite .dest v
  | .ld32Chan => regRead .chan
  | .st32Chan v => regWrite .chan v
  | .ld32Ckacc => regRead .ckacc
  | .st32Ckacc v => regWrite .ckacc v
  | .ld32Rtype => regRead .rtype
  | .st32Rtype v => regWrite .rtype v
  | .ld32Cfg => regRead .cfg
  | .st32Cfg v => regWrite .cfg v
  | .ld32Cfg2 => regRead .cfg2
  | .st32Cfg2 v => regWrite .cfg2 v
  | .ld32Pstat p => .access (pstatOffset p) 4 .read
  | .st32Pstat p v => .access (pstatOffset p) 4 (.write v)
  | .ld8Dbuf i => .access (dbufOffset i) 1 .read
  | .st8Dbuf i v => .access (dbufOffset i) 1 (.write (v.setWidth 32))
  | .ld16Dbuf i => .access (dbufOffset i) 2 .read
  | .st16Dbuf i v => .access (dbufOffset i) 2 (.write (v.setWidth 32))
  | .ld32Dbuf i => .access (dbufOffset i) 4 .read
  | .st32Dbuf i v => .access (dbufOffset i) 4 (.write v)
  | .reservedOffset off dir => .access off 4 dir
  | .badAccess off width dir => .access off width dir
  | .evRx p b => .event (eventWord 0x1#4 p b)
  | .evTxrdy p => .event (eventWord 0x2#4 p 0#8)
  | .evTick2ms => .event (eventWord 0x3#4 0#4 0#8)
  | .evTick1s => .event (eventWord 0x4#4 0#4 0#8)

/-! ## Words of the opcode table

The table gives a Format C row 32 bits and a Format E row 16. It gives a Format M row its 9-bit offset alone (16 bits in
whole bytes; 24 for the two 16-bit `DBUF` rows) and no bit for the direction, the width or the value. DESIGN CHOICE (log
entry 6, unsafe for nothing but this reading): bits 8:0 are the offset, bit 9 the direction (1 = write), bits 15:10 are
zero, bits 47:16 the value; 24 bits mean a 16-bit access, and 16 bits the widest access the offset is aligned to. -/

/-- The widest legal width an offset is aligned to; registers take 32 bits only (R62). -/
def tableWidth (nbits : Nat) (off : BitVec 9) : Nat :=
  if nbits = 24 then 2
  else if off.toNat < 0x100 ∨ off.toNat % 4 = 0 then 4
  else if off.toNat % 2 = 0 then 2
  else 1

/-- The operation of a word of the opcode table, by the number of bits the table gives its row. -/
def tableOperation (nbits w : Nat) : Option Operation :=
  if nbits = 32 then some (cmdWrite (BitVec.ofNat 32 w))
  else if nbits = 16 ∧ 0x1000 ≤ w % 0x10000 then some (.event (BitVec.ofNat 16 w))
  else if (nbits = 16 ∨ nbits = 24 ∨ nbits = 48) ∧ w % 0x10000 < 0x400 then
    let off : BitVec 9 := BitVec.ofNat 9 w
    let value : Word := if nbits = 48 then BitVec.ofNat 32 (w / 0x10000) else 0#32
    some (.access off (tableWidth nbits off) (if w / 0x200 % 2 = 1 then .write value else .read))
  else none

/-- The instruction the decoder reads from a word of the opcode table, none where it refuses. -/
def decodeTableWord (nbits w : Nat) : Option Instr :=
  match tableOperation nbits w with
  | none => none
  | some o =>
    match decode o with
    | .instr i => some i
    | .notAnEvent _ => none

end Sys2Proof
end

