-- ==== Sys2Proof/Machine/State.lean ====
section
/-! DEFINITION. The state of the block (R20) as plain data, with the model's own fields beside it: the inputs still to be
delivered, the reset line, the observation of a run, and the number of the last reset (which names the free values of
storage nothing has written). Then the reasons a step can stop, and the state after reset (R281). -/

namespace Sys2Proof.Machine

/-- Byte storage by index: the bytes written since reset, as (index, byte) pairs with strictly rising indices (`Mem.Wf`).
A byte that is not listed has not been written since reset; what it reads as is said once, in `Mem.byteAt` (log entry
2). -/
abbrev Mem := List Host.Cell

/-- One ring (R23). -/
structure Ring where
  /-- `cap`: the capacity C, legal values 1..CAP_MAX -/
  cap : Byte
  /-- `head`: index of the oldest stored byte -/
  head : Byte
  /-- `tail`: index where the next byte is stored -/
  tail : Byte
  /-- `count`: the number of stored bytes -/
  count : Byte
  /-- `mem[0 .. CAP_MAX-1]`: the byte storage -/
  mem : Mem
deriving DecidableEq, Repr

/-- One port's bits (R26, R27) and the observation of its transmit line (R157). -/
structure Port where
  /-- `TXBUSY[p]`: false is `Idle`, true is `Transmitting` with the transmit interrupt armed -/
  txbusy : Bool
  /-- `RXOVF[p]`: the sticky receive-overflow flag -/
  rxovf : Bool
  /-- `line_out[p]`: the bytes emitted since reset, in emission order -/
  lineOut : List Byte
deriving DecidableEq, Repr

/-- What the environment does to the block next: an operation of an agent (R11), or a change of the reset input (R280). -/
inductive Input where
  | op (o : Operation)
  | resetLine (asserted : Bool)
deriving DecidableEq, Repr

/-- Why a step stops. -/
inductive Fault where
  /-- Raised by an access the block refuses (R62, R63, R252), with the bus address: the block changes nothing, and R252
  says that a model records the access as a fault of the host program (log entry 8). Safe: nothing after it can be
  proved. -/
  | busError (addr : Nat)
  /-- Raised by `EV_TXRDY p` while `TXBUSY[p] = 0`: the event has no step (R154; 93 I11, stuck; log entry 8). Safe. -/
  | txrdyNotEnabled (p : Nat)
  /-- Raised by a bus access while the reset input is asserted: no step of the block, what the bus does is the platform's
  (R280; 93 I14, stuck; log entry 4). Safe. -/
  | accessInReset
deriving DecidableEq, Repr

/-- Why an input has no meaning. -/
inductive Refusal where
  /-- Raised by no arm of `exec` today: an instruction whose meaning is not written yet. Safe. -/
  | notModelled (mnemonic : String)
  /-- Raised by a 16-bit word that is no row of R100, or names a port the block has not: no agent can produce it and a model
  must refuse it as input (R101; 93 I10; log entry 8). Safe. -/
  | notAnEvent (w : Half)
deriving DecidableEq, Repr

/-- The status codes a command can leave in `ERR` (R251). -/
inductive Status where
  | ok
  | badCmd
  | badIndex
  | badOperand
  | invalid
  | checksumMismatch
  | queueOverflow
deriving DecidableEq, Repr

/-- The state. The first ten fields are the spec's (R20); the last four are the model's own. -/
structure State where
  /-- `ring[0 .. N_RINGS-1]` (R22) -/
  rings : Vector Ring Config.nRings
  /-- `TXBUSY[p]`, `RXOVF[p]`, `line_out[p]` of each port (R150, R157) -/
  ports : Vector Port Config.nPorts
  /-- `TFLAG`: bit 0 `tick2ms`, bit 1 `tick1s` (R28) -/
  tflag : BitVec 2
  /-- `DEST` (R29) -/
  dest : Half
  /-- `CHAN` (R30) -/
  chan : Byte
  /-- `CKACC` (R31) -/
  ckacc : Byte
  /-- `RTYPE` (R32) -/
  rtype : Byte
  /-- `RES` (R33) -/
  res : Word
  /-- `ERR` (R34) -/
  err : Byte
  /-- `DBUF[0 .. 255]` (R25): the bytes written since reset -/
  dbuf : Mem
  /-- the model's own: the values host reads have returned since reset, in order (an observation, as `line_out` is; log entry 5,
  DESIGN CHOICE) -/
  busReads : List Word
  /-- the model's own: which reset this run is at; it names the free values of storage nothing has written
  (R284; log entry 2, DESIGN CHOICE) -/
  epoch : Nat
  /-- the model's own: the reset input is asserted (R280; log entry 4, DESIGN CHOICE) -/
  inReset : Bool
  /-- the model's own: the inputs still to come, in the order the agents act (R71); any list, so every interleaving
  (log entry 3, DESIGN CHOICE) -/
  pending : List Input
deriving DecidableEq, Repr

/-- A ring at reset (R281): capacity CAP_MAX, empty, its storage unspecified. -/
def Ring.atReset : Ring :=
  { cap := BitVec.ofNat 8 Config.capMax, head := 0#8, tail := 0#8, count := 0#8, mem := [] }

/-- A port at reset (R281): `Idle`, no overflow, nothing emitted. -/
def Port.atReset : Port := { txbusy := false, rxovf := false, lineOut := [] }

/-- Every piece of state at its value of R281, after the reset numbered `epoch`, with these inputs still to come. -/
def State.atReset (epoch : Nat) (pending : List Input) : State :=
  { rings := Vector.replicate Config.nRings Ring.atReset
    ports := Vector.replicate Config.nPorts Port.atReset
    tflag := 0b00#2
    dest := 0xFFFF#16
    chan := 0x00#8
    ckacc := 0x00#8
    rtype := 0x00#8
    res := 0#32
    err := 0x00#8
    dbuf := []
    busReads := []
    epoch := epoch
    inReset := false
    pending := pending }

/-- The machine right after reset (R280, R281): no input has come yet. The model's own fields start as log entry 12 says. -/
def State.reset : State := State.atReset 0 []

end Sys2Proof.Machine
end

