-- ==== Sys2Proof/Machine/Flags.lean ====
section
/-! DEFINITION. The status codes (R251), the timer flags (R230 to R234), and the flag bits of a port (R26, R27, R163,
R164). These are all the flags of the block: no operation computes any other. -/

namespace Sys2Proof.Machine

/-- The numeric code of a status (R251). 0x07, 0x08 and up are reserved and never produced. -/
def Status.code : Status → Byte
  | .ok => 0x00#8
  | .badCmd => 0x01#8
  | .badIndex => 0x02#8
  | .badOperand => 0x03#8
  | .invalid => 0x04#8
  | .checksumMismatch => 0x05#8
  | .queueOverflow => 0x06#8

/-- The outcome of an enqueue of `asked` bytes of which `written` were stored (R126, R152, R191). -/
def overflowStatus (written asked : Nat) : Status := if written < asked then .queueOverflow else .ok

/-- `TFLAG` with `tick2ms` set (R231). -/
def setTick2ms (t : BitVec 2) : BitVec 2 := t ||| 0b01#2

/-- `TFLAG` with `tick1s` set (R232). -/
def setTick1s (t : BitVec 2) : BitVec 2 := t ||| 0b10#2

/-- Write-one-to-clear of `TFLAG` by the written value (R234). -/
def clearTicks (t : BitVec 2) (v : Word) : BitVec 2 := t &&& ~~~(v.setWidth 2)

/-- `PSTAT[p]` as a read returns it: bit 1 `RXOVF[p]`, bit 0 `TXBUSY[p]` (R163). -/
def Port.status (g : Port) : Word :=
  (BitVec.ofBool g.rxovf).setWidth 32 <<< 1 ||| (BitVec.ofBool g.txbusy).setWidth 32

/-- A write of `v` to `PSTAT[p]`: bit 1 clears `RXOVF[p]`, every other bit is ignored (R164). -/
def Port.writeStatus (g : Port) (v : Word) : Port :=
  { g with rxovf := g.rxovf && !(v.getLsbD 1) }

/-- Arm the transmit interrupt: `Transmitting` (R26, R151). -/
def Port.arm (g : Port) : Port := { g with txbusy := true }

/-- Disarm the transmit interrupt: `Idle` (R26, R151). -/
def Port.disarm (g : Port) : Port := { g with txbusy := false }

/-- Record a dropped receive byte (R27, R156). -/
def Port.overflow (g : Port) : Port := { g with rxovf := true }

/-- `emit(p, b)`: the byte leaves the block on the transmit line (R157). -/
def Port.emit (g : Port) (b : Byte) : Port := { g with lineOut := g.lineOut ++ [b] }

end Sys2Proof.Machine
end

