-- ==== Sys2Proof/Machine/Ops.lean ====
section
/-! DEFINITION. The named operations over storage, rings, ports and results. The block takes no exception (R250, R258):
what stands in their place are `State.finish` (a status in `ERR`, R9) and `busError` (R252), both here. -/

namespace Sys2Proof.Machine

/-! ## Byte storage -/

/-- The byte written at an index, none if nothing has been written there. -/
def Mem.read? : Mem → Nat → Option Byte
  | [], _ => none
  | (b, w) :: rest, a => if a = b then some w else Mem.read? rest a

/-- Write a byte, keeping indices strictly rising. -/
def Mem.write : Mem → Nat → Byte → Mem
  | [], a, v => [(a, v)]
  | (b, w) :: rest, a, v =>
    if a < b then (a, v) :: (b, w) :: rest
    else if a = b then (a, v) :: rest
    else (b, w) :: Mem.write rest a v

/-- Write bytes at consecutive indices from `a`, in increasing order (R105). -/
def Mem.writeList (m : Mem) (a : Nat) : List Byte → Mem
  | [] => m
  | v :: rest => Mem.writeList (m.write a v) (a + 1) rest

/-- The canonical form: indices strictly rising. An unlisted index reads as no written byte, and no entry says that, so
equal contents are equal lists. -/
abbrev Mem.Wf (m : Mem) : Prop := m.Pairwise (fun x y => x.1 < y.1)

/-- The byte at an index: the one written since reset, else the free value of the storage (R284). -/
def Mem.byteAt (free : Nat → Byte) (m : Mem) (a : Nat) : Byte := (m.read? a).getD (free a)

/-! ## Rings (R120 to R124) -/

/-- `adv(r, i) = (i + 1) mod ring[r].cap` (R123). -/
def Ring.adv (g : Ring) (i : Byte) : Byte := BitVec.ofNat 8 ((i.toNat + 1) % g.cap.toNat)

/-- One turn of `enq`'s loop (R121): store at `tail`, advance `tail`. -/
def Ring.push (g : Ring) (b : Byte) : Ring :=
  { g with mem := g.mem.write g.tail.toNat b, tail := g.adv g.tail }

/-- How many of `n` offered bytes fit (R121). -/
def Ring.room (g : Ring) (n : Nat) : Nat := min n (g.cap.toNat - g.count.toNat)

/-- `ring[r].count <- c` (R121, R122). -/
def Ring.withCount (g : Ring) (c : Nat) : Ring := { g with count := BitVec.ofNat 8 c }

/-- `enq(r, s)` (R121): the ring after it, and the number of bytes stored. -/
def Ring.enq (g : Ring) (s : List Byte) : Ring × Nat :=
  let w := g.room s.length
  (((s.take w).foldl Ring.push g).withCount (g.count.toNat + w), w)

/-- `deq`'s loop (R122): `m` bytes from `head` on, advancing `head`. -/
def Ring.popMany (free : Nat → Byte) : Nat → Ring → List Byte × Ring
  | 0, g => ([], g)
  | m + 1, g =>
    let rest := Ring.popMany free m { g with head := g.adv g.head }
    (Mem.byteAt free g.mem g.head.toNat :: rest.1, rest.2)

/-- `deq(r, n)` (R122): the bytes removed, oldest first, and the ring after it. `free` gives storage nothing has
written. -/
def Ring.deq (free : Nat → Byte) (g : Ring) (n : Nat) : List Byte × Ring :=
  let m := min n g.count.toNat
  let popped := Ring.popMany free m g
  (popped.1, popped.2.withCount (g.count.toNat - m))

/-- `isEmpty(r)` (R124). -/
def Ring.isEmpty (g : Ring) : Bool := g.count == 0#8

/-- `isFull(r)` (R124). -/
def Ring.isFull (g : Ring) : Bool := g.count == g.cap

/-- `RB_INIT`'s effect on the ring (R125): capacity `cap`, empty; the storage keeps its bytes. -/
def Ring.init (g : Ring) (cap : Byte) : Ring :=
  { g with cap := cap, head := 0#8, tail := 0#8, count := 0#8 }

/-! ## The parts of the state -/

/-- `ring[r]`. -/
def State.ring (s : State) (r : Fin Config.nRings) : Ring := s.rings[r.val]'r.isLt

/-- `ring[r] <- g`. -/
def State.setRing (s : State) (r : Fin Config.nRings) (g : Ring) : State :=
  { s with rings := s.rings.set r.val g r.isLt }

/-- Port `p`'s bits. -/
def State.port (s : State) (p : Fin Config.nPorts) : Port := s.ports[p.val]'p.isLt

/-- Port `p`'s bits `<- g`. -/
def State.setPort (s : State) (p : Fin Config.nPorts) (g : Port) : State :=
  { s with ports := s.ports.set p.val g p.isLt }

/-- The free values of ring `r`'s storage since the last reset (R281; 93 I7). -/
def State.ringFree (s : State) (r : Fin Config.nRings) : Nat → Byte := Config.ringMemAtReset s.epoch r.val

/-- `enq(r, s)` on the block's ring `r` (R121). -/
def State.enq (s : State) (r : Fin Config.nRings) (bytes : List Byte) : State × Nat :=
  let stored := (s.ring r).enq bytes
  (s.setRing r stored.1, stored.2)

/-- `deq(r, n)` on the block's ring `r` (R122). -/
def State.deq (s : State) (r : Fin Config.nRings) (n : Nat) : List Byte × State :=
  let removed := (s.ring r).deq (s.ringFree r) n
  (removed.1, s.setRing r removed.2)

/-- `DBUF[i]`: the byte written since reset, else its free value (R284). -/
def State.dbufByte (s : State) (i : Nat) : Byte := Mem.byteAt (Config.dbufAtReset s.epoch) s.dbuf i

/-- `DBUF[i .. i+n-1]`. -/
def State.dbufRange (s : State) (i n : Nat) : List Byte := (List.range' i n).map s.dbufByte

/-- `DBUF[i + k] <- bytes[k]` for every k. -/
def State.storeDbuf (s : State) (i : Nat) (bytes : List Byte) : State :=
  { s with dbuf := s.dbuf.writeList i bytes }

/-! ## How an operation ends -/

/-- `finish(e, r)`: `ERR <- e; RES <- r` (R9). -/
def State.finish (s : State) (e : Status) (r : Word) : State := { s with err := e.code, res := r }

/-- A host read returns `v`; the block's state is unchanged (R68). -/
def State.returns (s : State) (v : Word) : State := { s with busReads := s.busReads ++ [v] }

/-- `raise BusError(BASE + off)`: the access is refused and no block state changes (R252). -/
def busError (off : Nat) : Host.Outcome State Fault Refusal := .fault (.busError (Config.base + off))

/-- The state when the reset input is released (R280, R281): every piece at its reset value, storage unspecified afresh,
the inputs still to come as they were. -/
def State.released (s : State) : State := State.atReset (s.epoch + 1) s.pending

end Sys2Proof.Machine
end

