-- ==== Sys2Proof/Machine/Operands.lean ====
section
/-! DEFINITION. The operand forms: a ring index (R132), a port index (R162, R101), the rings of a port (R22), byte ranges
of `DBUF` (R25), and the values of the bus (R65 to R67). -/

namespace Sys2Proof.Machine

/-- `r <- IDX` (R132): none where `IDX ≥ N_RINGS`. -/
def ringIndex? (idx : Byte) : Option (Fin Config.nRings) :=
  if h : idx.toNat < Config.nRings then some ⟨idx.toNat, h⟩ else none

/-- `p <- n` (R162, R101): none where `n ≥ N_PORTS`. -/
def portIndex? (n : Nat) : Option (Fin Config.nPorts) :=
  if h : n < Config.nPorts then some ⟨n, h⟩ else none

theorem txRing_lt (p : Fin Config.nPorts) : 2 * p.val < Config.nRings := by
  have := p.isLt
  unfold Config.nRings
  omega

theorem rxRing_lt (p : Fin Config.nPorts) : 2 * p.val + 1 < Config.nRings := by
  have := p.isLt
  unfold Config.nRings
  omega

/-- The TX ring of port p: ring `2p` (R22). -/
def txRing (p : Fin Config.nPorts) : Fin Config.nRings := ⟨2 * p.val, txRing_lt p⟩

/-- The RX ring of port p: ring `2p + 1` (R22). -/
def rxRing (p : Fin Config.nPorts) : Fin Config.nRings := ⟨2 * p.val + 1, rxRing_lt p⟩

/-- The input bytes of a command: `DBUF[0 .. n-1]` (R25). -/
def State.inputBytes (s : State) (n : Byte) : List Byte := s.dbufRange 0 n.toNat

/-- A command's output bytes, left in `DBUF` from index 0 (R25). -/
def State.outputBytes (s : State) (bytes : List Byte) : State := s.storeDbuf 0 bytes

/-- A number of bytes as `RES` holds it (R33). -/
def countWord (n : Nat) : Word := BitVec.ofNat 32 n

/-- The 16-bit value of two bytes, little-endian (R65). -/
def halfOf (b0 b1 : Byte) : Half := b1 ++ b0

/-- The 32-bit value of four bytes, little-endian (R65). -/
def wordOf (b0 b1 b2 b3 : Byte) : Word := b3 ++ b2 ++ b1 ++ b0

/-- The bytes of a 16-bit value, lowest address first (R65). -/
def halfBytes (v : Half) : List Byte := [v.extractLsb' 0 8, v.extractLsb' 8 8]

/-- The bytes of a 32-bit value, lowest address first (R65). -/
def wordBytes (v : Word) : List Byte :=
  [v.extractLsb' 0 8, v.extractLsb' 8 8, v.extractLsb' 16 8, v.extractLsb' 24 8]

/-- The bus address offset of `DBUF[i]` (R37). -/
def dbufBusOffset (i : Byte) : Nat := 0x100 + i.toNat

end Sys2Proof.Machine
end

