-- ==== Sys2Proof/Machine/Checksum.lean ====
section
/-! DEFINITION. The checksum function (R210, R211) and the running accumulator's commands (R212 to R215). Each operation
takes the checksum kind as an argument; the block's is the OPEN parameter `Config.checksumKind`. -/

namespace Sys2Proof.Machine

/-- `comb(a, b)` (R210). -/
def combWith : ChecksumKind → Byte → Byte → Byte
  | .add8, a, b => a + b
  | .xor8, a, b => a ^^^ b

/-- The running sum of bytes from an accumulator (R211, R214). -/
def sumFrom (k : ChecksumKind) (acc : Byte) (s : List Byte) : Byte := s.foldl (combWith k) acc

/-- `ck(s)` (R211): the running sum from 0x00. -/
def ckWith (k : ChecksumKind) (s : List Byte) : Byte := sumFrom k 0x00#8 s

/-- `ck(s)` under the block's kind. -/
def ck (s : List Byte) : Byte := ckWith Config.checksumKind s

/-- `CKACC <- v; finish(OK, CKACC)` (R212 to R214). -/
def State.setCkacc (s : State) (v : Byte) : State :=
  ({ s with ckacc := v } : State).finish .ok (v.setWidth 32)

/-- `CK_CLEAR` (R212). -/
def cmdCkClear (s : State) : State := s.setCkacc 0x00#8

/-- `CK_BYTE b` (R213) under a kind. -/
def ckByteWith (k : ChecksumKind) (b : Byte) (s : State) : State := s.setCkacc (combWith k s.ckacc b)

/-- `CK_BUF n` (R214) under a kind. -/
def ckBufWith (k : ChecksumKind) (n : Byte) (s : State) : State := s.setCkacc (sumFrom k s.ckacc (s.inputBytes n))

/-- `CK_BYTE b` (R213). -/
def cmdCkByte (b : Byte) (s : State) : State := ckByteWith Config.checksumKind b s

/-- `CK_BUF n` (R214). -/
def cmdCkBuf (n : Byte) (s : State) : State := ckBufWith Config.checksumKind n s

/-- The meaning of `CK_CLEAR` (R212). -/
def execCkClear (s : State) : Host.Outcome State Fault Refusal := .next (cmdCkClear s)

/-- The meaning of `CK_BYTE` (R213). -/
def execCkByte (b : Byte) (s : State) : Host.Outcome State Fault Refusal := .next (cmdCkByte b s)

/-- The meaning of `CK_BUF` (R214). -/
def execCkBuf (n : Byte) (s : State) : Host.Outcome State Fault Refusal := .next (cmdCkBuf n s)

end Sys2Proof.Machine
end

