-- ==== Sys2Proof/Machine/Serial.lean ====
section
/-! DEFINITION. The serial transport (42_serial_transport.md): the host's commands, and the line events the block services
itself (R155, R156). -/

namespace Sys2Proof.Machine

/-- `if w >= 1 and TXBUSY[p] = 0: TXBUSY[p] <- 1` (R152). -/
def State.armIfStored (s : State) (p : Fin Config.nPorts) (w : Nat) : State :=
  if 1 ≤ w ∧ (s.port p).txbusy = false then s.setPort p (s.port p).arm else s

/-- `txwrite(p, s)` (R152): the state after it, and the number of bytes stored. -/
def State.txwrite (s : State) (p : Fin Config.nPorts) (bytes : List Byte) : State × Nat :=
  let stored := s.enq (txRing p) bytes
  (stored.1.armIfStored p stored.2, stored.2)

/-- `SER_WRITE p, n` (R152, R162). -/
def cmdSerWrite (p n : Byte) (s : State) : State :=
  match portIndex? p.toNat with
  | none => s.finish .badIndex 0#32
  | some q =>
    let stored := s.txwrite q (s.inputBytes n)
    stored.1.finish (overflowStatus stored.2 n.toNat) (countWord stored.2)

/-- `SER_READ p, n` (R153, R162). -/
def cmdSerRead (p n : Byte) (s : State) : State :=
  match portIndex? p.toNat with
  | none => s.finish .badIndex 0#32
  | some q =>
    let removed := s.deq (rxRing q) n.toNat
    (removed.2.outputBytes removed.1).finish .ok (countWord removed.1.length)

/-- Emit every byte of a list on port p's line, in order (R157). -/
def State.emitAll (s : State) (p : Fin Config.nPorts) (bytes : List Byte) : State :=
  s.setPort p (bytes.foldl Port.emit (s.port p))

/-- `if ring[2p].count = 0: TXBUSY[p] <- 0` (R155). -/
def State.disarmIfEmpty (s : State) (p : Fin Config.nPorts) : State :=
  if (s.ring (txRing p)).isEmpty then s.setPort p (s.port p).disarm else s

/-- The transmit-interrupt handler of R155: on an empty ring disarm; else dequeue one byte, emit it, and disarm if that
emptied the ring. -/
def State.txrdy (s : State) (p : Fin Config.nPorts) : State :=
  if (s.ring (txRing p)).isEmpty then s.setPort p (s.port p).disarm
  else
    let removed := s.deq (txRing p) 1
    (removed.2.emitAll p removed.1).disarmIfEmpty p

/-- The receive-interrupt handler of R156: enqueue the byte, or record that it was dropped. -/
def State.receive (s : State) (p : Fin Config.nPorts) (b : Byte) : State :=
  let stored := s.enq (rxRing p) [b]
  if stored.2 = 0 then stored.1.setPort p (stored.1.port p).overflow else stored.1

/-- The meaning of `SER_WRITE` (R152). -/
def execSerWrite (p n : Byte) (s : State) : Host.Outcome State Fault Refusal := .next (cmdSerWrite p n s)

/-- The meaning of `SER_READ` (R153). -/
def execSerRead (p n : Byte) (s : State) : Host.Outcome State Fault Refusal := .next (cmdSerRead p n s)

/-- The meaning of `EV_RX p, b` (R156): always enabled (R158). A port the block has not is no event (R101). -/
def execEvRx (p : BitVec 4) (b : Byte) (s : State) : Host.Outcome State Fault Refusal :=
  match portIndex? p.toNat with
  | none => .refused (.notAnEvent (eventWord 0x1#4 p b))
  | some q => .next (s.receive q b)

/-- The meaning of `EV_TXRDY p` (R155): no step while `TXBUSY[p] = 0` (R154). -/
def execEvTxrdy (p : BitVec 4) (s : State) : Host.Outcome State Fault Refusal :=
  match portIndex? p.toNat with
  | none => .refused (.notAnEvent (eventWord 0x2#4 p 0#8))
  | some q => if (s.port q).txbusy then .next (s.txrdy q) else .fault (.txrdyNotEnabled p.toNat)

end Sys2Proof.Machine
end

