-- ==== Sys2Proof/Machine/Packet.lean ====
section
/-! DEFINITION. The packet codec (43_packet_codec.md): frames (R181), envelopes (R182), the radio window (R190) and the
packet commands. Each operation takes the OPEN parameters it depends on as arguments; the block's are in `Config`. -/

namespace Sys2Proof.Machine

/-- `field(P) = P ++ zeros(61 - len(P))` (R181, R183). -/
def payloadField (payload : List Byte) : List Byte :=
  payload ++ List.replicate (Config.payloadMax - payload.length) 0x00#8

/-- `body(t, P) = [t] ++ field(P)` (R181). -/
def frameBody (t : Byte) (payload : List Byte) : List Byte := t :: payloadField payload

/-- `frame(t, P) = body(t, P) ++ [ck(body(t, P))]` (R181). -/
def frameWith (k : ChecksumKind) (t : Byte) (payload : List Byte) : List Byte :=
  frameBody t payload ++ [ckWith k (frameBody t payload)]

/-- `envelope(a, c, t, P) = [a[15:8], a[7:0], c] ++ frame(t, P)` (R182). -/
def envelopeWith (k : ChecksumKind) (a : Half) (c t : Byte) (payload : List Byte) : List Byte :=
  [a.extractLsb' 8 8, a.extractLsb' 0 8, c] ++ frameWith k t payload

/-- Frame and leave the bytes in `DBUF`, or `INVALID` for a payload over 61 bytes (R184 to R186). The input is read
before any output is written (D33): `bytes` is a function of the payload. -/
def State.framed (s : State) (n : Byte) (bytes : List Byte → List Byte) (length : Nat) : State :=
  if Config.payloadMax < n.toNat then s.finish .invalid 0#32
  else (s.outputBytes (bytes (s.inputBytes n))).finish .ok (countWord length)

/-- `PKT_ENCODE n, t` (R184) under a checksum kind. -/
def pktEncodeWith (k : ChecksumKind) (n t : Byte) (s : State) : State :=
  s.framed n (frameWith k t) Config.frameLen

/-- `PKT_ENVELOPE n, t` (R185) under a checksum kind. -/
def pktEnvelopeWith (k : ChecksumKind) (n t : Byte) (s : State) : State :=
  s.framed n (envelopeWith k s.dest s.chan t) Config.envelopeLen

/-- `PKT_ROUTE n` (R186) under a checksum kind: destination 0xFFFF, channel 0x00, type `TYPE_ROUTE`. -/
def pktRouteWith (k : ChecksumKind) (n : Byte) (s : State) : State :=
  s.framed n (envelopeWith k 0xFFFF#16 0x00#8 Config.typeRoute) Config.envelopeLen

/-- The largest frame offset of `PKT_DECODE`: the frame must lie inside `DBUF` (R187). -/
def maxFrameOffset : Nat := Config.dbufSize - Config.frameLen

/-- The position of a frame's checksum byte (R181). -/
def checksumPos : Nat := Config.frameLen - 1

/-- Whether the 63 bytes of `DBUF` at `off` are a frame whose checksum agrees (R187) under a checksum kind. -/
def State.frameAgrees (s : State) (k : ChecksumKind) (off : Nat) : Bool :=
  ckWith k (s.dbufRange off checksumPos) == s.dbufByte (off + checksumPos)

/-- `PKT_DECODE off` (R187) under a checksum kind. -/
def pktDecodeWith (k : ChecksumKind) (off : Byte) (s : State) : State :=
  if maxFrameOffset < off.toNat then s.finish .badOperand 0#32
  else if s.frameAgrees k off.toNat then
    ({ s with rtype := s.dbufByte off.toNat } : State).finish .ok (countWord Config.payloadMax)
  else s.finish .checksumMismatch 0#32

/-- The radio window of the envelope at `DBUF[0 .. 65]`: `DBUF[W .. 65]` (R190). -/
def State.radioWindow (s : State) (w : Fin 2) : List Byte := s.dbufRange w.val (Config.envelopeLen - w.val)

/-- `PKT_SEND p` (R191, R162) under a radio window offset. -/
def pktSendWith (w : Fin 2) (p : Byte) (s : State) : State :=
  match portIndex? p.toNat with
  | none => s.finish .badIndex 0#32
  | some q =>
    let window := s.radioWindow w
    let stored := s.txwrite q window
    stored.1.finish (overflowStatus stored.2 window.length) (countWord stored.2)

/-- `PKT_ENCODE n, t` (R184). -/
def cmdPktEncode (n t : Byte) (s : State) : State := pktEncodeWith Config.checksumKind n t s

/-- `PKT_ENVELOPE n, t` (R185). -/
def cmdPktEnvelope (n t : Byte) (s : State) : State := pktEnvelopeWith Config.checksumKind n t s

/-- `PKT_ROUTE n` (R186). -/
def cmdPktRoute (n : Byte) (s : State) : State := pktRouteWith Config.checksumKind n s

/-- `PKT_DECODE off` (R187). -/
def cmdPktDecode (off : Byte) (s : State) : State := pktDecodeWith Config.checksumKind off s

/-- `PKT_SEND p` (R191). -/
def cmdPktSend (p : Byte) (s : State) : State := pktSendWith Config.radioWindowOffset p s

/-- The meaning of `PKT_ENCODE` (R184). -/
def execPktEncode (n t : Byte) (s : State) : Host.Outcome State Fault Refusal := .next (cmdPktEncode n t s)

/-- The meaning of `PKT_ENVELOPE` (R185). -/
def execPktEnvelope (n t : Byte) (s : State) : Host.Outcome State Fault Refusal := .next (cmdPktEnvelope n t s)

/-- The meaning of `PKT_ROUTE` (R186). -/
def execPktRoute (n : Byte) (s : State) : Host.Outcome State Fault Refusal := .next (cmdPktRoute n s)

/-- The meaning of `PKT_DECODE` (R187). -/
def execPktDecode (off : Byte) (s : State) : Host.Outcome State Fault Refusal := .next (cmdPktDecode off s)

/-- The meaning of `PKT_SEND` (R191). -/
def execPktSend (p : Byte) (s : State) : Host.Outcome State Fault Refusal := .next (cmdPktSend p s)

end Sys2Proof.Machine
end

