-- ==== Sys2Proof/Machine/RingBuffer.lean ====
section
/-! DEFINITION. The ring buffer commands (41_ring_buffer.md section 2). Each command's effect is a state change (`cmd…`),
because a command always completes (R135, R253); its `exec…` is the instruction's meaning. -/

namespace Sys2Proof.Machine

/-- `RB_INIT r, cap` (R125, R132). -/
def cmdRbInit (r cap : Byte) (s : State) : State :=
  match ringIndex? r with
  | none => s.finish .badIndex 0#32
  | some i =>
    if cap.toNat = 0 ∨ Config.capMax < cap.toNat then s.finish .badOperand 0#32
    else (s.setRing i ((s.ring i).init cap)).finish .ok 0#32

/-- `RB_ENQ r, n` (R126, R132). -/
def cmdRbEnq (r n : Byte) (s : State) : State :=
  match ringIndex? r with
  | none => s.finish .badIndex 0#32
  | some i =>
    let stored := s.enq i (s.inputBytes n)
    stored.1.finish (overflowStatus stored.2 n.toNat) (countWord stored.2)

/-- `RB_DEQ r, n` (R127, R132). -/
def cmdRbDeq (r n : Byte) (s : State) : State :=
  match ringIndex? r with
  | none => s.finish .badIndex 0#32
  | some i =>
    let removed := s.deq i n.toNat
    (removed.2.outputBytes removed.1).finish .ok (countWord removed.1.length)

/-- `RB_ISEMPTY r` (R128, R132). -/
def cmdRbIsEmpty (r : Byte) (s : State) : State :=
  match ringIndex? r with
  | none => s.finish .badIndex 0#32
  | some i => s.finish .ok (if (s.ring i).isEmpty then 1#32 else 0#32)

/-- `RB_ISFULL r` (R129, R132). -/
def cmdRbIsFull (r : Byte) (s : State) : State :=
  match ringIndex? r with
  | none => s.finish .badIndex 0#32
  | some i => s.finish .ok (if (s.ring i).isFull then 1#32 else 0#32)

/-- `RB_COUNT r` (R130, R132). -/
def cmdRbCount (r : Byte) (s : State) : State :=
  match ringIndex? r with
  | none => s.finish .badIndex 0#32
  | some i => s.finish .ok ((s.ring i).count.setWidth 32)

/-- `RB_CAP r` (R131, R132). -/
def cmdRbCap (r : Byte) (s : State) : State :=
  match ringIndex? r with
  | none => s.finish .badIndex 0#32
  | some i => s.finish .ok ((s.ring i).cap.setWidth 32)

/-- The meaning of `RB_INIT` (R125). -/
def execRbInit (r cap : Byte) (s : State) : Host.Outcome State Fault Refusal := .next (cmdRbInit r cap s)

/-- The meaning of `RB_ENQ` (R126). -/
def execRbEnq (r n : Byte) (s : State) : Host.Outcome State Fault Refusal := .next (cmdRbEnq r n s)

/-- The meaning of `RB_DEQ` (R127). -/
def execRbDeq (r n : Byte) (s : State) : Host.Outcome State Fault Refusal := .next (cmdRbDeq r n s)

/-- The meaning of `RB_ISEMPTY` (R128). -/
def execRbIsEmpty (r : Byte) (s : State) : Host.Outcome State Fault Refusal := .next (cmdRbIsEmpty r s)

/-- The meaning of `RB_ISFULL` (R129). -/
def execRbIsFull (r : Byte) (s : State) : Host.Outcome State Fault Refusal := .next (cmdRbIsFull r s)

/-- The meaning of `RB_COUNT` (R130). -/
def execRbCount (r : Byte) (s : State) : Host.Outcome State Fault Refusal := .next (cmdRbCount r s)

/-- The meaning of `RB_CAP` (R131). -/
def execRbCap (r : Byte) (s : State) : Host.Outcome State Fault Refusal := .next (cmdRbCap r s)

end Sys2Proof.Machine
end

