-- ==== Sys2Proof/Machine/Command.lean ====
section
/-! DEFINITION. A `CMD` write (R95): decode the word (R94) and execute the command, or `BAD_CMD` (R96). -/

namespace Sys2Proof.Machine

/-- The effect of a decoded command: the rule that R93 names for it. -/
def runCommand (c : Command) (s : State) : State :=
  match c.op with
  | .rbInit => cmdRbInit c.idx c.len s
  | .rbEnq => cmdRbEnq c.idx c.len s
  | .rbDeq => cmdRbDeq c.idx c.len s
  | .rbIsEmpty => cmdRbIsEmpty c.idx s
  | .rbIsFull => cmdRbIsFull c.idx s
  | .rbCount => cmdRbCount c.idx s
  | .rbCap => cmdRbCap c.idx s
  | .serWrite => cmdSerWrite c.idx c.len s
  | .serRead => cmdSerRead c.idx c.len s
  | .pktEncode => cmdPktEncode c.len c.imm s
  | .pktEnvelope => cmdPktEnvelope c.len c.imm s
  | .pktRoute => cmdPktRoute c.len s
  | .pktDecode => cmdPktDecode c.imm s
  | .pktSend => cmdPktSend c.idx s
  | .ckClear => cmdCkClear s
  | .ckByte => cmdCkByte c.imm s
  | .ckBuf => cmdCkBuf c.len s

/-- The effect of writing `w` to `CMD` (R95, R96). -/
def cmdWritten (w : Word) (s : State) : State :=
  match decodeCommand w with
  | none => s.finish .badCmd 0#32
  | some c => runCommand c s

/-- The meaning of a `CMD` write (R95). -/
def execSt32Cmd (w : Word) (s : State) : Host.Outcome State Fault Refusal := .next (cmdWritten w s)

end Sys2Proof.Machine
end

