-- ==== Sys2Proof/Machine/Registers.lean ====
section
/-! DEFINITION. Host accesses to the registers of R37 (other than `TFLAG`, in Timer.lean, and `CMD` writes, in
Command.lean), to the staging buffer (R66, R67), to reserved offsets (R64), and the accesses the block refuses (R252). -/

namespace Sys2Proof.Machine

/-- Bit 16 of `CFG` (R35). -/
def kindBit : ChecksumKind → BitVec 1
  | .add8 => 0#1
  | .xor8 => 1#1

/-- `CFG` under the OPEN parameters (R35). -/
def cfgWith (k : ChecksumKind) (w : Fin 2) : Word :=
  (0#14 ++ BitVec.ofNat 1 w.val ++ kindBit k ++ BitVec.ofNat 4 Config.nAuxRings ++ BitVec.ofNat 4 Config.nPorts
    ++ BitVec.ofNat 8 Config.capMax : BitVec (14 + 1 + 1 + 4 + 4 + 8))

/-- `CFG` (R35). -/
def cfgWord : Word := cfgWith Config.checksumKind Config.radioWindowOffset

/-- `CFG2` (R36). -/
def cfg2Word : Word :=
  (0#8 ++ BitVec.ofNat 8 Config.payloadMax ++ Config.typeRoute ++ Config.typeData : BitVec (8 + 8 + 8 + 8))

/-- The meaning of a read of `CMD` (R39): 0. -/
def execLd32Cmd (s : State) : Host.Outcome State Fault Refusal := .next (s.returns 0#32)

/-- The meaning of a read of `RES` (R39). -/
def execLd32Res (s : State) : Host.Outcome State Fault Refusal := .next (s.returns s.res)

/-- The meaning of a write to `RES` (R39): no effect. -/
def execSt32Res (_v : Word) (s : State) : Host.Outcome State Fault Refusal := .next s

/-- The meaning of a read of `ERR` (R39). -/
def execLd32Err (s : State) : Host.Outcome State Fault Refusal := .next (s.returns (s.err.setWidth 32))

/-- The meaning of a write to `ERR` (R39): no effect. -/
def execSt32Err (_v : Word) (s : State) : Host.Outcome State Fault Refusal := .next s

/-- The meaning of a read of `DEST` (R40). -/
def execLd32Dest (s : State) : Host.Outcome State Fault Refusal := .next (s.returns (s.dest.setWidth 32))

/-- The meaning of a write of `v` to `DEST` (R40): `DEST <- v[15:0]`. -/
def execSt32Dest (v : Word) (s : State) : Host.Outcome State Fault Refusal :=
  .next { s with dest := v.extractLsb' 0 16 }

/-- The meaning of a read of `CHAN` (R41). -/
def execLd32Chan (s : State) : Host.Outcome State Fault Refusal := .next (s.returns (s.chan.setWidth 32))

/-- The meaning of a write of `v` to `CHAN` (R41): `CHAN <- v[7:0]`. -/
def execSt32Chan (v : Word) (s : State) : Host.Outcome State Fault Refusal :=
  .next { s with chan := v.extractLsb' 0 8 }

/-- The meaning of a read of `CKACC` (R39). -/
def execLd32Ckacc (s : State) : Host.Outcome State Fault Refusal := .next (s.returns (s.ckacc.setWidth 32))

/-- The meaning of a write to `CKACC` (R39): no effect. -/
def execSt32Ckacc (_v : Word) (s : State) : Host.Outcome State Fault Refusal := .next s

/-- The meaning of a read of `RTYPE` (R39). -/
def execLd32Rtype (s : State) : Host.Outcome State Fault Refusal := .next (s.returns (s.rtype.setWidth 32))

/-- The meaning of a write to `RTYPE` (R39): no effect. -/
def execSt32Rtype (_v : Word) (s : State) : Host.Outcome State Fault Refusal := .next s

/-- The meaning of a read of `CFG` (R35, R39). -/
def execLd32Cfg (s : State) : Host.Outcome State Fault Refusal := .next (s.returns cfgWord)

/-- The meaning of a write to `CFG` (R39): no effect. -/
def execSt32Cfg (_v : Word) (s : State) : Host.Outcome State Fault Refusal := .next s

/-- The meaning of a read of `CFG2` (R36, R39). -/
def execLd32Cfg2 (s : State) : Host.Outcome State Fault Refusal := .next (s.returns cfg2Word)

/-- The meaning of a write to `CFG2` (R39): no effect. -/
def execSt32Cfg2 (_v : Word) (s : State) : Host.Outcome State Fault Refusal := .next s

/-- The meaning of a read of `PSTAT[p]` (R163). Where `p ≥ N_PORTS` the offset is unmapped and reads 0 (R37, R64). -/
def execLd32Pstat (p : BitVec 3) (s : State) : Host.Outcome State Fault Refusal :=
  match portIndex? p.toNat with
  | none => .next (s.returns 0#32)
  | some q => .next (s.returns (s.port q).status)

/-- The meaning of a write of `v` to `PSTAT[p]` (R164). Where `p ≥ N_PORTS` the write is ignored (R37, R64). -/
def execSt32Pstat (p : BitVec 3) (v : Word) (s : State) : Host.Outcome State Fault Refusal :=
  match portIndex? p.toNat with
  | none => .next s
  | some q => .next (s.setPort q ((s.port q).writeStatus v))

/-- `DBUF` accesses must be aligned (R63): the `DBUF` window starts at an offset every width divides. -/
def alignedOr (i : Byte) (width : Nat) (next : State) : Host.Outcome State Fault Refusal :=
  if i.toNat % width = 0 then .next next else busError (dbufBusOffset i)

/-- The meaning of an 8-bit read of `DBUF[i]` (R66). -/
def execLd8Dbuf (i : Byte) (s : State) : Host.Outcome State Fault Refusal :=
  .next (s.returns ((s.dbufByte i.toNat).setWidth 32))

/-- The meaning of an 8-bit write of `DBUF[i]` (R67). -/
def execSt8Dbuf (i v : Byte) (s : State) : Host.Outcome State Fault Refusal := .next (s.storeDbuf i.toNat [v])

/-- The meaning of a 16-bit read of `DBUF[i], DBUF[i+1]` (R66). -/
def execLd16Dbuf (i : Byte) (s : State) : Host.Outcome State Fault Refusal :=
  alignedOr i 2 (s.returns ((halfOf (s.dbufByte i.toNat) (s.dbufByte (i.toNat + 1))).setWidth 32))

/-- The meaning of a 16-bit write of `DBUF[i], DBUF[i+1]` (R67). -/
def execSt16Dbuf (i : Byte) (v : Half) (s : State) : Host.Outcome State Fault Refusal :=
  alignedOr i 2 (s.storeDbuf i.toNat (halfBytes v))

/-- The meaning of a 32-bit read of `DBUF[i .. i+3]` (R66). -/
def execLd32Dbuf (i : Byte) (s : State) : Host.Outcome State Fault Refusal :=
  alignedOr i 4 (s.returns (wordOf (s.dbufByte i.toNat) (s.dbufByte (i.toNat + 1)) (s.dbufByte (i.toNat + 2))
    (s.dbufByte (i.toNat + 3))))

/-- The meaning of a 32-bit write of `DBUF[i .. i+3]` (R67). -/
def execSt32Dbuf (i : Byte) (v : Word) (s : State) : Host.Outcome State Fault Refusal :=
  alignedOr i 4 (s.storeDbuf i.toNat (wordBytes v))

/-- The meaning of an aligned 32-bit access to a reserved offset (R64): a read returns 0, a write is ignored. -/
def execReservedOffset (_off : BitVec 9) (dir : Dir) (s : State) : Host.Outcome State Fault Refusal :=
  match dir with
  | .read => .next (s.returns 0#32)
  | .write _ => .next s

/-- The meaning of an access the block refuses (R62, R63, R252): `BusError(BASE + off)`, nothing else. -/
def execBadAccess (off : BitVec 9) (_width : Nat) (_dir : Dir) (_s : State) : Host.Outcome State Fault Refusal :=
  busError off.toNat

end Sys2Proof.Machine
end

