-- ==== Sys2Proof/Machine/Timer.lean ====
section
/-! DEFINITION. The timer-flag register (45_timer_flags.md): the tick events and the host's access to `TFLAG`. -/

namespace Sys2Proof.Machine

/-- The meaning of `EV_TICK2MS` (R231): always enabled. -/
def execEvTick2ms (s : State) : Host.Outcome State Fault Refusal := .next { s with tflag := setTick2ms s.tflag }

/-- The meaning of `EV_TICK1S` (R232): always enabled. -/
def execEvTick1s (s : State) : Host.Outcome State Fault Refusal := .next { s with tflag := setTick1s s.tflag }

/-- The meaning of a read of `TFLAG` (R233): reading does not clear. -/
def execLd32Tflag (s : State) : Host.Outcome State Fault Refusal := .next (s.returns (s.tflag.setWidth 32))

/-- The meaning of a write of `v` to `TFLAG` (R234): write-one-to-clear. -/
def execSt32Tflag (v : Word) (s : State) : Host.Outcome State Fault Refusal :=
  .next { s with tflag := clearTicks s.tflag v }

end Sys2Proof.Machine
end

