-- ==== Sys2Proof/Machine/Dispatch.lean ====
section
/-! DEFINITION. One arm per instruction: a direct call of its meaning. -/

namespace Sys2Proof.Machine

def exec (i : Instr) (s : State) : Host.Outcome State Fault Refusal :=
  match i with
  | .rbInit r cap => Sys2Proof.Machine.execRbInit r cap s
  | .rbEnq r n => Sys2Proof.Machine.execRbEnq r n s
  | .rbDeq r n => Sys2Proof.Machine.execRbDeq r n s
  | .rbIsEmpty r => Sys2Proof.Machine.execRbIsEmpty r s
  | .rbIsFull r => Sys2Proof.Machine.execRbIsFull r s
  | .rbCount r => Sys2Proof.Machine.execRbCount r s
  | .rbCap r => Sys2Proof.Machine.execRbCap r s
  | .serWrite p n => Sys2Proof.Machine.execSerWrite p n s
  | .serRead p n => Sys2Proof.Machine.execSerRead p n s
  | .pktEncode n t => Sys2Proof.Machine.execPktEncode n t s
  | .pktEnvelope n t => Sys2Proof.Machine.execPktEnvelope n t s
  | .pktRoute n => Sys2Proof.Machine.execPktRoute n s
  | .pktDecode off => Sys2Proof.Machine.execPktDecode off s
  | .pktSend p => Sys2Proof.Machine.execPktSend p s
  | .ckClear => Sys2Proof.Machine.execCkClear s
  | .ckByte b => Sys2Proof.Machine.execCkByte b s
  | .ckBuf n => Sys2Proof.Machine.execCkBuf n s
  | .st32Cmd w => Sys2Proof.Machine.execSt32Cmd w s
  | .ld32Cmd => Sys2Proof.Machine.execLd32Cmd s
  | .ld32Res => Sys2Proof.Machine.execLd32Res s
  | .st32Res v => Sys2Proof.Machine.execSt32Res v s
  | .ld32Err => Sys2Proof.Machine.execLd32Err s
  | .st32Err v => Sys2Proof.Machine.execSt32Err v s
  | .ld32Tflag => Sys2Proof.Machine.execLd32Tflag s
  | .st32Tflag v => Sys2Proof.Machine.execSt32Tflag v s
  | .ld32Dest => Sys2Proof.Machine.execLd32Dest s
  | .st32Dest v => Sys2Proof.Machine.execSt32Dest v s
  | .ld32Chan => Sys2Proof.Machine.execLd32Chan s
  | .st32Chan v => Sys2Proof.Machine.execSt32Chan v s
  | .ld32Ckacc => Sys2Proof.Machine.execLd32Ckacc s
  | .st32Ckacc v => Sys2Proof.Machine.execSt32Ckacc v s
  | .ld32Rtype => Sys2Proof.Machine.execLd32Rtype s
  | .st32Rtype v => Sys2Proof.Machine.execSt32Rtype v s
  | .ld32Cfg => Sys2Proof.Machine.execLd32Cfg s
  | .st32Cfg v => Sys2Proof.Machine.execSt32Cfg v s
  | .ld32Cfg2 => Sys2Proof.Machine.execLd32Cfg2 s
  | .st32Cfg2 v => Sys2Proof.Machine.execSt32Cfg2 v s
  | .ld32Pstat p => Sys2Proof.Machine.execLd32Pstat p s
  | .st32Pstat p v => Sys2Proof.Machine.execSt32Pstat p v s
  | .ld8Dbuf j => Sys2Proof.Machine.execLd8Dbuf j s
  | .st8Dbuf j v => Sys2Proof.Machine.execSt8Dbuf j v s
  | .ld16Dbuf j => Sys2Proof.Machine.execLd16Dbuf j s
  | .st16Dbuf j v => Sys2Proof.Machine.execSt16Dbuf j v s
  | .ld32Dbuf j => Sys2Proof.Machine.execLd32Dbuf j s
  | .st32Dbuf j v => Sys2Proof.Machine.execSt32Dbuf j v s
  | .reservedOffset off dir => Sys2Proof.Machine.execReservedOffset off dir s
  | .badAccess off width dir => Sys2Proof.Machine.execBadAccess off width dir s
  | .evRx p b => Sys2Proof.Machine.execEvRx p b s
  | .evTxrdy p => Sys2Proof.Machine.execEvTxrdy p s
  | .evTick2ms => Sys2Proof.Machine.execEvTick2ms s
  | .evTick1s => Sys2Proof.Machine.execEvTick1s s

end Sys2Proof.Machine
end

