-- ==== Sys2Proof/Machine/Inputs.lean ====
section
/-! DEFINITION. What one input does to the block: an operation is decoded and executed; the reset input is asserted or
released (R280). And the fetch of the next input. -/

namespace Sys2Proof.Machine

/-- An operation while the block is out of reset: the instruction it decodes to, executed whole (R70). -/
def operate (o : Operation) (s : State) : Host.Outcome State Fault Refusal :=
  match decode o with
  | .instr i => exec i s
  | .notAnEvent w => .refused (.notAnEvent w)

/-- An operation while the reset input is asserted (R280; log entry 4): no event is taken (ticks and received bytes are
lost), and no bus access is accepted. A word that is no event is refused as ever (R101). -/
def whileInReset (o : Operation) (s : State) : Host.Outcome State Fault Refusal :=
  match o with
  | .event w =>
    match decodeEvent w with
    | .instr _ => .next s
    | .notAnEvent word => .refused (.notAnEvent word)
  | .access _ _ _ => .fault .accessInReset

/-- The reset input changes level (R280): releasing it gives every piece of state its reset value in one step. -/
def resetLine (asserted : Bool) (s : State) : State :=
  if asserted then { s with inReset := true } else if s.inReset then s.released else s

/-- One input, taken as one atomic step (R70). -/
def deliver (input : Input) (s : State) : Host.Outcome State Fault Refusal :=
  match input with
  | .op o => if s.inReset then whileInReset o s else operate o s
  | .resetLine asserted => .next (resetLine asserted s)

/-- Take the next input and deliver it; while no agent acts the block keeps its state (log entry 3, DESIGN CHOICE). -/
def takeInput (s : State) : Host.Outcome State Fault Refusal :=
  match s.pending with
  | [] => .next s
  | input :: rest => deliver input { s with pending := rest }

/-- The state with an operation as the next input, the block out of reset (log entry 10). -/
def State.withNext (s : State) (o : Operation) : State :=
  { s with inReset := false, pending := .op o :: s.pending }

end Sys2Proof.Machine
end

