-- ==== Sys2Proof/Safety.lean ====
section
/-! DEFINITION. The terms in which claims speak: the invariant of the block (R23, R33, R38), what a ring holds as a queue,
which operations the block admits, and runs of one ring's primitives. -/

namespace Sys2Proof.Machine

/-! ## Rings -/

/-- The storage index of the k-th oldest stored byte of a ring (R23). -/
def Ring.slot (g : Ring) (k : Nat) : Nat := (g.head.toNat + k) % g.cap.toNat

/-- The bytes a ring holds, oldest first (R23). -/
def Ring.stored (free : Nat → Byte) (g : Ring) : List Byte :=
  (List.range g.count.toNat).map (fun k => Mem.byteAt free g.mem (g.slot k))

/-- The bytes ring `r` of the block holds, oldest first. -/
def State.stored (s : State) (r : Fin Config.nRings) : List Byte := (s.ring r).stored (s.ringFree r)

/-- R23's invariant of a ring: a legal capacity, `0 ≤ count ≤ C`, both indices in `0..cap-1`,
`tail = (head + count) mod cap`; with the storage in canonical form inside `mem[0 .. CAP_MAX-1]`, and every stored byte
written since reset (R133). -/
abbrev Ring.Ok (g : Ring) : Prop :=
  (1 ≤ g.cap.toNat ∧ g.cap.toNat ≤ Config.capMax) ∧
  g.count.toNat ≤ g.cap.toNat ∧
  (g.head.toNat < g.cap.toNat ∧ g.tail.toNat < g.cap.toNat) ∧
  g.tail.toNat = (g.head.toNat + g.count.toNat) % g.cap.toNat ∧
  (Mem.Wf g.mem ∧ ∀ c ∈ g.mem, c.1 < Config.capMax) ∧
  ∀ k < g.count.toNat, (Mem.read? g.mem (g.slot k)).isSome = true

/-- One use of a ring primitive (R121, R122). -/
inductive RingUse where
  | enq (bytes : List Byte)
  | deq (n : Nat)
deriving DecidableEq, Repr

/-- What a sequence of uses of one ring did: the bytes asked to be stored, those stored, those returned, and the ring
after it. -/
structure RingRun where
  requested : List Byte
  accepted : List Byte
  returned : List Byte
  ring : Ring
deriving DecidableEq, Repr

/-- One use after a run. `enq` stores a prefix of its bytes, of the length it returns. -/
def RingRun.use (free : Nat → Byte) (run : RingRun) : RingUse → RingRun
  | .enq bytes =>
    { run with
      requested := run.requested ++ bytes
      accepted := run.accepted ++ bytes.take (run.ring.enq bytes).2
      ring := (run.ring.enq bytes).1 }
  | .deq n =>
    { run with
      returned := run.returned ++ (run.ring.deq free n).1
      ring := (run.ring.deq free n).2 }

/-- A sequence of uses of a ring. -/
def Ring.run (free : Nat → Byte) (g : Ring) (uses : List RingUse) : RingRun :=
  uses.foldl (RingRun.use free) { requested := [], accepted := [], returned := [], ring := g }

/-! ## The block -/

/-- The invariant of the block: every ring's (R23), the staging buffer's storage in canonical form inside `DBUF[0 .. 255]`
(R25), `ERR` a code the block produces (R251, R38), `RES` at most 255 (R33). -/
abbrev State.Inv (s : State) : Prop :=
  (∀ r : Fin Config.nRings, (s.ring r).Ok) ∧
  (Mem.Wf s.dbuf ∧ ∀ c ∈ s.dbuf, c.1 < Config.dbufSize) ∧
  s.err.toNat ≤ 6 ∧
  s.res.toNat ≤ 255

/-- R161's invariant of a port: `TXBUSY[p] = 1` exactly when the TX ring holds a byte. -/
abbrev State.TxSynced (s : State) (p : Fin Config.nPorts) : Prop :=
  (s.port p).txbusy = true ↔ 0 < (s.ring (txRing p)).count.toNat

/-- R161's premise: the instruction is no `RB_ENQ`, `RB_DEQ` or `RB_INIT` of ring `r`. -/
def sparesRing (r : Fin Config.nRings) : Instr → Bool
  | .rbInit r' _ | .rbEnq r' _ | .rbDeq r' _ => r'.toNat != r.val
  | .st32Cmd w =>
    match decodeCommand w with
    | some c => !((c.op == .rbInit || c.op == .rbEnq || c.op == .rbDeq) && c.idx.toNat == r.val)
    | none => true
  | .rbIsEmpty _ | .rbIsFull _ | .rbCount _ | .rbCap _ | .serWrite _ _ | .serRead _ _ => true
  | .pktEncode _ _ | .pktEnvelope _ _ | .pktRoute _ | .pktDecode _ | .pktSend _ => true
  | .ckClear | .ckByte _ | .ckBuf _ => true
  | .ld32Cmd | .ld32Res | .ld32Err | .ld32Tflag | .ld32Dest | .ld32Chan | .ld32Ckacc | .ld32Rtype => true
  | .ld32Cfg | .ld32Cfg2 | .ld32Pstat _ | .st32Pstat _ _ => true
  | .st32Res _ | .st32Err _ | .st32Tflag _ | .st32Dest _ | .st32Chan _ | .st32Ckacc _ | .st32Rtype _ => true
  | .st32Cfg _ | .st32Cfg2 _ => true
  | .ld8Dbuf _ | .st8Dbuf _ _ | .ld16Dbuf _ | .st16Dbuf _ _ | .ld32Dbuf _ | .st32Dbuf _ _ => true
  | .reservedOffset _ _ | .badAccess _ _ _ => true
  | .evRx _ _ | .evTxrdy _ | .evTick2ms | .evTick1s => true

/-- The event words of R100 for the block's ports, by their numbers: `0x1pbb`, `0x2p00`, `0x3000`, `0x4000`. -/
def isEventWord (w : Half) : Bool :=
  (w.toNat / 0x1000 == 1 && w.toNat / 0x100 % 0x10 < Config.nPorts) ||
  (w.toNat / 0x1000 == 2 && w.toNat / 0x100 % 0x10 < Config.nPorts && w.toNat % 0x100 == 0) ||
  w.toNat == 0x3000 || w.toNat == 0x4000

/-- The operations that have a step out of reset: an access the block does not refuse (R62, R63), an event word (R101), of
`EV_TXRDY p` only while the port's transmit interrupt is armed (R154). -/
def State.admits (s : State) : Operation → Bool
  | .access off width _ => !refusedAccess off width
  | .event w =>
    isEventWord w &&
      (w.toNat / 0x1000 != 2 ||
        match portIndex? (w.toNat / 0x100 % 0x10) with
        | none => false
        | some p => (s.port p).txbusy)

/-- The outcome of a step with its next state changed by `f`. -/
def mapNext (f : State → State) : Host.Outcome State Fault Refusal → Host.Outcome State Fault Refusal
  | .next s => .next (f s)
  | .fault e => .fault e
  | .refused e => .refused e

/-- Several instructions, each executed whole, one after the other. -/
def execAll : List Instr → State → Host.Outcome State Fault Refusal
  | [], s => .next s
  | i :: rest, s =>
    match exec i s with
    | .next t => execAll rest t
    | .fault e => .fault e
    | .refused e => .refused e

/-- The bytes `DBUF[0 .. n-1]` of a state. -/
def State.firstBytes (s : State) (n : Nat) : List Byte := (List.range n).map s.dbufByte

/-- `t` holds at `DBUF[pos .. pos+62]` the frame of type `ty` whose payload is the first `n` bytes of `s`'s `DBUF`
(R181): the type, the payload, zeros to 61 bytes, and the checksum of the 62 bytes before it. -/
def FramedAt (s t : State) (pos : Nat) (ty : Byte) (n : Nat) : Prop :=
  t.dbufByte pos = ty ∧
  (∀ k < 61, t.dbufByte (pos + 1 + k) = if k < n then s.dbufByte k else 0x00#8) ∧
  t.dbufByte (pos + 62) = ckWith Config.checksumKind ((List.range 62).map (fun k => t.dbufByte (pos + k)))

/-- An event of a line or a tick source (R255). -/
inductive Event where
  | rx (p : Fin Config.nPorts) (b : Byte)
  | txrdy (p : Fin Config.nPorts)
  | tick2ms
  | tick1s
deriving DecidableEq, Repr

/-- The instruction of an event. -/
def Event.instr : Event → Instr
  | .rx p b => .evRx (BitVec.ofNat 4 p.val) b
  | .txrdy p => .evTxrdy (BitVec.ofNat 4 p.val)
  | .tick2ms => .evTick2ms
  | .tick1s => .evTick1s

/-- The port of a line event; a tick has none. -/
def Event.port? : Event → Option (Fin Config.nPorts)
  | .rx p _ | .txrdy p => some p
  | .tick2ms | .tick1s => none

/-- Two events of different ports, an event and a tick, or two different ticks (R257). -/
def Event.apart (a b : Event) : Prop := a.port? ≠ b.port? ∨ (a.port? = none ∧ b.port? = none)

/-- The event word `0x2p00` of `EV_TXRDY p` (R155). -/
def txrdyWord (p : Fin Config.nPorts) : Half := BitVec.ofNat 16 (0x2000 + 0x100 * p.val)

/-- The state with port `q`'s bits and its two rings replaced (R150). -/
def State.replacePort (s : State) (q : Fin Config.nPorts) (bits : Port) (tx rx : Ring) : State :=
  ((s.setPort q bits).setRing (txRing q) tx).setRing (rxRing q) rx

end Sys2Proof.Machine
end

