-- ==== Sys2Proof/Certificates/Slice0/Obligations.lean ====
section
/-! DEFINITION. The statements for the provers, each formalising the rules its docstring names. `ERR` codes stand as the
numbers of R251: 0 `OK`, 1 `BAD_CMD`, 2 `BAD_INDEX`, 3 `BAD_OPERAND`, 4 `INVALID`, 5 `CHECKSUM_MISMATCH`,
6 `QUEUE_OVERFLOW`. Where a statement says `t = [s with f := t.f, …]`, every field not named is unchanged. A
host read shows the value it returns by adding it at the end of `busReads`, the model's own observation (log entry 5). -/

open Sys2Proof Sys2Proof.Machine

/-! ## Encoding -/

/-- R91, R93, R94, R99, R100: decoding the operation of a well-formed instruction gives the instruction, whatever its
operands. -/
def Obligations.DecodeInvertsEncode : Prop :=
  ∀ i : Instr, i.wellFormed = true → decode (encode i) = .instr i

/-- R63, R64, R99, R101: whatever the decoder gives is well-formed; no operation decodes to an instruction outside its
row's operand ranges. -/
def Obligations.DecodedInstructionsAreWellFormed : Prop :=
  ∀ (o : Operation) (i : Instr), decode o = .instr i → i.wellFormed = true

/-- R93, R94: a word decodes to a command exactly when the opcode table's row of the mnemonic fits it, with the word's own
fields, and no word fits two rows. -/
def Obligations.CommandDecoderAgreesWithTheOpcodeTable : Prop :=
  (∀ (w : Word) (c : Command), decodeCommand w = some c ↔
    (∃ row ∈ commandRows, row.op = c.op ∧ row.fits w = true) ∧
      c.idx = w.extractLsb' 16 8 ∧ c.len = w.extractLsb' 8 8 ∧ c.imm = w.extractLsb' 0 8) ∧
  ∀ (w : Word), ∀ a ∈ commandRows, ∀ b ∈ commandRows, a.fits w = true → b.fits w = true → a = b

/-- R106: the words of the commands that the spec lists decode to those commands, and are the words they encode to. -/
def Obligations.ListedCommandWordsDecode : Prop :=
  ∀ x ∈ [((0x01042000#32 : Word), Instr.rbInit 4 32), (0x02044000#32, .rbEnq 4 64), (0x05040000#32, .rbIsFull 4),
      (0x03044000#32, .rbDeq 4 64), (0x01010200#32, .rbInit 1 2), (0x10000300#32, .serWrite 0 3),
      (0x11000800#32, .serRead 0 8), (0x11013F00#32, .serRead 1 63), (0x20000300#32, .pktEncode 3 0x00),
      (0x21000300#32, .pktEnvelope 3 0x00), (0x22000200#32, .pktRoute 2), (0x23000000#32, .pktDecode 0),
      (0x23000003#32, .pktDecode 3), (0x24010000#32, .pktSend 1), (0x30000000#32, .ckClear),
      (0x310000FF#32, .ckByte 0xFF), (0x32000400#32, .ckBuf 4)],
    decode (.access 0x000#9 4 (.write x.1)) = .instr x.2 ∧ encode x.2 = .access 0x000#9 4 (.write x.1)

/-- R100, R101: an event word is read by its rows, and any other 16-bit word is refused as input. -/
def Obligations.EventWordsDecodeAndOthersAreRefused : Prop :=
  (∀ (p : Fin Config.nPorts) (b : Byte),
    decode (.event (BitVec.ofNat 16 (0x1000 + 0x100 * p.val + b.toNat))) = .instr (.evRx (BitVec.ofNat 4 p.val) b) ∧
    decode (.event (BitVec.ofNat 16 (0x2000 + 0x100 * p.val))) = .instr (.evTxrdy (BitVec.ofNat 4 p.val))) ∧
  decode (.event 0x3000#16) = .instr .evTick2ms ∧ decode (.event 0x4000#16) = .instr .evTick1s ∧
  ∀ (w : Half) (s : State), isEventWord w = false → operate (.event w) s = .refused (.notAnEvent w)

/-! ## Commands -/

/-- R96: an illegal word leaves `BAD_CMD` and 0, and changes nothing else. -/
def Obligations.IllegalWordIsBadCmd : Prop :=
  ∀ (w : Word) (s : State), legalWord w = false →
    operate (.access 0x000#9 4 (.write w)) s = .next { s with err := 0x01#8, res := 0#32 } ∧
    exec (.st32Cmd w) s = .next { s with err := 0x01#8, res := 0#32 }

/-- R95: a `CMD` write of a command's word executes that command, whole, in the step of the write. -/
def Obligations.CmdWriteRunsTheDecodedCommand : Prop :=
  ∀ (w : Word) (c : Command) (s : State), decodeCommand w = some c →
    operate (.access 0x000#9 4 (.write w)) s = exec c.toInstr s ∧
    ∃ t, exec (.st32Cmd w) s = .next t ∧ exec c.toInstr s = .next t

/-- R95, R286: `RES` and `ERR` describe the last `CMD` write alone: what a `CMD` write does depends on neither. -/
def Obligations.ResultDescribesOnlyTheLastCommand : Prop :=
  ∀ (w : Word) (s : State) (e : Byte) (r : Word),
    exec (.st32Cmd w) { s with err := e, res := r } = exec (.st32Cmd w) s

/-- R253, R251: a command that ends with `BAD_CMD`, `BAD_INDEX`, `BAD_OPERAND`, `INVALID` or `CHECKSUM_MISMATCH` changes
nothing but `RES` and `ERR`, and leaves `RES` 0. -/
def Obligations.FailedCommandChangesOnlyTheResult : Prop :=
  ∀ (w : Word) (s t : State), exec (.st32Cmd w) s = .next t → 1 ≤ t.err.toNat → t.err.toNat ≤ 5 →
    t = { s with err := t.err, res := 0#32 }

/-- R254: decoding is checked first, then the index, then the operand (the spec's example words and V-DC-5 to V-DC-7). -/
def Obligations.StatusesAreReportedInOrder : Prop :=
  ∀ s : State,
    exec (.st32Cmd 0x01090001#32) s = .next { s with err := 0x01#8, res := 0#32 } ∧
    exec (.st32Cmd 0x01090000#32) s = .next { s with err := 0x02#8, res := 0#32 } ∧
    exec (.st32Cmd 0x01040000#32) s = .next { s with err := 0x03#8, res := 0#32 } ∧
    exec (.st32Cmd 0x20013E00#32) s = .next { s with err := 0x01#8, res := 0#32 } ∧
    exec (.st32Cmd 0x20003E00#32) s = .next { s with err := 0x04#8, res := 0#32 }

/-! ## Rings -/

/-- R132: every `RB_*` command with a ring index of N_RINGS or more leaves `BAD_INDEX` and 0 and changes nothing else. -/
def Obligations.RingIndexIsChecked : Prop :=
  ∀ (r n : Byte) (s : State), Config.nRings ≤ r.toNat →
    ∀ i ∈ [Instr.rbInit r n, .rbEnq r n, .rbDeq r n, .rbIsEmpty r, .rbIsFull r, .rbCount r, .rbCap r],
      exec i s = .next { s with err := 0x02#8, res := 0#32 }

/-- R125: `RB_INIT` empties the ring and sets its capacity, or leaves `BAD_OPERAND` for a capacity of 0 or over CAP_MAX;
port flags, the ring's storage and everything else are unchanged. -/
def Obligations.RbInitEmptiesTheRing : Prop :=
  ∀ (r cap : Byte) (s : State),
    (∀ i : Fin Config.nRings, r.toNat = i.val → exec (.rbInit r cap) s = .next
      (if cap.toNat = 0 ∨ Config.capMax < cap.toNat then { s with err := 0x03#8, res := 0#32 }
       else { s.setRing i { cap := cap, head := 0#8, tail := 0#8, count := 0#8, mem := (s.ring i).mem } with
              err := 0x00#8, res := 0#32 })) ∧
    (Config.nRings ≤ r.toNat → exec (.rbInit r cap) s = .next { s with err := 0x02#8, res := 0#32 })

/-- R126, R121: `RB_ENQ` appends to the ring the longest prefix of `DBUF[0 .. n-1]` that fits, reports its length in `RES`,
and `QUEUE_OVERFLOW` when bytes were dropped. Nothing else changes: no flag, not `DBUF`, no other ring, and in the ring's
storage only the slots stored to. -/
def Obligations.RbEnqStoresThePrefixThatFits : Prop :=
  ∀ (r n : Byte) (s : State) (i : Fin Config.nRings), r.toNat = i.val → (s.ring i).Ok →
    ∃ t, exec (.rbEnq r n) s = .next t ∧
      let w := min n.toNat ((s.ring i).cap.toNat - (s.ring i).count.toNat)
      t.stored i = s.stored i ++ (s.firstBytes n.toNat).take w ∧
      ((t.ring i).cap = (s.ring i).cap ∧ (t.ring i).head = (s.ring i).head ∧
        (t.ring i).count.toNat = (s.ring i).count.toNat + w ∧
        (t.ring i).tail.toNat = (s.ring i).slot ((s.ring i).count.toNat + w)) ∧
      (∀ a, (∀ k < w, a ≠ (s.ring i).slot ((s.ring i).count.toNat + k)) →
        Mem.read? (t.ring i).mem a = Mem.read? (s.ring i).mem a) ∧
      (∀ j, j ≠ i → t.ring j = s.ring j) ∧
      t = { s with
            rings := t.rings
            err := if w < n.toNat then 0x06#8 else 0x00#8
            res := BitVec.ofNat 32 w }

/-- R127, R122: `RB_DEQ` removes the oldest bytes of the ring, at most `n`, into `DBUF[0 .. m-1]` and reports how many.
Nothing else changes: no flag, no other ring, no other byte of `DBUF`. -/
def Obligations.RbDeqReturnsTheOldestBytes : Prop :=
  ∀ (r n : Byte) (s : State) (i : Fin Config.nRings), r.toNat = i.val → (s.ring i).Ok →
    ∃ t, exec (.rbDeq r n) s = .next t ∧
      let m := min n.toNat (s.ring i).count.toNat
      (∀ a < m, some (t.dbufByte a) = (s.stored i)[a]?) ∧
      (∀ a, m ≤ a → t.dbufByte a = s.dbufByte a) ∧
      t.stored i = (s.stored i).drop m ∧
      ((t.ring i).cap = (s.ring i).cap ∧ (t.ring i).tail = (s.ring i).tail ∧ (t.ring i).mem = (s.ring i).mem ∧
        (t.ring i).count.toNat = (s.ring i).count.toNat - m ∧ (t.ring i).head.toNat = (s.ring i).slot m) ∧
      (∀ j, j ≠ i → t.ring j = s.ring j) ∧
      t = { s with rings := t.rings, dbuf := t.dbuf, err := 0x00#8, res := BitVec.ofNat 32 m }

/-- R124, R128 to R131: the four queries answer from the ring's `count` and `cap`, and change nothing but `RES` and `ERR`;
a bad index is reported. -/
def Obligations.RingQueriesReportCountAndCapacity : Prop :=
  ∀ (r : Byte) (s : State),
    (∀ i : Fin Config.nRings, r.toNat = i.val →
      exec (.rbIsEmpty r) s = .next { s with err := 0x00#8, res := if (s.ring i).count = 0#8 then 1#32 else 0#32 } ∧
      exec (.rbIsFull r) s =
        .next { s with err := 0x00#8, res := if (s.ring i).count = (s.ring i).cap then 1#32 else 0#32 } ∧
      exec (.rbCount r) s = .next { s with err := 0x00#8, res := BitVec.ofNat 32 (s.ring i).count.toNat } ∧
      exec (.rbCap r) s = .next { s with err := 0x00#8, res := BitVec.ofNat 32 (s.ring i).cap.toNat }) ∧
    (Config.nRings ≤ r.toNat → ∀ q ∈ [Instr.rbIsEmpty r, .rbIsFull r, .rbCount r, .rbCap r],
      exec q s = .next { s with err := 0x02#8, res := 0#32 })

/-- R133: over any uses of one ring since it was empty, the bytes returned followed by those still stored are exactly the
bytes accepted, in order; so the returned bytes are a prefix of the accepted ones, and no more is accepted than asked. -/
def Obligations.RingIsAFifo : Prop :=
  ∀ (free : Nat → Byte) (g : Ring) (uses : List RingUse), g.Ok → g.count = 0#8 →
    (g.run free uses).returned ++ (g.run free uses).ring.stored free = (g.run free uses).accepted ∧
    (g.run free uses).accepted.length ≤ (g.run free uses).requested.length

/-- R44, R281: what a ring's storage holds at reset is never observable: no removal depends on it. -/
def Obligations.RingStorageAtResetIsUnobservable : Prop :=
  ∀ (free free' : Nat → Byte) (g : Ring) (n : Nat), g.Ok → g.deq free n = g.deq free' n

/-! ## Serial transport -/

/-- R162: `SER_WRITE`, `SER_READ` and `PKT_SEND` with a port index of N_PORTS or more leave `BAD_INDEX` and 0 and change
nothing else. -/
def Obligations.PortIndexIsChecked : Prop :=
  ∀ (p n : Byte) (s : State), Config.nPorts ≤ p.toNat →
    ∀ i ∈ [Instr.serWrite p n, .serRead p n, .pktSend p], exec i s = .next { s with err := 0x02#8, res := 0#32 }

/-- R152: `SER_WRITE` appends to the port's TX ring the prefix of `DBUF[0 .. n-1]` that fits, leaves the port `Transmitting`
if it stored a byte, and reports the count. Nothing else changes, and in the ring's storage only the slots stored to. -/
def Obligations.SerWriteStoresAndArms : Prop :=
  ∀ (p n : Byte) (s : State) (q : Fin Config.nPorts), p.toNat = q.val → (s.ring (txRing q)).Ok →
    ∃ t, exec (.serWrite p n) s = .next t ∧
      let w := min n.toNat ((s.ring (txRing q)).cap.toNat - (s.ring (txRing q)).count.toNat)
      t.stored (txRing q) = s.stored (txRing q) ++ (s.firstBytes n.toNat).take w ∧
      ((t.ring (txRing q)).cap = (s.ring (txRing q)).cap ∧ (t.ring (txRing q)).head = (s.ring (txRing q)).head ∧
        (t.ring (txRing q)).count.toNat = (s.ring (txRing q)).count.toNat + w ∧
        (t.ring (txRing q)).tail.toNat = (s.ring (txRing q)).slot ((s.ring (txRing q)).count.toNat + w)) ∧
      (∀ a, (∀ k < w, a ≠ (s.ring (txRing q)).slot ((s.ring (txRing q)).count.toNat + k)) →
        Mem.read? (t.ring (txRing q)).mem a = Mem.read? (s.ring (txRing q)).mem a) ∧
      t.port q = { s.port q with txbusy := (s.port q).txbusy || decide (1 ≤ w) } ∧
      (∀ j, j ≠ txRing q → t.ring j = s.ring j) ∧
      (∀ q', q' ≠ q → t.port q' = s.port q') ∧
      t = { s with
            rings := t.rings
            ports := t.ports
            err := if w < n.toNat then 0x06#8 else 0x00#8
            res := BitVec.ofNat 32 w }

/-- R153: `SER_READ` removes the oldest bytes of the port's RX ring, at most `n`, into `DBUF[0 .. m-1]`. Nothing else
changes, `RXOVF[p]` among it. -/
def Obligations.SerReadReturnsTheOldestBytes : Prop :=
  ∀ (p n : Byte) (s : State) (q : Fin Config.nPorts), p.toNat = q.val → (s.ring (rxRing q)).Ok →
    ∃ t, exec (.serRead p n) s = .next t ∧
      let m := min n.toNat (s.ring (rxRing q)).count.toNat
      (∀ a < m, some (t.dbufByte a) = (s.stored (rxRing q))[a]?) ∧
      (∀ a, m ≤ a → t.dbufByte a = s.dbufByte a) ∧
      t.stored (rxRing q) = (s.stored (rxRing q)).drop m ∧
      ((t.ring (rxRing q)).cap = (s.ring (rxRing q)).cap ∧ (t.ring (rxRing q)).tail = (s.ring (rxRing q)).tail ∧
        (t.ring (rxRing q)).mem = (s.ring (rxRing q)).mem ∧
        (t.ring (rxRing q)).count.toNat = (s.ring (rxRing q)).count.toNat - m ∧
        (t.ring (rxRing q)).head.toNat = (s.ring (rxRing q)).slot m) ∧
      (∀ j, j ≠ rxRing q → t.ring j = s.ring j) ∧
      t = { s with rings := t.rings, dbuf := t.dbuf, err := 0x00#8, res := BitVec.ofNat 32 m }

/-- R156, R158: `EV_RX p, b` always has a step: it appends the byte to the port's RX ring, or drops it and sets `RXOVF[p]`
when the ring is full. `RES`, `ERR` and everything else are unchanged, and in the ring's storage all but the slot stored
to. -/
def Obligations.ReceivedByteIsStoredOrFlagged : Prop :=
  ∀ (p : BitVec 4) (b : Byte) (s : State) (q : Fin Config.nPorts), p.toNat = q.val → (s.ring (rxRing q)).Ok →
    ∃ t, exec (.evRx p b) s = .next t ∧
      (if (s.ring (rxRing q)).count = (s.ring (rxRing q)).cap then
        t.ring (rxRing q) = s.ring (rxRing q) ∧ t.port q = { s.port q with rxovf := true }
       else
        t.stored (rxRing q) = s.stored (rxRing q) ++ [b] ∧ (t.ring (rxRing q)).cap = (s.ring (rxRing q)).cap ∧
          (t.ring (rxRing q)).head = (s.ring (rxRing q)).head ∧
          (t.ring (rxRing q)).count.toNat = (s.ring (rxRing q)).count.toNat + 1 ∧
          (t.ring (rxRing q)).tail.toNat = (s.ring (rxRing q)).slot ((s.ring (rxRing q)).count.toNat + 1) ∧
          (∀ a, a ≠ (s.ring (rxRing q)).slot (s.ring (rxRing q)).count.toNat →
            Mem.read? (t.ring (rxRing q)).mem a = Mem.read? (s.ring (rxRing q)).mem a) ∧
          t.port q = s.port q) ∧
      (∀ j, j ≠ rxRing q → t.ring j = s.ring j) ∧
      (∀ q', q' ≠ q → t.port q' = s.port q') ∧
      t = { s with rings := t.rings, ports := t.ports }

/-- R155: `EV_TXRDY p` while armed emits the oldest byte of the TX ring and disarms when that empties it; on a ring that is
already empty it emits nothing and disarms. `RES`, `ERR` and everything else are unchanged. -/
def Obligations.TransmitEventEmitsTheOldestByte : Prop :=
  ∀ (p : BitVec 4) (s : State) (q : Fin Config.nPorts), p.toNat = q.val → (s.port q).txbusy = true →
    (s.ring (txRing q)).Ok →
    ∃ t, exec (.evTxrdy p) s = .next t ∧
      (match s.stored (txRing q) with
       | [] => t.ring (txRing q) = s.ring (txRing q) ∧ t.port q = { s.port q with txbusy := false }
       | b :: rest =>
         t.stored (txRing q) = rest ∧
         ((t.ring (txRing q)).cap = (s.ring (txRing q)).cap ∧ (t.ring (txRing q)).tail = (s.ring (txRing q)).tail ∧
           (t.ring (txRing q)).mem = (s.ring (txRing q)).mem ∧
           (t.ring (txRing q)).count.toNat = (s.ring (txRing q)).count.toNat - 1 ∧
           (t.ring (txRing q)).head.toNat = (s.ring (txRing q)).slot 1) ∧
         t.port q = { s.port q with txbusy := !rest.isEmpty, lineOut := (s.port q).lineOut ++ [b] }) ∧
      (∀ j, j ≠ txRing q → t.ring j = s.ring j) ∧
      (∀ q', q' ≠ q → t.port q' = s.port q') ∧
      t = { s with rings := t.rings, ports := t.ports }

/-- R154: while `TXBUSY[p] = 0` the event `EV_TXRDY p` has no step. That it is a fault under a name of its own is the
model's form of `stuck` (93 I11; log entry 8). -/
def Obligations.TransmitEventNeedsArming : Prop :=
  ∀ (p : BitVec 4) (s : State) (q : Fin Config.nPorts), p.toNat = q.val → (s.port q).txbusy = false →
    exec (.evTxrdy p) s = .fault (.txrdyNotEnabled p.toNat)

/-- R161: while the host applies no `RB_ENQ`, `RB_DEQ` or `RB_INIT` to a port's TX ring, every step keeps `TXBUSY[p] = 1`
exactly when that ring holds a byte. -/
def Obligations.StepKeepsPortsSynchronised : Prop :=
  ∀ (s t : State) (p : Fin Config.nPorts), s.Inv → s.TxSynced p →
    (∀ (o : Operation) (rest : List Input) (i : Instr), s.pending = .op o :: rest → decode o = .instr i →
      sparesRing (txRing p) i = true) →
    step s = .next t → t.TxSynced p

/-- R151, R155, R159: an armed port asked for a byte as often as its TX ring holds bytes emits exactly the stored bytes, in
order, and is then `Idle` with an empty ring. -/
def Obligations.DrainingEmitsEveryStoredByte : Prop :=
  ∀ (s : State) (p : Fin Config.nPorts) (rest : List Input), (s.ring (txRing p)).Ok → s.inReset = false →
    (s.port p).txbusy = true → 0 < (s.ring (txRing p)).count.toNat →
    s.pending = List.replicate (s.ring (txRing p)).count.toNat (.op (.event (txrdyWord p))) ++ rest →
    ∃ t : State, Host.Core.run Sys2Proof.core (s.ring (txRing p)).count.toNat s = .next t ∧
      (t.port p).lineOut = (s.port p).lineOut ++ s.stored (txRing p) ∧
      (t.port p).txbusy = false ∧ (t.port p).rxovf = (s.port p).rxovf ∧
      t.stored (txRing p) = [] ∧
      (∀ j, j ≠ txRing p → t.ring j = s.ring j) ∧ (∀ q, q ≠ p → t.port q = s.port q) ∧
      t = { s with rings := t.rings, ports := t.ports, pending := rest }

/-- R150: no operation on a port reads or writes the state of another: replacing the other port's bits and rings first, or
after, is the same. -/
def Obligations.PortsAreIndependent : Prop :=
  ∀ (p q : Fin Config.nPorts) (n : Byte) (v : Word) (s : State) (bits : Port) (tx rx : Ring), p ≠ q →
    ∀ i ∈ [Instr.serWrite (BitVec.ofNat 8 p.val) n, .serRead (BitVec.ofNat 8 p.val) n, .pktSend (BitVec.ofNat 8 p.val),
        .evRx (BitVec.ofNat 4 p.val) n, .evTxrdy (BitVec.ofNat 4 p.val), .ld32Pstat (BitVec.ofNat 3 p.val),
        .st32Pstat (BitVec.ofNat 3 p.val) v],
      exec i (s.replacePort q bits tx rx) = mapNext (fun t => t.replacePort q bits tx rx) (exec i s)

/-- R257: two events of different ports, or an event and a tick, commute. -/
def Obligations.EventsApartCommute : Prop :=
  ∀ (a b : Event) (s t u : State), a.apart b → exec a.instr s = .next t → exec b.instr t = .next u →
    execAll [b.instr, a.instr] s = .next u

/-! ## Packets -/

/-- R184, R181, R183: `PKT_ENCODE` leaves the frame of its type and payload at `DBUF[0 .. 62]`, or `INVALID` for a payload
over 61 bytes. Nothing else changes, `CKACC` and the rest of `DBUF` among it. -/
def Obligations.PktEncodeFramesThePayload : Prop :=
  ∀ (n ty : Byte) (s : State),
    (n.toNat ≤ 61 → ∃ t, exec (.pktEncode n ty) s = .next t ∧ FramedAt s t 0 ty n.toNat ∧
      (∀ a, 63 ≤ a → t.dbufByte a = s.dbufByte a) ∧
      t = { s with dbuf := t.dbuf, err := 0x00#8, res := 63#32 }) ∧
    (61 < n.toNat → exec (.pktEncode n ty) s = .next { s with err := 0x04#8, res := 0#32 })

/-- R185, R182: `PKT_ENVELOPE` leaves `DEST`, `CHAN` and the frame at `DBUF[0 .. 65]`, or `INVALID`. Nothing else
changes. -/
def Obligations.PktEnvelopeAddressesTheFrame : Prop :=
  ∀ (n ty : Byte) (s : State),
    (n.toNat ≤ 61 → ∃ t, exec (.pktEnvelope n ty) s = .next t ∧
      (t.dbufByte 0).toNat = s.dest.toNat / 256 ∧ (t.dbufByte 1).toNat = s.dest.toNat % 256 ∧
      t.dbufByte 2 = s.chan ∧ FramedAt s t 3 ty n.toNat ∧
      (∀ a, 66 ≤ a → t.dbufByte a = s.dbufByte a) ∧
      t = { s with dbuf := t.dbuf, err := 0x00#8, res := 66#32 }) ∧
    (61 < n.toNat → exec (.pktEnvelope n ty) s = .next { s with err := 0x04#8, res := 0#32 })

/-- R186: `PKT_ROUTE` leaves an envelope to 0xFFFF, channel 0x00, of type `TYPE_ROUTE`, whatever `DEST` and `CHAN` hold, or
`INVALID`. Nothing else changes, `DEST` and `CHAN` among it. -/
def Obligations.PktRouteBroadcasts : Prop :=
  ∀ (n : Byte) (s : State),
    (n.toNat ≤ 61 → ∃ t, exec (.pktRoute n) s = .next t ∧
      t.dbufByte 0 = 0xFF#8 ∧ t.dbufByte 1 = 0xFF#8 ∧ t.dbufByte 2 = 0x00#8 ∧
      FramedAt s t 3 Config.typeRoute n.toNat ∧
      (∀ a, 66 ≤ a → t.dbufByte a = s.dbufByte a) ∧
      t = { s with dbuf := t.dbuf, err := 0x00#8, res := 66#32 }) ∧
    (61 < n.toNat → exec (.pktRoute n) s = .next { s with err := 0x04#8, res := 0#32 })

/-- R187: `PKT_DECODE` compares the checksum of the 62 bytes at `DBUF[off ..]` with the byte after them; on agreement it
records the type, on mismatch it only reports; an offset over 193 is `BAD_OPERAND`. `DBUF` is never changed. -/
def Obligations.PktDecodeChecksTheFrame : Prop :=
  ∀ (off : Byte) (s : State), exec (.pktDecode off) s = .next
    (if 193 < off.toNat then { s with err := 0x03#8, res := 0#32 }
     else if ckWith Config.checksumKind ((List.range 62).map (fun k => s.dbufByte (off.toNat + k))) =
         s.dbufByte (off.toNat + 62) then
       { s with rtype := s.dbufByte off.toNat, err := 0x00#8, res := 61#32 }
     else { s with err := 0x05#8, res := 0#32 })

/-- R188: a frame that `PKT_ENCODE` made decodes with its type, its payload, and zeros after it. -/
def Obligations.EncodedFrameDecodes : Prop :=
  ∀ (n ty : Byte) (s : State), n.toNat ≤ 61 →
    ∃ t, execAll [.pktEncode n ty, .pktDecode 0x00#8] s = .next t ∧
      t.err = 0x00#8 ∧ t.res = 61#32 ∧ t.rtype = ty ∧
      (∀ k < n.toNat, t.dbufByte (1 + k) = s.dbufByte k) ∧
      (∀ k, n.toNat ≤ k → k < 61 → t.dbufByte (1 + k) = 0x00#8)

/-- R194: changing any one byte of a frame that decodes `OK` to another value makes `PKT_DECODE` report
`CHECKSUM_MISMATCH`. -/
def Obligations.SingleByteChangeIsDetected : Prop :=
  ∀ (off v : Byte) (k : Nat) (s t : State), off.toNat ≤ 193 → k < 63 →
    exec (.pktDecode off) s = .next t → t.err = 0x00#8 → v ≠ s.dbufByte (off.toNat + k) →
    ∃ u, execAll [.st8Dbuf (BitVec.ofNat 8 (off.toNat + k)) v, .pktDecode off] s = .next u ∧
      u.err = 0x05#8 ∧ u.res = 0#32 ∧ u.rtype = s.rtype

/-- R191, R190: `PKT_SEND` hands `DBUF[W .. 65]` to the port's transmitter as `SER_WRITE` does: the prefix that fits is
appended to the TX ring, the port armed if a byte was stored, the count reported. Nothing else changes, and in the ring's
storage only the slots stored to. -/
def Obligations.PktSendHandsOverTheRadioWindow : Prop :=
  ∀ (p : Byte) (s : State) (q : Fin Config.nPorts), p.toNat = q.val → (s.ring (txRing q)).Ok →
    ∃ t, exec (.pktSend p) s = .next t ∧
      let window := (s.firstBytes 66).drop Config.radioWindowOffset.val
      let w := min window.length ((s.ring (txRing q)).cap.toNat - (s.ring (txRing q)).count.toNat)
      t.stored (txRing q) = s.stored (txRing q) ++ window.take w ∧
      ((t.ring (txRing q)).cap = (s.ring (txRing q)).cap ∧ (t.ring (txRing q)).head = (s.ring (txRing q)).head ∧
        (t.ring (txRing q)).count.toNat = (s.ring (txRing q)).count.toNat + w ∧
        (t.ring (txRing q)).tail.toNat = (s.ring (txRing q)).slot ((s.ring (txRing q)).count.toNat + w)) ∧
      (∀ a, (∀ k < w, a ≠ (s.ring (txRing q)).slot ((s.ring (txRing q)).count.toNat + k)) →
        Mem.read? (t.ring (txRing q)).mem a = Mem.read? (s.ring (txRing q)).mem a) ∧
      t.port q = { s.port q with txbusy := (s.port q).txbusy || decide (1 ≤ w) } ∧
      (∀ j, j ≠ txRing q → t.ring j = s.ring j) ∧
      (∀ q', q' ≠ q → t.port q' = s.port q') ∧
      t = { s with
            rings := t.rings
            ports := t.ports
            err := if w < window.length then 0x06#8 else 0x00#8
            res := BitVec.ofNat 32 w }

/-- R288, R191: where `RB_CAP` less `RB_COUNT` of the TX ring is at least `66 - W`, `PKT_SEND` sends the whole window and
reports `OK`. -/
def Obligations.RoomCheckedSendIsWhole : Prop :=
  ∀ (p : Byte) (s : State) (q : Fin Config.nPorts), p.toNat = q.val → (s.ring (txRing q)).Ok →
    66 - Config.radioWindowOffset.val ≤ (s.ring (txRing q)).cap.toNat - (s.ring (txRing q)).count.toNat →
    ∃ t, exec (.pktSend p) s = .next t ∧ t.err = 0x00#8 ∧
      t.res.toNat = 66 - Config.radioWindowOffset.val ∧ (t.port q).txbusy = true ∧
      t.stored (txRing q) = s.stored (txRing q) ++ (s.firstBytes 66).drop Config.radioWindowOffset.val

/-! ## Checksum -/

/-- R210, R212, R213, R214: the accumulator commands, by the block's checksum kind; each returns the new `CKACC` and
changes nothing else. -/
def Obligations.ChecksumCommandsUpdateTheAccumulator : Prop :=
  ∀ (b n : Byte) (s : State),
    exec .ckClear s = .next { s with ckacc := 0x00#8, err := 0x00#8, res := 0#32 } ∧
    (match Config.checksumKind with
     | .add8 =>
       exec (.ckByte b) s =
         .next { s with ckacc := s.ckacc + b, err := 0x00#8, res := BitVec.ofNat 32 (s.ckacc + b).toNat } ∧
       exec (.ckBuf n) s =
         .next { s with
                 ckacc := (s.firstBytes n.toNat).foldl (fun a c => a + c) s.ckacc
                 err := 0x00#8
                 res := BitVec.ofNat 32 ((s.firstBytes n.toNat).foldl (fun a c => a + c) s.ckacc).toNat }
     | .xor8 =>
       exec (.ckByte b) s =
         .next { s with ckacc := s.ckacc ^^^ b, err := 0x00#8, res := BitVec.ofNat 32 (s.ckacc ^^^ b).toNat } ∧
       exec (.ckBuf n) s =
         .next { s with
                 ckacc := (s.firstBytes n.toNat).foldl (fun a c => a ^^^ c) s.ckacc
                 err := 0x00#8
                 res := BitVec.ofNat 32 ((s.firstBytes n.toNat).foldl (fun a c => a ^^^ c) s.ckacc).toNat })

/-- R217: clearing the accumulator and feeding it bytes, from `DBUF` or one at a time, leaves their checksum in it. -/
def Obligations.AccumulatorHoldsTheChecksum : Prop :=
  (∀ (n : Byte) (s : State), ∃ t, execAll [.ckClear, .ckBuf n] s = .next t ∧
    t.ckacc = ckWith Config.checksumKind (s.firstBytes n.toNat)) ∧
  ∀ (l : List Byte) (s : State), ∃ t, execAll (.ckClear :: l.map .ckByte) s = .next t ∧
    t.ckacc = ckWith Config.checksumKind l

/-- R216: under either kind zero padding does not change a checksum, and neither does the order of the bytes. -/
def Obligations.ChecksumIgnoresPaddingAndOrder : Prop :=
  ∀ (k : ChecksumKind) (l l' : List Byte) (j : Nat),
    ckWith k (l ++ List.replicate j 0x00#8) = ckWith k l ∧ (l.Perm l' → ckWith k l = ckWith k l')

/-! ## Timer flags -/

/-- R231, R232: each tick sets its own flag, keeps the other, and changes nothing else. -/
def Obligations.TicksSetTheirFlag : Prop :=
  ∀ s : State,
    (∃ t, exec .evTick2ms s = .next t ∧ t.tflag.getLsbD 0 = true ∧ t.tflag.getLsbD 1 = s.tflag.getLsbD 1 ∧
      t = { s with tflag := t.tflag }) ∧
    (∃ t, exec .evTick1s s = .next t ∧ t.tflag.getLsbD 1 = true ∧ t.tflag.getLsbD 0 = s.tflag.getLsbD 0 ∧
      t = { s with tflag := t.tflag })

/-- R233, R234: a read of `TFLAG` returns it and clears nothing; a write clears each flag whose bit it writes as 1, keeps
the others, and changes nothing else. -/
def Obligations.TflagIsWriteOneToClear : Prop :=
  ∀ (v : Word) (s : State),
    exec .ld32Tflag s = .next { s with busReads := s.busReads ++ [BitVec.ofNat 32 s.tflag.toNat] } ∧
    ∃ t, exec (.st32Tflag v) s = .next t ∧
      t.tflag.getLsbD 0 = (s.tflag.getLsbD 0 && !v.getLsbD 0) ∧
      t.tflag.getLsbD 1 = (s.tflag.getLsbD 1 && !v.getLsbD 1) ∧
      t = { s with tflag := t.tflag }

/-- R235, R237: a second tick before a clear is no different from the first; a clear after a tick erases it, a tick after a
clear is kept. -/
def Obligations.TicksCoalesce : Prop :=
  ∀ s : State,
    (∀ i ∈ [Instr.evTick2ms, .evTick1s], execAll [i, i] s = exec i s) ∧
    execAll [.evTick2ms, .st32Tflag 1#32] s = exec (.st32Tflag 1#32) s ∧
    execAll [.st32Tflag 1#32, .evTick2ms] s = exec .evTick2ms s ∧
    execAll [.evTick1s, .st32Tflag 2#32] s = exec (.st32Tflag 2#32) s ∧
    execAll [.st32Tflag 2#32, .evTick1s] s = exec .evTick1s s

/-! ## Bus accesses -/

/-- R39, R35, R36: a read of `CMD` returns 0, of `RES`, `ERR`, `CKACC`, `RTYPE`, `CFG` or `CFG2` its value, the constants as
their fields; a read changes no state of the block. -/
def Obligations.RegisterReadsReturnTheirValue : Prop :=
  ∀ s : State,
    exec .ld32Cmd s = .next { s with busReads := s.busReads ++ [0#32] } ∧
    exec .ld32Res s = .next { s with busReads := s.busReads ++ [s.res] } ∧
    exec .ld32Err s = .next { s with busReads := s.busReads ++ [BitVec.ofNat 32 s.err.toNat] } ∧
    exec .ld32Ckacc s = .next { s with busReads := s.busReads ++ [BitVec.ofNat 32 s.ckacc.toNat] } ∧
    exec .ld32Rtype s = .next { s with busReads := s.busReads ++ [BitVec.ofNat 32 s.rtype.toNat] } ∧
    exec .ld32Cfg s = .next { s with busReads := s.busReads ++
      [BitVec.ofNat 32 (Config.capMax + 2 ^ 8 * Config.nPorts + 2 ^ 12 * Config.nAuxRings +
        2 ^ 16 * (match Config.checksumKind with | .add8 => 0 | .xor8 => 1) +
        2 ^ 17 * Config.radioWindowOffset.val)] } ∧
    exec .ld32Cfg2 s = .next { s with busReads := s.busReads ++
      [BitVec.ofNat 32 (Config.typeData.toNat + 2 ^ 8 * Config.typeRoute.toNat + 2 ^ 16 * Config.payloadMax)] }

/-- R39: a write to `RES`, `ERR`, `CKACC`, `RTYPE`, `CFG` or `CFG2` is ignored. -/
def Obligations.WritesToReadOnlyRegistersAreIgnored : Prop :=
  ∀ (v : Word) (s : State),
    ∀ i ∈ [Instr.st32Res v, .st32Err v, .st32Ckacc v, .st32Rtype v, .st32Cfg v, .st32Cfg2 v], exec i s = .next s

/-- R40, R41: `DEST` takes the low 16 bits and `CHAN` the low 8 bits of a write, and a read returns them zero-extended. -/
def Obligations.DestAndChanHoldTheirFields : Prop :=
  ∀ (v : Word) (s : State),
    exec (.st32Dest v) s = .next { s with dest := BitVec.ofNat 16 v.toNat } ∧
    exec .ld32Dest s = .next { s with busReads := s.busReads ++ [BitVec.ofNat 32 s.dest.toNat] } ∧
    exec (.st32Chan v) s = .next { s with chan := BitVec.ofNat 8 v.toNat } ∧
    exec .ld32Chan s = .next { s with busReads := s.busReads ++ [BitVec.ofNat 32 s.chan.toNat] }

/-- R163, R164: a read of `PSTAT[p]` returns `RXOVF[p]` and `TXBUSY[p]`; a write with bit 1 set clears `RXOVF[p]` and
changes nothing else. -/
def Obligations.PortStatusReadsAndClears : Prop :=
  ∀ (p : BitVec 3) (v : Word) (s : State) (q : Fin Config.nPorts), p.toNat = q.val →
    exec (.ld32Pstat p) s = .next { s with busReads := s.busReads ++
      [BitVec.ofNat 32 (2 * (s.port q).rxovf.toNat + (s.port q).txbusy.toNat)] } ∧
    exec (.st32Pstat p v) s = .next
      (if v.getLsbD 1 = true then s.setPort q { s.port q with rxovf := false } else s)

/-- R64, R37, R61: an aligned 32-bit access to an offset below 0x100 that holds no register reads 0 or is ignored, and
changes nothing; no bus error. -/
def Obligations.ReservedOffsetsReadZero : Prop :=
  ∀ (off : BitVec 9) (v : Word) (s : State), off.toNat < 0x100 → off.toNat % 4 = 0 → 0x028 ≤ off.toNat →
    (off.toNat < 0x040 ∨ 0x040 + 4 * Config.nPorts ≤ off.toNat) →
    (operate (.access off 4 .read) s = .next { s with busReads := s.busReads ++ [0#32] } ∧
      exec (.reservedOffset off .read) s = .next { s with busReads := s.busReads ++ [0#32] }) ∧
    (operate (.access off 4 (.write v)) s = .next s ∧ exec (.reservedOffset off (.write v)) s = .next s)

/-- R62, R63, R252: an access of a width other than 1, 2 or 4 bytes, a misaligned access, and an 8- or 16-bit access below
0x100 get a bus error at their address; there is no next state. -/
def Obligations.RefusedAccessIsABusError : Prop :=
  ∀ (off : BitVec 9) (width : Nat) (dir : Dir) (s : State),
    (width ∉ [1, 2, 4] ∨ off.toNat % width ≠ 0 ∨ (off.toNat < 0x100 ∧ width ≠ 4)) →
    operate (.access off width dir) s = .fault (.busError (Config.base + off.toNat)) ∧
    exec (.badAccess off width dir) s = .fault (.busError (Config.base + off.toNat))

/-- R66, R65: an aligned read of `DBUF` returns its bytes, the lowest address in the lowest bits, zero-extended, and
changes no state of the block. -/
def Obligations.DbufReadsAreLittleEndian : Prop :=
  ∀ (i : Byte) (s : State),
    exec (.ld8Dbuf i) s = .next { s with busReads := s.busReads ++ [BitVec.ofNat 32 (s.dbufByte i.toNat).toNat] } ∧
    (i.toNat % 2 = 0 → exec (.ld16Dbuf i) s = .next { s with busReads := s.busReads ++
      [BitVec.ofNat 32 ((s.dbufByte i.toNat).toNat + 2 ^ 8 * (s.dbufByte (i.toNat + 1)).toNat)] }) ∧
    (i.toNat % 4 = 0 → exec (.ld32Dbuf i) s = .next { s with busReads := s.busReads ++
      [BitVec.ofNat 32 ((s.dbufByte i.toNat).toNat + 2 ^ 8 * (s.dbufByte (i.toNat + 1)).toNat +
        2 ^ 16 * (s.dbufByte (i.toNat + 2)).toNat + 2 ^ 24 * (s.dbufByte (i.toNat + 3)).toNat)] })

/-- R67, R65: an aligned write of `n` bytes to `DBUF` sets byte `k` of the value at the `k`-th address and changes nothing
else. -/
def Obligations.DbufWritesAreLittleEndian : Prop :=
  ∀ (i v8 : Byte) (v16 : Half) (v32 : Word) (s : State),
    (∃ t, exec (.st8Dbuf i v8) s = .next t ∧ t = { s with dbuf := t.dbuf } ∧
      ∀ a, t.dbufByte a = if a = i.toNat then v8 else s.dbufByte a) ∧
    (i.toNat % 2 = 0 → ∃ t, exec (.st16Dbuf i v16) s = .next t ∧ t = { s with dbuf := t.dbuf } ∧
      ∀ a, t.dbufByte a =
        if i.toNat ≤ a ∧ a < i.toNat + 2 then BitVec.ofNat 8 (v16.toNat / 2 ^ (8 * (a - i.toNat))) else s.dbufByte a) ∧
    (i.toNat % 4 = 0 → ∃ t, exec (.st32Dbuf i v32) s = .next t ∧ t = { s with dbuf := t.dbuf } ∧
      ∀ a, t.dbufByte a =
        if i.toNat ≤ a ∧ a < i.toNat + 4 then BitVec.ofNat 8 (v32.toNat / 2 ^ (8 * (a - i.toNat))) else s.dbufByte a)

/-- R79: accesses of different widths see one byte array: the four bytes of a 32-bit write come back by 8-bit reads, lowest
first, and the two halves by 16-bit reads; four 8-bit writes come back as one 32-bit read. -/
def Obligations.MixedWidthAccessesSeeOneByteArray : Prop :=
  ∀ (i : Byte) (v : Word) (s : State), i.toNat % 4 = 0 →
    (∃ t, execAll [.st32Dbuf i v, .ld8Dbuf i, .ld8Dbuf (i + 1), .ld8Dbuf (i + 2), .ld8Dbuf (i + 3), .ld16Dbuf i,
        .ld16Dbuf (i + 2)] s = .next t ∧
      t.busReads = s.busReads ++ [BitVec.ofNat 32 (v.toNat % 2 ^ 8), BitVec.ofNat 32 (v.toNat / 2 ^ 8 % 2 ^ 8),
        BitVec.ofNat 32 (v.toNat / 2 ^ 16 % 2 ^ 8), BitVec.ofNat 32 (v.toNat / 2 ^ 24),
        BitVec.ofNat 32 (v.toNat % 2 ^ 16), BitVec.ofNat 32 (v.toNat / 2 ^ 16)]) ∧
    (∃ t, execAll [.st8Dbuf (i + 3) (v.extractLsb' 24 8), .st8Dbuf i (v.extractLsb' 0 8),
        .st8Dbuf (i + 2) (v.extractLsb' 16 8), .st8Dbuf (i + 1) (v.extractLsb' 8 8), .ld32Dbuf i] s = .next t ∧
      t.busReads = s.busReads ++ [v])

/-- R68: no read anywhere in the window has a side effect: every read that the block does not refuse returns one value and
leaves the block's state as it was. -/
def Obligations.ReadsHaveNoSideEffect : Prop :=
  ∀ (off : BitVec 9) (width : Nat) (s : State), refusedAccess off width = false →
    ∃ v : Word, operate (.access off width .read) s = .next { s with busReads := s.busReads ++ [v] }

/-! ## The machine -/

/-- R70, R71, R101: a step takes the next input; out of reset, an operation that decodes to an instruction is exactly that
instruction's execution, on the state with the input taken, and a word that is no event is refused. With no input to come the block keeps its state (the model's
choice: log entry 3). -/
def Obligations.StepRunsTheDecodedInstruction : Prop :=
  (∀ (s : State) (o : Operation) (rest : List Input) (i : Instr), s.inReset = false → s.pending = .op o :: rest →
    decode o = .instr i → i.wellFormed = true → step s = exec i { s with pending := rest }) ∧
  (∀ (s : State) (o : Operation) (rest : List Input) (w : Half), s.inReset = false → s.pending = .op o :: rest →
    decode o = .notAnEvent w → step s = .refused (.notAnEvent w)) ∧
  ∀ s : State, s.pending = [] → step s = .next s

/-- R23, R25, R33, R38, R251: every step keeps the invariant: each ring's capacity, count and indices in range with
`tail = (head + count) mod cap`, storage in canonical form (the model's own: log entry 2) and in bounds, `ERR` a produced code, `RES` at most 255. -/
def Obligations.StepKeepsTheInvariant : Prop :=
  ∀ s t : State, s.Inv → step s = .next t → t.Inv

/-- R281, R161: the reset state meets the block's invariant and every port's. -/
def Obligations.ResetMeetsTheInvariant : Prop :=
  State.reset.Inv ∧ ∀ p : Fin Config.nPorts, State.reset.TxSynced p

/-- R281: the values the spec states for reset. -/
def Obligations.ResetHoldsTheSpecifiedValues : Prop :=
  (∀ r : Fin Config.nRings, (State.reset.ring r).cap.toNat = Config.capMax ∧ (State.reset.ring r).head = 0#8 ∧
    (State.reset.ring r).tail = 0#8 ∧ (State.reset.ring r).count = 0#8) ∧
  (∀ p : Fin Config.nPorts, (State.reset.port p).txbusy = false ∧ (State.reset.port p).rxovf = false ∧
    (State.reset.port p).lineOut = []) ∧
  State.reset.tflag = 0b00#2 ∧ State.reset.dest = 0xFFFF#16 ∧ State.reset.chan = 0x00#8 ∧
  State.reset.ckacc = 0x00#8 ∧ State.reset.rtype = 0x00#8 ∧ State.reset.res = 0#32 ∧ State.reset.err = 0x00#8

/-- R280, R101: while the reset input is asserted no event is taken (a word that is no event is refused as ever) and no bus
access is accepted; when it is released every
piece of state holds its reset value in one step, the storage unspecified afresh. That the state keeps its values until
the release, and that an access then is a named fault, are the model's choice (93 I14; log entry 4). -/
def Obligations.ResetInputStopsAndRestoresTheBlock : Prop :=
  ∀ (s : State) (rest : List Input),
    (s.pending = .resetLine true :: rest → step s = .next { s with inReset := true, pending := rest }) ∧
    (s.inReset = true →
      (∀ w, s.pending = .op (.event w) :: rest →
        step s = if isEventWord w then .next { s with pending := rest } else .refused (.notAnEvent w)) ∧
      (∀ off width dir, s.pending = .op (.access off width dir) :: rest → step s = .fault .accessInReset) ∧
      (s.pending = .resetLine false :: rest →
        step s = .next { State.reset with epoch := s.epoch + 1, pending := rest }))

/-- R63, R101, R135, R154, R252, R255: out of reset the block takes every operation but these: an access it refuses, a word
that is no event, and `EV_TXRDY` of a port that is not armed. -/
def Obligations.EveryAdmittedOperationCompletes : Prop :=
  ∀ (s : State) (o : Operation), (∃ t, operate o s = .next t) ↔ s.admits o = true
end

