-- ==== Sys2Proof/Laws/Decode.lean ====
section
/-! SUPPORT. The fields of a command word and of an event word read back, the command decoder against the match and mask
rows of the opcode table, and the offsets of registers, ports and `DBUF`. -/

namespace Sys2Proof

/-! ### Command words (R91) -/

@[simp] theorem wordOpc_commandWord (a b c d : Byte) : wordOpc (commandWord a b c d) = a := by
  ext i hi
  simp only [wordOpc, commandWord, BitVec.getElem_extractLsb', BitVec.getLsbD_or, BitVec.getLsbD_shiftLeft,
    BitVec.getLsbD_setWidth]
  interval_cases i <;> simp

@[simp] theorem wordIdx_commandWord (a b c d : Byte) : wordIdx (commandWord a b c d) = b := by
  ext i hi
  simp only [wordIdx, commandWord, BitVec.getElem_extractLsb', BitVec.getLsbD_or, BitVec.getLsbD_shiftLeft,
    BitVec.getLsbD_setWidth]
  interval_cases i <;> simp

@[simp] theorem wordLen_commandWord (a b c d : Byte) : wordLen (commandWord a b c d) = c := by
  ext i hi
  simp only [wordLen, commandWord, BitVec.getElem_extractLsb', BitVec.getLsbD_or, BitVec.getLsbD_shiftLeft,
    BitVec.getLsbD_setWidth]
  interval_cases i <;> simp

@[simp] theorem wordImm_commandWord (a b c d : Byte) : wordImm (commandWord a b c d) = d := by
  ext i hi
  simp only [wordImm, commandWord, BitVec.getElem_extractLsb', BitVec.getLsbD_or, BitVec.getLsbD_shiftLeft,
    BitVec.getLsbD_setWidth]
  interval_cases i <;> simp

/-- A command word is its four fields. -/
theorem commandWord_fields (w : Word) : commandWord (wordOpc w) (wordIdx w) (wordLen w) (wordImm w) = w := by
  apply BitVec.eq_of_getLsbD_eq
  intro i hi
  simp only [wordOpc, wordIdx, wordLen, wordImm, commandWord, BitVec.getLsbD_or, BitVec.getLsbD_shiftLeft,
    BitVec.getLsbD_setWidth, BitVec.getLsbD_extractLsb']
  interval_cases i <;> simp

theorem commandWord_injective {a b c d a' b' c' d' : Byte} (h : commandWord a b c d = commandWord a' b' c' d') :
    a = a' ∧ b = b' ∧ c = c' ∧ d = d' := by
  refine ⟨?_, ?_, ?_, ?_⟩
  · simpa using congrArg wordOpc h
  · simpa using congrArg wordIdx h
  · simpa using congrArg wordLen h
  · simpa using congrArg wordImm h

/-! ### The Format C table (R93, R94) -/

@[simp] theorem ofCode?_code (op : Op) : Op.ofCode? op.code = some op := by cases op <;> decide

theorem code_of_ofCode? {b : Byte} {op : Op} (h : Op.ofCode? b = some op) : op.code = b := by
  have := List.find?_some h
  simpa using this

/-- The decoder finds exactly the words of legal commands. -/
theorem decodeCommand_eq_some {w : Word} {c : Command} : decodeCommand w = some c ↔ c.legal = true ∧ c.encode = w := by
  unfold decodeCommand
  constructor
  · intro h
    split at h
    · cases h
    · rename_i op hop
      simp only at h
      split at h
      · rename_i hl
        cases h
        refine ⟨hl, ?_⟩
        rw [Command.encode, code_of_ofCode? hop, commandWord_fields]
      · cases h
  · rintro ⟨hl, rfl⟩
    obtain ⟨op, idx, len, imm⟩ := c
    simp [Command.encode, hl]

theorem decodeCommand_commandWord {op : Op} {a b c : Byte} (h : (Command.mk op a b c).legal = true) :
    decodeCommand (commandWord op.code a b c) = some ⟨op, a, b, c⟩ :=
  decodeCommand_eq_some.2 ⟨h, rfl⟩

/-- The row of a mnemonic in the opcode table. -/
def Op.row : Op → MatchRow
  | .rbInit => ⟨.rbInit, 0x01000000#32, 0xFF0000FF#32⟩
  | .rbEnq => ⟨.rbEnq, 0x02000000#32, 0xFF0000FF#32⟩
  | .rbDeq => ⟨.rbDeq, 0x03000000#32, 0xFF0000FF#32⟩
  | .rbIsEmpty => ⟨.rbIsEmpty, 0x04000000#32, 0xFF00FFFF#32⟩
  | .rbIsFull => ⟨.rbIsFull, 0x05000000#32, 0xFF00FFFF#32⟩
  | .rbCount => ⟨.rbCount, 0x06000000#32, 0xFF00FFFF#32⟩
  | .rbCap => ⟨.rbCap, 0x07000000#32, 0xFF00FFFF#32⟩
  | .serWrite => ⟨.serWrite, 0x10000000#32, 0xFF0000FF#32⟩
  | .serRead => ⟨.serRead, 0x11000000#32, 0xFF0000FF#32⟩
  | .pktEncode => ⟨.pktEncode, 0x20000000#32, 0xFFFF0000#32⟩
  | .pktEnvelope => ⟨.pktEnvelope, 0x21000000#32, 0xFFFF0000#32⟩
  | .pktRoute => ⟨.pktRoute, 0x22000000#32, 0xFFFF00FF#32⟩
  | .pktDecode => ⟨.pktDecode, 0x23000000#32, 0xFFFFFF00#32⟩
  | .pktSend => ⟨.pktSend, 0x24000000#32, 0xFF00FFFF#32⟩
  | .ckClear => ⟨.ckClear, 0x30000000#32, 0xFFFFFFFF#32⟩
  | .ckByte => ⟨.ckByte, 0x31000000#32, 0xFFFFFF00#32⟩
  | .ckBuf => ⟨.ckBuf, 0x32000000#32, 0xFFFF00FF#32⟩

theorem commandRows_eq : commandRows = Op.all.map Op.row := rfl

/-- The mask byte of a field: all ones where the field must be zero. -/
def maskByte (used : Bool) : Byte := if used then 0x00#8 else 0xFF#8

theorem row_mask (op : Op) :
    op.row.mask = commandWord 0xFF#8 (maskByte op.usesIdx) (maskByte op.usesLen) (maskByte op.usesImm) := by
  cases op <;> decide

theorem row_pattern (op : Op) : op.row.pattern = commandWord op.code 0#8 0#8 0#8 := by cases op <;> decide

theorem commandWord_and (a b c d a' b' c' d' : Byte) :
    commandWord a b c d &&& commandWord a' b' c' d' = commandWord (a &&& a') (b &&& b') (c &&& c') (d &&& d') := by
  ext i hi
  simp only [commandWord, BitVec.getElem_and, BitVec.getElem_or, BitVec.getElem_shiftLeft, BitVec.getElem_setWidth,
    BitVec.getLsbD_and]
  interval_cases i <;> simp

theorem and_maskByte (used : Bool) (b : Byte) : b &&& maskByte used = 0#8 ↔ zeroUnless used b = true := by
  cases used
  · simp only [maskByte, zeroUnless, Bool.false_eq_true, if_false, Bool.false_or, beq_iff_eq]
    rw [show (0xFF#8 : Byte) = BitVec.allOnes 8 from rfl, BitVec.and_allOnes]
  · simp [maskByte, zeroUnless]

/-- A row fits a word exactly when the opcode is the row's and the must-be-zero fields are zero. -/
theorem row_fits (op : Op) (w : Word) :
    op.row.fits w = true ↔ wordOpc w = op.code ∧ (Command.mk op (wordIdx w) (wordLen w) (wordImm w)).legal = true := by
  rw [MatchRow.fits, beq_iff_eq, row_mask, row_pattern]
  conv_lhs => rw [← commandWord_fields w]
  rw [commandWord_and]
  have hff : wordOpc w &&& 0xFF#8 = wordOpc w := by
    rw [show (0xFF#8 : Byte) = BitVec.allOnes 8 from rfl, BitVec.and_allOnes]
  rw [hff]
  simp only [Command.legal, Bool.and_eq_true, ← and_maskByte]
  constructor
  · intro h
    obtain ⟨h1, h2, h3, h4⟩ := commandWord_injective h
    exact ⟨h1, ⟨h2, h3⟩, h4⟩
  · rintro ⟨h1, ⟨h2, h3⟩, h4⟩
    rw [h1, h2, h3, h4]

/-- A word decodes to a command exactly when the row of its mnemonic fits, and then it is that word's fields. -/
theorem decodeCommand_iff_fits (w : Word) (c : Command) :
    decodeCommand w = some c ↔ c.op.row.fits w = true ∧ c.idx = wordIdx w ∧ c.len = wordLen w ∧ c.imm = wordImm w := by
  rw [decodeCommand_eq_some, row_fits]
  obtain ⟨op, idx, len, imm⟩ := c
  constructor
  · rintro ⟨hl, rfl⟩
    simpa [Command.encode] using hl
  · rintro ⟨⟨h1, h2⟩, rfl, rfl, rfl⟩
    refine ⟨h2, ?_⟩
    rw [Command.encode]
    simp only
    rw [← h1, commandWord_fields]

theorem op_mem_all (op : Op) : op ∈ Op.all := by cases op <;> decide

/-- The legal words are those that decode (R94). -/
theorem legalWord_iff (w : Word) : legalWord w = true ↔ ∃ c, decodeCommand w = some c := by
  rw [legalWord, commandRows_eq, List.any_map, List.any_eq_true]
  constructor
  · rintro ⟨op, -, h⟩
    exact ⟨⟨op, wordIdx w, wordLen w, wordImm w⟩, (decodeCommand_iff_fits w _).2 ⟨h, rfl, rfl, rfl⟩⟩
  · rintro ⟨c, h⟩
    exact ⟨c.op, op_mem_all _, ((decodeCommand_iff_fits w c).1 h).1⟩

theorem decodeCommand_eq_none {w : Word} : decodeCommand w = none ↔ legalWord w = false := by
  have h := legalWord_iff w
  cases hd : decodeCommand w with
  | none =>
    simp only [true_iff]
    cases hl : legalWord w with
    | false => rfl
    | true =>
      obtain ⟨c, hc⟩ := h.1 hl
      rw [hd] at hc
      cases hc
  | some c =>
    simp [h.2 ⟨c, hd⟩]

/-! ### Register, port and `DBUF` offsets (R37) -/

@[simp] theorem ofOffset?_offset (g : Reg) : Reg.ofOffset? g.offset = some g := by cases g <;> decide

theorem offset_of_ofOffset? {off : BitVec 9} {g : Reg} (h : Reg.ofOffset? off = some g) : g.offset = off := by
  have := List.find?_some h
  simpa using this

theorem pstatOffset_toNat (p : BitVec 3) : (pstatOffset p).toNat = 0x40 + 4 * p.toNat := by
  have hp : p.toNat < 8 := p.isLt
  simp only [pstatOffset, BitVec.toNat_add, BitVec.toNat_shiftLeft, BitVec.toNat_setWidth, BitVec.toNat_ofNat,
    Nat.shiftLeft_eq]
  omega

theorem dbufOffset_toNat (i : Byte) : (dbufOffset i).toNat = 0x100 + i.toNat := by
  have hi : i.toNat < 256 := i.isLt
  simp only [dbufOffset, BitVec.toNat_add, BitVec.toNat_setWidth, BitVec.toNat_ofNat]
  omega

theorem pstatPort_toNat (off : BitVec 9) : (pstatPort off).toNat = off.toNat / 4 % 8 := by
  simp [pstatPort, BitVec.extractLsb'_toNat, Nat.shiftRight_eq_div_pow]

@[simp] theorem pstatPort_pstatOffset (p : BitVec 3) : pstatPort (pstatOffset p) = p := by
  have hp : p.toNat < 8 := p.isLt
  apply BitVec.eq_of_toNat_eq
  rw [pstatPort_toNat, pstatOffset_toNat]
  omega

@[simp] theorem setWidth_dbufOffset (i : Byte) : (dbufOffset i).setWidth 8 = i := by
  have hi : i.toNat < 256 := i.isLt
  apply BitVec.eq_of_toNat_eq
  rw [BitVec.toNat_setWidth, dbufOffset_toNat]
  omega

/-- Every aligned offset below 0x100 that holds no fixed register is a port status register or unmapped. -/
theorem ofOffset?_none_iff (off : BitVec 9) (h : off.toNat % 4 = 0) :
    Reg.ofOffset? off = none ↔ 0x28 ≤ off.toNat := by
  have key : ∀ n < 512, n % 4 = 0 → (Reg.ofOffset? (BitVec.ofNat 9 n) = none ↔ 0x28 ≤ n) := by decide +kernel
  have := key off.toNat off.isLt h
  rwa [BitVec.ofNat_toNat, BitVec.setWidth_eq] at this

/-! ### Event words (R100) -/

@[simp] theorem eventKind_eventWord (k p : BitVec 4) (d : Byte) : eventKind (eventWord k p d) = k := by
  ext i hi
  simp only [eventKind, eventWord, BitVec.getElem_extractLsb', BitVec.getLsbD_or, BitVec.getLsbD_shiftLeft,
    BitVec.getLsbD_setWidth]
  interval_cases i <;> simp

@[simp] theorem eventPort_eventWord (k p : BitVec 4) (d : Byte) : eventPort (eventWord k p d) = p := by
  ext i hi
  simp only [eventPort, eventWord, BitVec.getElem_extractLsb', BitVec.getLsbD_or, BitVec.getLsbD_shiftLeft,
    BitVec.getLsbD_setWidth]
  interval_cases i <;> simp

@[simp] theorem eventData_eventWord (k p : BitVec 4) (d : Byte) : eventData (eventWord k p d) = d := by
  ext i hi
  simp only [eventData, eventWord, BitVec.getElem_extractLsb', BitVec.getLsbD_or, BitVec.getLsbD_shiftLeft,
    BitVec.getLsbD_setWidth]
  interval_cases i <;> simp

theorem eventKind_toNat (w : Half) : (eventKind w).toNat = w.toNat / 0x1000 := by
  have := w.isLt
  simp only [eventKind, BitVec.extractLsb'_toNat, Nat.shiftRight_eq_div_pow]
  omega

theorem eventPort_toNat (w : Half) : (eventPort w).toNat = w.toNat / 0x100 % 0x10 := by
  simp [eventPort, BitVec.extractLsb'_toNat, Nat.shiftRight_eq_div_pow]

theorem eventData_toNat (w : Half) : (eventData w).toNat = w.toNat % 0x100 := by
  simp [eventData, BitVec.extractLsb'_toNat]

/-- The event decoder by the numbers of R100's rows: `0x1pbb`, `0x2p00`, `0x3000`, `0x4000`. -/
theorem decodeEvent_eq (w : Half) :
    decodeEvent w =
      if w.toNat / 0x1000 = 1 ∧ w.toNat / 0x100 % 0x10 < Config.nPorts then .instr (.evRx (eventPort w) (eventData w))
      else if w.toNat / 0x1000 = 2 ∧ w.toNat / 0x100 % 0x10 < Config.nPorts ∧ w.toNat % 0x100 = 0 then
        .instr (.evTxrdy (eventPort w))
      else if w.toNat = 0x3000 then .instr .evTick2ms
      else if w.toNat = 0x4000 then .instr .evTick1s
      else .notAnEvent w := by
  have hw := w.isLt
  have hkind : ∀ n < 16, (eventKind w = BitVec.ofNat 4 n ↔ w.toNat / 0x1000 = n) := by
    intro n hn
    rw [← BitVec.toNat_inj, eventKind_toNat, BitVec.toNat_ofNat, Nat.mod_eq_of_lt (by omega)]
  have hport : eventPort w = 0#4 ↔ w.toNat / 0x100 % 0x10 = 0 := by
    rw [← BitVec.toNat_inj, eventPort_toNat]
    rfl
  have hdata : eventData w = 0#8 ↔ w.toNat % 0x100 = 0 := by
    rw [← BitVec.toNat_inj, eventData_toNat]
    rfl
  unfold decodeEvent
  have hp := eventPort_toNat w
  simp only [hkind 1 (by omega), hkind 2 (by omega), hkind 3 (by omega), hkind 4 (by omega), hp, hdata, hport]
  unfold Config.nPorts
  split_ifs <;> first | rfl | omega

/-! ### Narrow writes -/

/-- A narrow value comes back from the bus value it was widened to. -/
@[simp] theorem setWidth8_setWidth32 (v : Byte) : (v.setWidth 32).setWidth 8 = v := by
  simp

@[simp] theorem setWidth16_setWidth32 (v : Half) : (v.setWidth 32).setWidth 16 = v := by
  simp

/-! ### The decoder on what the encoder writes -/

/-- An aligned 32-bit access below 0x100 is a register access (R99). -/
theorem decodeAccess_register {off : BitVec 9} (dir : Dir) (h : off.toNat < 0x100) (ha : off.toNat % 4 = 0) :
    decodeAccess off 4 dir = decodeRegister off dir := by
  simp [decodeAccess, ha, Nat.not_le.2 h]

/-- An aligned access at 0x100 or above is a `DBUF` access (R99). -/
theorem decodeAccess_dbuf {off : BitVec 9} {width : Nat} (dir : Dir) (hw : width = 1 ∨ width = 2 ∨ width = 4)
    (h : 0x100 ≤ off.toNat) (ha : off.toNat % width = 0) : decodeAccess off width dir = decodeDbuf off width dir := by
  rcases hw with rfl | rfl | rfl <;> simp [decodeAccess, ha, Nat.not_lt.2 h, h]

/-- A refused access decodes as one (R63). -/
theorem decodeAccess_refused {off : BitVec 9} {width : Nat} (dir : Dir) (h : refusedAccess off width = true) :
    decodeAccess off width dir = .badAccess off width dir := by
  unfold decodeAccess
  split
  · rfl
  · split
    · rfl
    · simp_all [refusedAccess]

theorem offset_lt (g : Reg) : g.offset.toNat < 0x100 := by cases g <;> decide

theorem offset_aligned (g : Reg) : g.offset.toNat % 4 = 0 := by cases g <;> decide

/-- A read of a fixed register decodes to that register's read. -/
theorem decode_regRead (g : Reg) : decode (regRead g) = .instr g.readInstr := by
  rw [regRead, decode, decodeAccess_register _ (offset_lt g) (offset_aligned g), decodeRegister, ofOffset?_offset]

/-- A write of a fixed register decodes to that register's write. -/
theorem decode_regWrite (g : Reg) (v : Word) : decode (regWrite g v) = .instr (g.writeInstr v) := by
  rw [regWrite, decode, decodeAccess_register _ (offset_lt g) (offset_aligned g), decodeRegister, ofOffset?_offset]

/-- A `CMD` write decodes by its word (R95). -/
theorem decode_cmdWrite (w : Word) : decode (cmdWrite w) = .instr (cmdWriteInstr w) := decode_regWrite .cmd w

/-- A `CMD` write of a legal command's word decodes to that command's instruction (R94). -/
theorem decode_cmdWrite_command {op : Op} {a b c : Byte} (h : (Command.mk op a b c).legal = true) :
    decode (cmdWrite (commandWord op.code a b c)) = .instr (Command.toInstr ⟨op, a, b, c⟩) := by
  rw [decode_cmdWrite, cmdWriteInstr, decodeCommand_commandWord h]

/-- An access to a port status register decodes to that port's (R163, R164). -/
theorem decodeAccess_pstat (p : BitVec 3) (dir : Dir) (hp : p.toNat < Config.nPorts) :
    decodeAccess (pstatOffset p) 4 dir =
      match dir with
      | .read => .ld32Pstat p
      | .write v => .st32Pstat p v := by
  have hoff := pstatOffset_toNat p
  have hp8 : p.toNat < 8 := p.isLt
  have hal : (pstatOffset p).toNat % 4 = 0 := by omega
  have hnone : Reg.ofOffset? (pstatOffset p) = none := (ofOffset?_none_iff _ hal).2 (by omega)
  have his : isPstat (pstatOffset p) = true := by simp [isPstat, hoff, hp]
  rw [decodeAccess_register dir (by omega) hal]
  cases dir <;> simp only [decodeRegister, hnone, his, if_true, pstatPort_pstatOffset]

end Sys2Proof
end

