-- ==== Sys2Proof/Laws/State.lean ====
section
/-! SUPPORT. The record updates of State: one lemma per field per update, all by rfl, and the laws of the accessors of
rings and ports. -/

namespace Sys2Proof.Machine

/-! ### `State.setRing` -/

@[simp] theorem setRing_rings (s : State) (r : Fin Config.nRings) (g : Ring) : (s.setRing r g).rings = s.rings.set r.val g r.isLt := rfl
@[simp] theorem setRing_ports (s : State) (r : Fin Config.nRings) (g : Ring) : (s.setRing r g).ports = s.ports := rfl
@[simp] theorem setRing_tflag (s : State) (r : Fin Config.nRings) (g : Ring) : (s.setRing r g).tflag = s.tflag := rfl
@[simp] theorem setRing_dest (s : State) (r : Fin Config.nRings) (g : Ring) : (s.setRing r g).dest = s.dest := rfl
@[simp] theorem setRing_chan (s : State) (r : Fin Config.nRings) (g : Ring) : (s.setRing r g).chan = s.chan := rfl
@[simp] theorem setRing_ckacc (s : State) (r : Fin Config.nRings) (g : Ring) : (s.setRing r g).ckacc = s.ckacc := rfl
@[simp] theorem setRing_rtype (s : State) (r : Fin Config.nRings) (g : Ring) : (s.setRing r g).rtype = s.rtype := rfl
@[simp] theorem setRing_res (s : State) (r : Fin Config.nRings) (g : Ring) : (s.setRing r g).res = s.res := rfl
@[simp] theorem setRing_err (s : State) (r : Fin Config.nRings) (g : Ring) : (s.setRing r g).err = s.err := rfl
@[simp] theorem setRing_dbuf (s : State) (r : Fin Config.nRings) (g : Ring) : (s.setRing r g).dbuf = s.dbuf := rfl
@[simp] theorem setRing_busReads (s : State) (r : Fin Config.nRings) (g : Ring) : (s.setRing r g).busReads = s.busReads := rfl
@[simp] theorem setRing_epoch (s : State) (r : Fin Config.nRings) (g : Ring) : (s.setRing r g).epoch = s.epoch := rfl
@[simp] theorem setRing_inReset (s : State) (r : Fin Config.nRings) (g : Ring) : (s.setRing r g).inReset = s.inReset := rfl
@[simp] theorem setRing_pending (s : State) (r : Fin Config.nRings) (g : Ring) : (s.setRing r g).pending = s.pending := rfl

/-! ### `State.setPort` -/

@[simp] theorem setPort_rings (s : State) (p : Fin Config.nPorts) (g : Port) : (s.setPort p g).rings = s.rings := rfl
@[simp] theorem setPort_ports (s : State) (p : Fin Config.nPorts) (g : Port) : (s.setPort p g).ports = s.ports.set p.val g p.isLt := rfl
@[simp] theorem setPort_tflag (s : State) (p : Fin Config.nPorts) (g : Port) : (s.setPort p g).tflag = s.tflag := rfl
@[simp] theorem setPort_dest (s : State) (p : Fin Config.nPorts) (g : Port) : (s.setPort p g).dest = s.dest := rfl
@[simp] theorem setPort_chan (s : State) (p : Fin Config.nPorts) (g : Port) : (s.setPort p g).chan = s.chan := rfl
@[simp] theorem setPort_ckacc (s : State) (p : Fin Config.nPorts) (g : Port) : (s.setPort p g).ckacc = s.ckacc := rfl
@[simp] theorem setPort_rtype (s : State) (p : Fin Config.nPorts) (g : Port) : (s.setPort p g).rtype = s.rtype := rfl
@[simp] theorem setPort_res (s : State) (p : Fin Config.nPorts) (g : Port) : (s.setPort p g).res = s.res := rfl
@[simp] theorem setPort_err (s : State) (p : Fin Config.nPorts) (g : Port) : (s.setPort p g).err = s.err := rfl
@[simp] theorem setPort_dbuf (s : State) (p : Fin Config.nPorts) (g : Port) : (s.setPort p g).dbuf = s.dbuf := rfl
@[simp] theorem setPort_busReads (s : State) (p : Fin Config.nPorts) (g : Port) : (s.setPort p g).busReads = s.busReads := rfl
@[simp] theorem setPort_epoch (s : State) (p : Fin Config.nPorts) (g : Port) : (s.setPort p g).epoch = s.epoch := rfl
@[simp] theorem setPort_inReset (s : State) (p : Fin Config.nPorts) (g : Port) : (s.setPort p g).inReset = s.inReset := rfl
@[simp] theorem setPort_pending (s : State) (p : Fin Config.nPorts) (g : Port) : (s.setPort p g).pending = s.pending := rfl

/-! ### `State.finish` -/

@[simp] theorem finish_rings (s : State) (e : Status) (r : Word) : (s.finish e r).rings = s.rings := rfl
@[simp] theorem finish_ports (s : State) (e : Status) (r : Word) : (s.finish e r).ports = s.ports := rfl
@[simp] theorem finish_tflag (s : State) (e : Status) (r : Word) : (s.finish e r).tflag = s.tflag := rfl
@[simp] theorem finish_dest (s : State) (e : Status) (r : Word) : (s.finish e r).dest = s.dest := rfl
@[simp] theorem finish_chan (s : State) (e : Status) (r : Word) : (s.finish e r).chan = s.chan := rfl
@[simp] theorem finish_ckacc (s : State) (e : Status) (r : Word) : (s.finish e r).ckacc = s.ckacc := rfl
@[simp] theorem finish_rtype (s : State) (e : Status) (r : Word) : (s.finish e r).rtype = s.rtype := rfl
@[simp] theorem finish_res (s : State) (e : Status) (r : Word) : (s.finish e r).res = r := rfl
@[simp] theorem finish_err (s : State) (e : Status) (r : Word) : (s.finish e r).err = e.code := rfl
@[simp] theorem finish_dbuf (s : State) (e : Status) (r : Word) : (s.finish e r).dbuf = s.dbuf := rfl
@[simp] theorem finish_busReads (s : State) (e : Status) (r : Word) : (s.finish e r).busReads = s.busReads := rfl
@[simp] theorem finish_epoch (s : State) (e : Status) (r : Word) : (s.finish e r).epoch = s.epoch := rfl
@[simp] theorem finish_inReset (s : State) (e : Status) (r : Word) : (s.finish e r).inReset = s.inReset := rfl
@[simp] theorem finish_pending (s : State) (e : Status) (r : Word) : (s.finish e r).pending = s.pending := rfl

/-! ### `State.returns` -/

@[simp] theorem returns_rings (s : State) (v : Word) : (s.returns v).rings = s.rings := rfl
@[simp] theorem returns_ports (s : State) (v : Word) : (s.returns v).ports = s.ports := rfl
@[simp] theorem returns_tflag (s : State) (v : Word) : (s.returns v).tflag = s.tflag := rfl
@[simp] theorem returns_dest (s : State) (v : Word) : (s.returns v).dest = s.dest := rfl
@[simp] theorem returns_chan (s : State) (v : Word) : (s.returns v).chan = s.chan := rfl
@[simp] theorem returns_ckacc (s : State) (v : Word) : (s.returns v).ckacc = s.ckacc := rfl
@[simp] theorem returns_rtype (s : State) (v : Word) : (s.returns v).rtype = s.rtype := rfl
@[simp] theorem returns_res (s : State) (v : Word) : (s.returns v).res = s.res := rfl
@[simp] theorem returns_err (s : State) (v : Word) : (s.returns v).err = s.err := rfl
@[simp] theorem returns_dbuf (s : State) (v : Word) : (s.returns v).dbuf = s.dbuf := rfl
@[simp] theorem returns_busReads (s : State) (v : Word) : (s.returns v).busReads = s.busReads ++ [v] := rfl
@[simp] theorem returns_epoch (s : State) (v : Word) : (s.returns v).epoch = s.epoch := rfl
@[simp] theorem returns_inReset (s : State) (v : Word) : (s.returns v).inReset = s.inReset := rfl
@[simp] theorem returns_pending (s : State) (v : Word) : (s.returns v).pending = s.pending := rfl

/-! ### `State.storeDbuf` -/

@[simp] theorem storeDbuf_rings (s : State) (i : Nat) (bytes : List Byte) : (s.storeDbuf i bytes).rings = s.rings := rfl
@[simp] theorem storeDbuf_ports (s : State) (i : Nat) (bytes : List Byte) : (s.storeDbuf i bytes).ports = s.ports := rfl
@[simp] theorem storeDbuf_tflag (s : State) (i : Nat) (bytes : List Byte) : (s.storeDbuf i bytes).tflag = s.tflag := rfl
@[simp] theorem storeDbuf_dest (s : State) (i : Nat) (bytes : List Byte) : (s.storeDbuf i bytes).dest = s.dest := rfl
@[simp] theorem storeDbuf_chan (s : State) (i : Nat) (bytes : List Byte) : (s.storeDbuf i bytes).chan = s.chan := rfl
@[simp] theorem storeDbuf_ckacc (s : State) (i : Nat) (bytes : List Byte) : (s.storeDbuf i bytes).ckacc = s.ckacc := rfl
@[simp] theorem storeDbuf_rtype (s : State) (i : Nat) (bytes : List Byte) : (s.storeDbuf i bytes).rtype = s.rtype := rfl
@[simp] theorem storeDbuf_res (s : State) (i : Nat) (bytes : List Byte) : (s.storeDbuf i bytes).res = s.res := rfl
@[simp] theorem storeDbuf_err (s : State) (i : Nat) (bytes : List Byte) : (s.storeDbuf i bytes).err = s.err := rfl
@[simp] theorem storeDbuf_dbuf (s : State) (i : Nat) (bytes : List Byte) : (s.storeDbuf i bytes).dbuf = s.dbuf.writeList i bytes := rfl
@[simp] theorem storeDbuf_busReads (s : State) (i : Nat) (bytes : List Byte) : (s.storeDbuf i bytes).busReads = s.busReads := rfl
@[simp] theorem storeDbuf_epoch (s : State) (i : Nat) (bytes : List Byte) : (s.storeDbuf i bytes).epoch = s.epoch := rfl
@[simp] theorem storeDbuf_inReset (s : State) (i : Nat) (bytes : List Byte) : (s.storeDbuf i bytes).inReset = s.inReset := rfl
@[simp] theorem storeDbuf_pending (s : State) (i : Nat) (bytes : List Byte) : (s.storeDbuf i bytes).pending = s.pending := rfl

/-! ### Rings and ports of an updated state -/

@[simp] theorem ring_setRing_same (s : State) (r : Fin Config.nRings) (g : Ring) : (s.setRing r g).ring r = g := by
  simp [State.ring, State.setRing]

theorem ring_setRing_ne (s : State) {r r' : Fin Config.nRings} (g : Ring) (h : r' ≠ r) :
    (s.setRing r g).ring r' = s.ring r' := by
  have hv : r.val ≠ r'.val := fun e => h (Fin.ext e.symm)
  simp [State.ring, State.setRing, Vector.getElem_set_ne, hv]

@[simp] theorem port_setPort_same (s : State) (p : Fin Config.nPorts) (g : Port) : (s.setPort p g).port p = g := by
  simp [State.port, State.setPort]

theorem port_setPort_ne (s : State) {p q : Fin Config.nPorts} (g : Port) (h : q ≠ p) :
    (s.setPort p g).port q = s.port q := by
  have hv : p.val ≠ q.val := fun e => h (Fin.ext e.symm)
  simp [State.port, State.setPort, Vector.getElem_set_ne, hv]

@[simp] theorem ring_setPort (s : State) (p : Fin Config.nPorts) (g : Port) (r : Fin Config.nRings) :
    (s.setPort p g).ring r = s.ring r := rfl
@[simp] theorem ring_finish (s : State) (e : Status) (v : Word) (r : Fin Config.nRings) :
    (s.finish e v).ring r = s.ring r := rfl
@[simp] theorem ring_returns (s : State) (v : Word) (r : Fin Config.nRings) : (s.returns v).ring r = s.ring r := rfl
@[simp] theorem ring_storeDbuf (s : State) (i : Nat) (bytes : List Byte) (r : Fin Config.nRings) :
    (s.storeDbuf i bytes).ring r = s.ring r := rfl

@[simp] theorem port_setRing (s : State) (r : Fin Config.nRings) (g : Ring) (p : Fin Config.nPorts) :
    (s.setRing r g).port p = s.port p := rfl
@[simp] theorem port_finish (s : State) (e : Status) (v : Word) (p : Fin Config.nPorts) :
    (s.finish e v).port p = s.port p := rfl
@[simp] theorem port_returns (s : State) (v : Word) (p : Fin Config.nPorts) : (s.returns v).port p = s.port p := rfl
@[simp] theorem port_storeDbuf (s : State) (i : Nat) (bytes : List Byte) (p : Fin Config.nPorts) :
    (s.storeDbuf i bytes).port p = s.port p := rfl

@[simp] theorem dbufByte_setRing (s : State) (r : Fin Config.nRings) (g : Ring) (a : Nat) :
    (s.setRing r g).dbufByte a = s.dbufByte a := rfl
@[simp] theorem dbufByte_setPort (s : State) (p : Fin Config.nPorts) (g : Port) (a : Nat) :
    (s.setPort p g).dbufByte a = s.dbufByte a := rfl
@[simp] theorem dbufByte_finish (s : State) (e : Status) (v : Word) (a : Nat) :
    (s.finish e v).dbufByte a = s.dbufByte a := rfl
@[simp] theorem dbufByte_returns (s : State) (v : Word) (a : Nat) : (s.returns v).dbufByte a = s.dbufByte a := rfl

@[simp] theorem setRing_ring_self (s : State) (r : Fin Config.nRings) : s.setRing r (s.ring r) = s := by
  simp [State.ring, State.setRing]

@[simp] theorem setPort_port_self (s : State) (p : Fin Config.nPorts) : s.setPort p (s.port p) = s := by
  simp [State.port, State.setPort]

/-- The two rings of a port differ. -/
theorem txRing_ne_rxRing (p q : Fin Config.nPorts) : txRing p ≠ rxRing q := by
  intro h
  have hv : 2 * p.val = 2 * q.val + 1 := congrArg Fin.val h
  omega

/-- Two ports have different TX rings. -/
theorem txRing_injective {p q : Fin Config.nPorts} (h : txRing p = txRing q) : p = q := by
  have hv : 2 * p.val = 2 * q.val := congrArg Fin.val h
  exact Fin.ext (by omega)

/-- Two ports have different RX rings. -/
theorem rxRing_injective {p q : Fin Config.nPorts} (h : rxRing p = rxRing q) : p = q := by
  have hv : 2 * p.val + 1 = 2 * q.val + 1 := congrArg Fin.val h
  exact Fin.ext (by omega)

/-! ### The operand checks -/

theorem ringIndex?_eq_some {idx : Byte} {r : Fin Config.nRings} : ringIndex? idx = some r ↔ idx.toNat = r.val := by
  unfold ringIndex?
  split
  · simp [Fin.ext_iff]
  · have := r.isLt
    constructor
    · intro h
      cases h
    · omega

theorem ringIndex?_eq_none {idx : Byte} : ringIndex? idx = none ↔ Config.nRings ≤ idx.toNat := by
  unfold ringIndex?
  split <;> simp <;> omega

theorem portIndex?_eq_some {n : Nat} {p : Fin Config.nPorts} : portIndex? n = some p ↔ n = p.val := by
  unfold portIndex?
  split
  · simp [Fin.ext_iff]
  · have := p.isLt
    constructor
    · intro h
      cases h
    · omega

theorem portIndex?_eq_none {n : Nat} : portIndex? n = none ↔ Config.nPorts ≤ n := by
  unfold portIndex?
  split <;> simp <;> omega

end Sys2Proof.Machine
end

