-- ==== Sys2Proof/Laws/Memory.lean ====
section
/-! SUPPORT. The laws of byte storage: a read after a write, the canonical form kept by every write, and the same for
writes of several bytes and for `DBUF`. -/

namespace Sys2Proof.Machine

@[simp] theorem Mem.read?_nil (a : Nat) : Mem.read? [] a = none := rfl

@[simp] theorem Mem.read?_write_same (m : Mem) (a : Nat) (v : Byte) : (m.write a v).read? a = some v := by
  induction m with
  | nil => simp [Mem.write, Mem.read?]
  | cons c rest ih =>
    obtain ⟨b, w⟩ := c
    simp only [Mem.write]
    split
    · simp [Mem.read?]
    · split
      · simp [Mem.read?]
      · simp [Mem.read?, *]

theorem Mem.read?_write_ne (m : Mem) {a c : Nat} (v : Byte) (h : c ≠ a) : (m.write a v).read? c = m.read? c := by
  induction m with
  | nil => simp [Mem.write, Mem.read?, h]
  | cons d rest ih =>
    obtain ⟨b, w⟩ := d
    simp only [Mem.write]
    split
    · simp [Mem.read?, h]
    · split
      · rename_i hab
        subst hab
        simp [Mem.read?, h]
      · simp [Mem.read?, ih]

/-- Every entry of a written storage is the written one or was there before. -/
theorem Mem.mem_write {m : Mem} {a : Nat} {v : Byte} {c : Host.Cell} (h : c ∈ m.write a v) : c = (a, v) ∨ c ∈ m := by
  induction m with
  | nil => simpa [Mem.write] using h
  | cons d rest ih =>
    obtain ⟨b, w⟩ := d
    simp only [Mem.write] at h
    split at h
    · simpa using h
    · split at h
      · rcases List.mem_cons.1 h with h | h
        · exact .inl h
        · exact .inr (List.mem_cons_of_mem _ h)
      · rcases List.mem_cons.1 h with h | h
        · exact .inr (h ▸ List.mem_cons_self)
        · rcases ih h with h | h
          · exact .inl h
          · exact .inr (List.mem_cons_of_mem _ h)

/-- A write keeps the canonical form. -/
theorem Mem.write_wf {m : Mem} (a : Nat) (v : Byte) (h : m.Wf) : (m.write a v).Wf := by
  induction m with
  | nil => simp [Mem.write, Mem.Wf]
  | cons d rest ih =>
    obtain ⟨b, w⟩ := d
    obtain ⟨hb, hrest⟩ := List.pairwise_cons.1 h
    simp only [Mem.write]
    split
    · rename_i hab
      refine List.pairwise_cons.2 ⟨fun c hc => ?_, h⟩
      rcases List.mem_cons.1 hc with rfl | hc
      · exact hab
      · exact Nat.lt_trans hab (hb c hc)
    · split
      · rename_i hab
        subst hab
        exact List.pairwise_cons.2 ⟨hb, hrest⟩
      · refine List.pairwise_cons.2 ⟨fun c hc => ?_, ih hrest⟩
        rcases Mem.mem_write hc with rfl | hc
        · show b < a
          omega
        · exact hb c hc

/-- A write inside a bound keeps every index inside it. -/
theorem Mem.write_bound {m : Mem} {n : Nat} {a : Nat} (v : Byte) (ha : a < n) (h : ∀ c ∈ m, c.1 < n) :
    ∀ c ∈ m.write a v, c.1 < n := by
  intro c hc
  rcases Mem.mem_write hc with rfl | hc
  · exact ha
  · exact h c hc

/-- Two storages in canonical form with the same contents are the same list. -/
theorem Mem.ext_of_wf {m m' : Mem} (h : m.Wf) (h' : m'.Wf) (heq : ∀ a, m.read? a = m'.read? a) : m = m' := by
  have absent : ∀ {b : Nat} {r : Mem}, (∀ c ∈ r, b < c.1) → ∀ a ≤ b, Mem.read? r a = none := by
    intro b r hr a ha
    induction r with
    | nil => rfl
    | cons c rest ih =>
      have := hr c List.mem_cons_self
      obtain ⟨x, y⟩ := c
      simp only [Mem.read?]
      rw [if_neg (by simp at this; omega)]
      exact ih fun c hc => hr c (List.mem_cons_of_mem _ hc)
  induction m generalizing m' with
  | nil =>
    cases m' with
    | nil => rfl
    | cons c rest =>
      obtain ⟨b, w⟩ := c
      simpa [Mem.read?] using heq b
  | cons c rest ih =>
    obtain ⟨b, w⟩ := c
    obtain ⟨hb, hrest⟩ := List.pairwise_cons.1 h
    cases m' with
    | nil => simpa [Mem.read?] using heq b
    | cons c' rest' =>
      obtain ⟨b', w'⟩ := c'
      obtain ⟨hb', hrest'⟩ := List.pairwise_cons.1 h'
      have hbb : b = b' := by
        rcases Nat.lt_trichotomy b b' with hlt | heq' | hlt
        · have := heq b
          rw [Mem.read?, Mem.read?, if_pos rfl, if_neg (by omega), absent hb' b (by omega)] at this
          cases this
        · exact heq'
        · have := heq b'
          rw [Mem.read?, Mem.read?, if_pos rfl, if_neg (by omega), absent hb b' (by omega)] at this
          cases this
      subst hbb
      have hw : w = w' := by simpa [Mem.read?] using heq b
      subst hw
      congr 1
      refine ih hrest hrest' fun a => ?_
      by_cases hab : a = b
      · subst hab
        rw [absent hb a (by omega), absent hb' a (by omega)]
      · simpa [Mem.read?, hab] using heq a

/-! ### Writes of several bytes -/

/-- What every index holds after a write of several bytes. -/
theorem Mem.read?_writeList (m : Mem) (a : Nat) (bytes : List Byte) (c : Nat) :
    (m.writeList a bytes).read? c = if c < a then m.read? c else (bytes[c - a]?).or (m.read? c) := by
  induction bytes generalizing m a with
  | nil => simp [Mem.writeList]
  | cons v rest ih =>
    rw [Mem.writeList, ih]
    rcases Nat.lt_trichotomy c a with h | h | h
    · rw [if_pos (by omega), if_pos h, Mem.read?_write_ne _ _ (by omega)]
    · subst h
      simp
    · rw [if_neg (by omega), if_neg (by omega), Mem.read?_write_ne _ _ (by omega)]
      obtain ⟨k, hk⟩ : ∃ k, c - a = k + 1 := ⟨c - a - 1, by omega⟩
      rw [hk, show c - (a + 1) = k by omega]
      simp

/-- A write of several bytes keeps the canonical form. -/
theorem Mem.writeList_wf {m : Mem} (a : Nat) (bytes : List Byte) (h : m.Wf) : (m.writeList a bytes).Wf := by
  induction bytes generalizing m a with
  | nil => exact h
  | cons v rest ih => exact ih (a + 1) (Mem.write_wf a v h)

/-- A write of several bytes inside a bound keeps every index inside it. -/
theorem Mem.writeList_bound {m : Mem} {n : Nat} (a : Nat) (bytes : List Byte) (ha : a + bytes.length ≤ n)
    (h : ∀ c ∈ m, c.1 < n) : ∀ c ∈ m.writeList a bytes, c.1 < n := by
  induction bytes generalizing m a with
  | nil => exact h
  | cons v rest ih =>
    simp only [List.length_cons] at ha
    exact ih (a + 1) (by omega) (Mem.write_bound v (by omega) h)

/-! ### `DBUF` -/

/-- What every byte of `DBUF` holds after bytes are stored from index `i`. -/
theorem dbufByte_storeDbuf (s : State) (i : Nat) (bytes : List Byte) (a : Nat) :
    (s.storeDbuf i bytes).dbufByte a = if a < i then s.dbufByte a else (bytes[a - i]?).getD (s.dbufByte a) := by
  simp only [State.dbufByte, State.storeDbuf, Mem.byteAt, Mem.read?_writeList]
  split
  · rfl
  · cases bytes[a - i]? <;> simp

theorem dbufRange_length (s : State) (i n : Nat) : (s.dbufRange i n).length = n := by simp [State.dbufRange]

theorem dbufRange_getElem? (s : State) (i n k : Nat) (h : k < n) : (s.dbufRange i n)[k]? = some (s.dbufByte (i + k)) := by
  simp [State.dbufRange, h]

end Sys2Proof.Machine
end

