-- ==== Sys2Proof/Laws/Ring.lean ====
section
/-! SUPPORT. A ring is a queue: on a ring that meets its invariant `enq` (R121) appends the prefix that fits and `deq`
(R122) removes the oldest bytes, and both keep the invariant (R23). -/

namespace Sys2Proof.Machine

/-! ### Indices -/

theorem Ring.slot_lt {g : Ring} (h : 0 < g.cap.toNat) (k : Nat) : g.slot k < g.cap.toNat := Nat.mod_lt _ h

/-- Two stored positions have different slots. -/
theorem Ring.slot_injective {g : Ring} {i j : Nat} (hi : i < g.cap.toNat) (hj : j < g.cap.toNat)
    (h : g.slot i = g.slot j) : i = j := by
  have hmod : i ≡ j [MOD g.cap.toNat] := Nat.ModEq.add_left_cancel' g.head.toNat h
  rwa [Nat.ModEq, Nat.mod_eq_of_lt hi, Nat.mod_eq_of_lt hj] at hmod

theorem Ring.adv_toNat {g : Ring} (h : 0 < g.cap.toNat) (i : Byte) : (g.adv i).toNat = (i.toNat + 1) % g.cap.toNat := by
  have hc : g.cap.toNat < 256 := g.cap.isLt
  have := Nat.mod_lt (i.toNat + 1) h
  rw [Ring.adv, BitVec.toNat_ofNat, Nat.mod_eq_of_lt (by omega)]

/-! ### One byte in -/

/-- Store one byte and count it. -/
def Ring.put (g : Ring) (b : Byte) : Ring := { g.push b with count := BitVec.ofNat 8 (g.count.toNat + 1) }

@[simp] theorem Ring.put_cap (g : Ring) (b : Byte) : (g.put b).cap = g.cap := rfl
@[simp] theorem Ring.put_head (g : Ring) (b : Byte) : (g.put b).head = g.head := rfl
@[simp] theorem Ring.put_mem (g : Ring) (b : Byte) : (g.put b).mem = g.mem.write g.tail.toNat b := rfl
@[simp] theorem Ring.put_tail (g : Ring) (b : Byte) : (g.put b).tail = g.adv g.tail := rfl
@[simp] theorem Ring.put_slot (g : Ring) (b : Byte) (k : Nat) : (g.put b).slot k = g.slot k := rfl

theorem Ring.put_count {g : Ring} (b : Byte) (h : g.count.toNat < g.cap.toNat) :
    (g.put b).count.toNat = g.count.toNat + 1 := by
  have hc : g.cap.toNat < 256 := g.cap.isLt
  show (BitVec.ofNat 8 (g.count.toNat + 1)).toNat = _
  rw [BitVec.toNat_ofNat, Nat.mod_eq_of_lt (by omega)]

/-- A read of a stored slot is unchanged by storing one more byte. -/
theorem Ring.put_read {g : Ring} (b : Byte) (hg : g.Ok) (hroom : g.count.toNat < g.cap.toNat) {k : Nat}
    (hk : k < g.count.toNat) : Mem.read? (g.put b).mem (g.slot k) = Mem.read? g.mem (g.slot k) := by
  refine Mem.read?_write_ne _ _ fun h => ?_
  obtain ⟨-, -, -, htail, -⟩ := hg
  have := Ring.slot_injective (by omega) hroom (h.trans htail)
  omega

theorem Ring.put_ok {g : Ring} (b : Byte) (hg : g.Ok) (hroom : g.count.toNat < g.cap.toNat) : (g.put b).Ok := by
  have hcount := Ring.put_count b hroom
  have hread := fun k hk => Ring.put_read (k := k) b hg hroom hk
  obtain ⟨⟨hc1, hc2⟩, hcc, ⟨hh, ht⟩, htail, ⟨hwf, hb⟩, hlist⟩ := hg
  have htl : (g.put b).tail.toNat = (g.tail.toNat + 1) % g.cap.toNat := Ring.adv_toNat (by omega) _
  refine ⟨⟨hc1, hc2⟩, ?_, ⟨hh, ?_⟩, ?_, ⟨Mem.write_wf _ _ hwf, Mem.write_bound _ (by omega) hb⟩, ?_⟩
  · rw [hcount]
    exact hroom
  · rw [htl]
    exact Nat.mod_lt _ (by omega)
  · rw [htl, hcount, htail, Ring.put_head, Ring.put_cap]
    simp [Nat.add_assoc]
  · intro k hk
    rw [Ring.put_slot]
    by_cases hlast : k < g.count.toNat
    · rw [hread k hlast]
      exact hlist k hlast
    · have hk' : k = g.count.toNat := by omega
      have : g.slot k = g.tail.toNat := by rw [hk', htail, Ring.slot]
      rw [this, Ring.put_mem, Mem.read?_write_same]
      rfl

theorem Ring.put_stored {g : Ring} (free : Nat → Byte) (b : Byte) (hg : g.Ok) (hroom : g.count.toNat < g.cap.toNat) :
    (g.put b).stored free = g.stored free ++ [b] := by
  rw [Ring.stored, Ring.put_count b hroom, List.range_succ, List.map_append, Ring.stored]
  congr 1
  · refine List.map_congr_left fun k hk => ?_
    rw [Ring.put_slot, Mem.byteAt, Mem.byteAt, Ring.put_read b hg hroom (List.mem_range.1 hk)]
  · obtain ⟨-, -, -, htail, -⟩ := hg
    have : (g.put b).slot g.count.toNat = g.tail.toNat := by rw [Ring.put_slot, htail, Ring.slot]
    rw [List.map_singleton, this, Mem.byteAt, Ring.put_mem, Mem.read?_write_same]
    rfl

/-! ### `enq` (R121) -/

theorem Ring.push_count (g : Ring) (b : Byte) : (g.push b).count = g.count := rfl

/-- Counting the stored bytes at the end, as R121 does, or one at a time, is the same. -/
theorem Ring.foldl_push_eq (g : Ring) (l : List Byte) (h : g.count.toNat + l.length < 256) :
    (l.foldl Ring.push g).withCount (g.count.toNat + l.length) = l.foldl Ring.put g := by
  have swap : ∀ (l : List Byte) (g : Ring) (c d : Nat),
      (l.foldl Ring.push (g.withCount c)).withCount d = (l.foldl Ring.push g).withCount d := by
    intro l
    induction l with
    | nil => intros; rfl
    | cons b rest ih => intro g c d; exact ih (g.push b) c d
  induction l generalizing g with
  | nil =>
    obtain ⟨cap, head, tail, count, mem⟩ := g
    simp [Ring.withCount]
  | cons b rest ih =>
    simp only [List.length_cons] at h
    have hc : (g.put b).count.toNat = g.count.toNat + 1 := by
      show (BitVec.ofNat 8 (g.count.toNat + 1)).toNat = _
      rw [BitVec.toNat_ofNat, Nat.mod_eq_of_lt (by omega)]
    rw [List.foldl_cons, List.foldl_cons, ← ih (g.put b) (by omega), hc, List.length_cons,
      show g.put b = (g.push b).withCount (g.count.toNat + 1) from rfl, swap]
    congr 1
    omega

/-- Several bytes that fit, stored one at a time. -/
theorem Ring.foldl_put {g : Ring} (free : Nat → Byte) (l : List Byte) (hg : g.Ok)
    (hroom : g.count.toNat + l.length ≤ g.cap.toNat) :
    (l.foldl Ring.put g).Ok ∧ (l.foldl Ring.put g).stored free = g.stored free ++ l ∧
      (l.foldl Ring.put g).cap = g.cap ∧ (l.foldl Ring.put g).head = g.head ∧
      (l.foldl Ring.put g).count.toNat = g.count.toNat + l.length := by
  induction l generalizing g with
  | nil =>
    simp only [List.foldl_nil, List.append_nil, List.length_nil, Nat.add_zero, and_self, and_true]
    exact hg
  | cons b rest ih =>
    simp only [List.length_cons] at hroom
    have hr : g.count.toNat < g.cap.toNat := by omega
    have hcount := Ring.put_count b hr
    obtain ⟨h1, h2, h3, h4, h5⟩ := ih (g := g.put b) (Ring.put_ok b hg hr) (by rw [hcount, Ring.put_cap]; omega)
    refine ⟨h1, ?_, h3, h4, ?_⟩
    · rw [List.foldl_cons, h2, Ring.put_stored free b hg hr, List.append_assoc]
      rfl
    · rw [List.foldl_cons, h5, hcount, List.length_cons]
      omega

theorem Ring.enq_written (g : Ring) (l : List Byte) : (g.enq l).2 = min l.length (g.cap.toNat - g.count.toNat) := rfl

/-- All that `enq` does to a ring that meets its invariant (R121, R23). -/
theorem Ring.enq_spec {g : Ring} (free : Nat → Byte) (l : List Byte) (hg : g.Ok) :
    (g.enq l).1.Ok ∧ (g.enq l).1.stored free = g.stored free ++ l.take (g.enq l).2 ∧
      (g.enq l).1.cap = g.cap ∧ (g.enq l).1.head = g.head ∧
      (g.enq l).1.count.toNat = g.count.toNat + (g.enq l).2 := by
  have hcap : g.cap.toNat < 256 := g.cap.isLt
  have hcc : g.count.toNat ≤ g.cap.toNat := hg.2.1
  have hlen : (l.take (g.room l.length)).length = g.room l.length := by
    rw [List.length_take]
    unfold Ring.room
    omega
  have hroom : g.room l.length ≤ g.cap.toNat - g.count.toNat := Nat.min_le_right _ _
  have heq : (g.enq l).1 = (l.take (g.room l.length)).foldl Ring.put g := by
    rw [← Ring.foldl_push_eq g _ (by rw [hlen]; omega), hlen]
    rfl
  have := Ring.foldl_put free (l.take (g.room l.length)) hg (by rw [hlen]; omega)
  rw [hlen] at this
  rw [heq]
  exact this

/-! ### One byte out, and `deq` (R122) -/

/-- Remove one byte. -/
def Ring.drop1 (g : Ring) : Ring := { g with head := g.adv g.head, count := BitVec.ofNat 8 (g.count.toNat - 1) }

theorem Ring.drop1_count (g : Ring) : g.drop1.count.toNat = g.count.toNat - 1 := by
  have hc : g.count.toNat < 256 := g.count.isLt
  show (BitVec.ofNat 8 (g.count.toNat - 1)).toNat = _
  rw [BitVec.toNat_ofNat, Nat.mod_eq_of_lt (by omega)]

theorem Ring.drop1_slot {g : Ring} (h : 0 < g.cap.toNat) (k : Nat) : g.drop1.slot k = g.slot (k + 1) := by
  have hadv : g.drop1.head.toNat = (g.head.toNat + 1) % g.cap.toNat := Ring.adv_toNat h _
  show (g.drop1.head.toNat + k) % g.cap.toNat = _
  rw [hadv, Ring.slot, Nat.mod_add_mod]
  congr 1
  omega

theorem Ring.drop1_ok {g : Ring} (hg : g.Ok) (h : 0 < g.count.toNat) : g.drop1.Ok := by
  have hcount := Ring.drop1_count g
  obtain ⟨⟨hc1, hc2⟩, hcc, ⟨hh, ht⟩, htail, hmem, hlist⟩ := hg
  have hadv : g.drop1.head.toNat = (g.head.toNat + 1) % g.cap.toNat := Ring.adv_toNat (by omega) _
  refine ⟨⟨hc1, hc2⟩, ?_, ⟨?_, ht⟩, ?_, hmem, ?_⟩
  · rw [hcount]
    show _ ≤ g.cap.toNat
    omega
  · rw [hadv]
    exact Nat.mod_lt _ (by omega)
  · show g.tail.toNat = (g.drop1.head.toNat + g.drop1.count.toNat) % g.cap.toNat
    rw [hadv, hcount, htail, Nat.mod_add_mod]
    congr 1
    omega
  · intro k hk
    rw [Ring.drop1_slot (by omega)]
    exact hlist (k + 1) (by omega)

theorem Ring.stored_length (free : Nat → Byte) (g : Ring) : (g.stored free).length = g.count.toNat := by
  simp [Ring.stored]

theorem Ring.stored_eq_cons {g : Ring} (free : Nat → Byte) (hg : g.Ok) (h : 0 < g.count.toNat) :
    g.stored free = Mem.byteAt free g.mem g.head.toNat :: g.drop1.stored free := by
  obtain ⟨n, hn⟩ : ∃ n, g.count.toNat = n + 1 := ⟨g.count.toNat - 1, by omega⟩
  have hhead : g.slot 0 = g.head.toNat := by
    rw [Ring.slot, Nat.add_zero]
    exact Nat.mod_eq_of_lt hg.2.2.1.1
  rw [Ring.stored, Ring.stored, hn, Ring.drop1_count, hn, Nat.add_sub_cancel, List.range_succ_eq_map, List.map_cons,
    hhead, List.map_map]
  congr 1
  refine List.map_congr_left fun k _ => ?_
  rw [Ring.drop1_slot (by have := hg.1.1; omega)]
  rfl

/-- `popMany` neither reads nor writes the count. -/
theorem Ring.popMany_count (free : Nat → Byte) (m c : Nat) (g : Ring) :
    Ring.popMany free m (g.withCount c) = ((Ring.popMany free m g).1, (Ring.popMany free m g).2.withCount c) := by
  induction m generalizing g with
  | zero => rfl
  | succ m ih =>
    have := ih { g with head := g.adv g.head }
    simp only [Ring.popMany]
    exact congrArg (fun r => (Mem.byteAt free g.mem g.head.toNat :: r.1, r.2)) this

/-- All that removing `m` stored bytes does. -/
theorem Ring.popMany_spec {g : Ring} (free : Nat → Byte) (m : Nat) (hg : g.Ok) (hm : m ≤ g.count.toNat) :
    let after := (Ring.popMany free m g).2.withCount (g.count.toNat - m)
    (Ring.popMany free m g).1 = (g.stored free).take m ∧ after.Ok ∧ after.stored free = (g.stored free).drop m ∧
      after.cap = g.cap ∧ after.tail = g.tail ∧ after.mem = g.mem ∧ after.count.toNat = g.count.toNat - m := by
  induction m generalizing g with
  | zero =>
    have : g.withCount g.count.toNat = g := by simp [Ring.withCount]
    simp only [Ring.popMany, Nat.sub_zero, this, List.take_zero, List.drop_zero, and_self, and_true, true_and]
    exact hg
  | succ m ih =>
    have hpos : 0 < g.count.toNat := by omega
    have hcount := Ring.drop1_count g
    have hsub : g.drop1.count.toNat - m = g.count.toNat - (m + 1) := by omega
    have hrec := ih (g := g.drop1) (Ring.drop1_ok hg hpos) (by omega)
    have hdrop : g.drop1 = { g with head := g.adv g.head }.withCount (g.count.toNat - 1) := rfl
    rw [hsub, hdrop, Ring.popMany_count, ← hdrop] at hrec
    obtain ⟨h1, h2, h3, h4, h5, h6, h7⟩ := hrec
    refine ⟨?_, h2, ?_, h4, h5, h6, h7⟩
    · rw [Ring.stored_eq_cons free hg hpos, List.take_succ_cons, ← h1]
      rfl
    · rw [Ring.stored_eq_cons free hg hpos, List.drop_succ_cons, ← h3]
      rfl

/-- All that `deq` does to a ring that meets its invariant (R122, R23). -/
theorem Ring.deq_spec {g : Ring} (free : Nat → Byte) (n : Nat) (hg : g.Ok) :
    (g.deq free n).1 = (g.stored free).take n ∧ (g.deq free n).2.Ok ∧
      (g.deq free n).2.stored free = (g.stored free).drop n ∧ (g.deq free n).2.cap = g.cap ∧
      (g.deq free n).2.tail = g.tail ∧ (g.deq free n).2.mem = g.mem ∧
      (g.deq free n).2.count.toNat = g.count.toNat - n := by
  have hlen := Ring.stored_length free g
  obtain ⟨h1, h2, h3, h4, h5, h6, h7⟩ := Ring.popMany_spec free (min n g.count.toNat) hg (Nat.min_le_right _ _)
  refine ⟨?_, h2, ?_, h4, h5, h6, ?_⟩
  · refine h1.trans ?_
    rw [← hlen, ← List.take_eq_take_min]
  · refine h3.trans ?_
    rw [← hlen]
    rcases Nat.le_total n (g.stored free).length with h | h
    · rw [Nat.min_eq_left h]
    · rw [Nat.min_eq_right h, List.drop_length, List.drop_eq_nil_of_le h]
  · refine h7.trans ?_
    omega

/-- The storage of a ring at reset is never observed: what a ring holds does not depend on it (R44, R133). -/
theorem Ring.stored_free_irrelevant {g : Ring} (hg : g.Ok) (free free' : Nat → Byte) :
    g.stored free = g.stored free' := by
  refine List.map_congr_left fun k hk => ?_
  have := hg.2.2.2.2.2 k (List.mem_range.1 hk)
  rw [Mem.byteAt, Mem.byteAt]
  cases h : Mem.read? g.mem (g.slot k) with
  | none => simp [h] at this
  | some b => rfl

/-- `RB_INIT`'s effect keeps the invariant (R125, R23). -/
theorem Ring.init_ok {g : Ring} {cap : Byte} (hg : g.Ok) (h1 : 1 ≤ cap.toNat) (h2 : cap.toNat ≤ Config.capMax) :
    (g.init cap).Ok := by
  obtain ⟨-, -, -, -, hmem, -⟩ := hg
  refine ⟨⟨h1, h2⟩, ?_, ⟨?_, ?_⟩, ?_, hmem, ?_⟩ <;> simp [Ring.init] <;> omega

theorem Ring.init_stored (free : Nat → Byte) (g : Ring) (cap : Byte) : (g.init cap).stored free = [] := by
  simp [Ring.init, Ring.stored]

end Sys2Proof.Machine
end

