-- ==== Sys2Proof/Laws/Ops.lean ====
section
/-! SUPPORT. What each shared operation of the block can do, said once: the ring primitives on the block's rings, arming,
the output of bytes to `DBUF`, the command dispatch; and that each keeps the block's invariant. -/

namespace Sys2Proof.Machine

/-! ### Commands -/

/-- The meaning of a decoded command is its effect (R95). -/
theorem exec_toInstr (c : Command) (s : State) : exec c.toInstr s = .next (runCommand c s) := by
  obtain ⟨op, idx, len, imm⟩ := c
  cases op <;> rfl

/-- The meaning of a `CMD` write (R95, R96). -/
theorem exec_st32Cmd (w : Word) (s : State) : exec (.st32Cmd w) s = .next (cmdWritten w s) := rfl

theorem cmdWritten_legal {w : Word} {c : Command} (s : State) (h : decodeCommand w = some c) :
    cmdWritten w s = runCommand c s := by rw [cmdWritten, h]

theorem cmdWritten_illegal {w : Word} (s : State) (h : legalWord w = false) :
    cmdWritten w s = s.finish .badCmd 0#32 := by rw [cmdWritten, decodeCommand_eq_none.2 h]

theorem operate_cmdWrite (w : Word) (s : State) : operate (cmdWrite w) s = exec (cmdWriteInstr w) s := by
  rw [operate, decode_cmdWrite]

/-! ### Byte ranges of `DBUF` -/

theorem dbufRange_eq (s : State) (i n : Nat) : s.dbufRange i n = (List.range n).map (fun k => s.dbufByte (i + k)) := by
  rw [State.dbufRange, List.range'_eq_map_range, List.map_map]
  rfl

theorem inputBytes_eq (s : State) (n : Byte) : s.inputBytes n = s.firstBytes n.toNat := by
  rw [State.inputBytes, dbufRange_eq, State.firstBytes]
  simp

@[simp] theorem firstBytes_length (s : State) (n : Nat) : (s.firstBytes n).length = n := by simp [State.firstBytes]

@[simp] theorem firstBytes_getElem? (s : State) {n k : Nat} (h : k < n) : (s.firstBytes n)[k]? = some (s.dbufByte k) := by
  simp [State.firstBytes, h]

/-- What `DBUF` holds after a command left its output (R25). -/
theorem dbufByte_outputBytes (s : State) (bytes : List Byte) (a : Nat) :
    (s.outputBytes bytes).dbufByte a = (bytes[a]?).getD (s.dbufByte a) := by
  rw [State.outputBytes, dbufByte_storeDbuf]
  simp

theorem radioWindow_eq (s : State) (w : Fin 2) : s.radioWindow w = (s.firstBytes 66).drop w.val := by
  have hw : w.val < 2 := w.isLt
  apply List.ext_getElem?
  intro k
  rw [State.radioWindow, dbufRange_eq, State.firstBytes, List.getElem?_drop, List.getElem?_map, List.getElem?_map]
  show ((List.range (66 - w.val))[k]?).map _ = _
  by_cases h : k < 66 - w.val
  · rw [List.getElem?_range h, List.getElem?_range (show w.val + k < 66 by omega)]
    rfl
  · rw [List.getElem?_eq_none (by simpa using h), List.getElem?_eq_none (by simp; omega)]
    rfl

/-! ### Ring primitives on the block -/

/-- A slot the loop of `enq` does not store to keeps its byte (R121). -/
theorem Ring.foldl_put_read {g : Ring} (l : List Byte) (hg : g.Ok) (hroom : g.count.toNat + l.length ≤ g.cap.toNat)
    {a : Nat} (ha : ∀ k < l.length, a ≠ g.slot (g.count.toNat + k)) :
    Mem.read? (l.foldl Ring.put g).mem a = Mem.read? g.mem a := by
  induction l generalizing g with
  | nil => rfl
  | cons b rest ih =>
    simp only [List.length_cons] at hroom ha
    have hr : g.count.toNat < g.cap.toNat := by omega
    have hcount := Ring.put_count b hr
    have h0 : a ≠ g.tail.toNat := by
      have := ha 0 (by omega)
      rwa [Nat.add_zero, Ring.slot, ← hg.2.2.2.1] at this
    rw [List.foldl_cons, ih (Ring.put_ok b hg hr) (by rw [hcount, Ring.put_cap]; omega), Ring.put_mem,
      Mem.read?_write_ne _ _ h0]
    intro k hk
    rw [hcount, Ring.put_slot, show g.count.toNat + 1 + k = g.count.toNat + (k + 1) by omega]
    exact ha (k + 1) (by omega)

/-- A slot `enq` does not store to keeps its byte (R121). -/
theorem Ring.enq_read {g : Ring} (l : List Byte) (hg : g.Ok) {a : Nat}
    (ha : ∀ k < (g.enq l).2, a ≠ g.slot (g.count.toNat + k)) :
    Mem.read? (g.enq l).1.mem a = Mem.read? g.mem a := by
  have hcap : g.cap.toNat < 256 := g.cap.isLt
  have hcc : g.count.toNat ≤ g.cap.toNat := hg.2.1
  have hlen : (l.take (g.room l.length)).length = g.room l.length := by
    rw [List.length_take]
    unfold Ring.room
    omega
  have hroom : g.room l.length ≤ g.cap.toNat - g.count.toNat := Nat.min_le_right _ _
  have heq : (g.enq l).1 = (l.take (g.room l.length)).foldl Ring.put g := by
    rw [← Ring.foldl_push_eq g _ (by rw [hlen]; omega), hlen]
    rfl
  rw [heq]
  exact Ring.foldl_put_read _ hg (by rw [hlen]; omega) fun k hk => ha k (by rw [hlen] at hk; exact hk)

/-- The tail after `enq` (R121). -/
theorem Ring.enq_tail {g : Ring} (l : List Byte) (hg : g.Ok) :
    (g.enq l).1.tail.toNat = g.slot (g.count.toNat + (g.enq l).2) := by
  obtain ⟨h1, -, h3, h4, h5⟩ := Ring.enq_spec (fun _ => 0#8) l hg
  have := h1.2.2.2.1
  rw [h3, h4, h5] at this
  exact this

/-- The head after `deq` (R122). -/
theorem Ring.popMany_head (free : Nat → Byte) (m : Nat) {g : Ring} (h : 0 < g.cap.toNat) (hh : g.head.toNat < g.cap.toNat) :
    (Ring.popMany free m g).2.head.toNat = g.slot m := by
  induction m generalizing g with
  | zero =>
    rw [Ring.slot, Nat.add_zero, Nat.mod_eq_of_lt hh]
    rfl
  | succ m ih =>
    have hadv := Ring.adv_toNat h g.head
    have hlt : (g.adv g.head).toNat < g.cap.toNat := by
      rw [hadv]
      exact Nat.mod_lt _ h
    have := ih (g := { g with head := g.adv g.head }) h hlt
    refine this.trans ?_
    show ((g.adv g.head).toNat + m) % g.cap.toNat = _
    rw [hadv, Nat.mod_add_mod, Ring.slot]
    congr 1
    omega

/-- The head after `deq` (R122). -/
theorem Ring.deq_head (free : Nat → Byte) (n : Nat) {g : Ring} (hg : g.Ok) :
    (g.deq free n).2.head.toNat = g.slot (min n g.count.toNat) :=
  Ring.popMany_head free _ (by have := hg.1.1; omega) hg.2.2.1.1

/-- How many bytes `deq` removes (R122). -/
theorem Ring.deq_length (free : Nat → Byte) (n : Nat) {g : Ring} (hg : g.Ok) :
    (g.deq free n).1.length = min n g.count.toNat := by
  rw [(Ring.deq_spec free n hg).1, List.length_take, Ring.stored_length]

/-- `enq` on a ring of the block changes that ring alone (R121). -/
theorem State.enq_eq (s : State) (r : Fin Config.nRings) (l : List Byte) :
    s.enq r l = (s.setRing r ((s.ring r).enq l).1, ((s.ring r).enq l).2) := rfl

/-- `deq` on a ring of the block changes that ring alone (R122). -/
theorem State.deq_eq (s : State) (r : Fin Config.nRings) (n : Nat) :
    s.deq r n = (((s.ring r).deq (s.ringFree r) n).1, s.setRing r ((s.ring r).deq (s.ringFree r) n).2) := rfl

/-- Arming sets `TXBUSY` when a byte was stored, and nothing else (R152). -/
theorem State.armIfStored_eq (s : State) (p : Fin Config.nPorts) (w : Nat) :
    s.armIfStored p w = s.setPort p { s.port p with txbusy := (s.port p).txbusy || decide (1 ≤ w) } := by
  unfold State.armIfStored
  split
  · rename_i h
    simp [Port.arm, h.1]
  · rename_i h
    have hbusy : ((s.port p).txbusy || decide (1 ≤ w)) = (s.port p).txbusy := by
      cases hb : (s.port p).txbusy
      · have hw : ¬ 1 ≤ w := fun hw => h ⟨hw, hb⟩
        simp [hw]
      · rfl
    rw [hbusy]
    exact (setPort_port_self s p).symm

/-- `txwrite` is an enqueue on the TX ring and the arming of the port (R152). -/
theorem State.txwrite_eq (s : State) (p : Fin Config.nPorts) (l : List Byte) :
    s.txwrite p l =
      ((s.setRing (txRing p) ((s.ring (txRing p)).enq l).1).setPort p
        { s.port p with txbusy := (s.port p).txbusy || decide (1 ≤ ((s.ring (txRing p)).enq l).2) },
        ((s.ring (txRing p)).enq l).2) := by
  rw [State.txwrite, State.enq_eq, State.armIfStored_eq]
  rfl

theorem emitAll_singleton (s : State) (p : Fin Config.nPorts) (b : Byte) :
    s.emitAll p [b] = s.setPort p { s.port p with lineOut := (s.port p).lineOut ++ [b] } := rfl

/-! ### The invariant under the parts of an operation -/

theorem Inv_setRing {s : State} {r : Fin Config.nRings} {g : Ring} (h : s.Inv) (hg : g.Ok) : (s.setRing r g).Inv := by
  obtain ⟨h1, h2⟩ := h
  refine ⟨fun r' => ?_, h2⟩
  by_cases hr : r' = r
  · subst hr
    rwa [ring_setRing_same]
  · rw [ring_setRing_ne s g hr]
    exact h1 r'

theorem Inv_setPort {s : State} (p : Fin Config.nPorts) (g : Port) (h : s.Inv) : (s.setPort p g).Inv := h

theorem Inv_returns {s : State} (v : Word) (h : s.Inv) : (s.returns v).Inv := h

theorem code_le (e : Status) : e.code.toNat ≤ 6 := by cases e <;> decide

theorem Inv_finish {s : State} (e : Status) {v : Word} (hv : v.toNat ≤ 255) (h : s.Inv) : (s.finish e v).Inv :=
  ⟨h.1, h.2.1, code_le e, hv⟩

theorem Inv_storeDbuf {s : State} {i : Nat} {bytes : List Byte} (hb : i + bytes.length ≤ 256) (h : s.Inv) :
    (s.storeDbuf i bytes).Inv :=
  ⟨h.1, ⟨Mem.writeList_wf _ _ h.2.1.1, Mem.writeList_bound _ _ hb h.2.1.2⟩, h.2.2⟩

theorem countWord_toNat {n : Nat} (h : n ≤ 255) : (countWord n).toNat = n := by
  rw [countWord, BitVec.toNat_ofNat, Nat.mod_eq_of_lt (by omega)]

/-! ### Frames (R181, R182) -/

theorem payloadField_length {l : List Byte} (h : l.length ≤ 61) : (payloadField l).length = 61 := by
  simp [payloadField, Config.payloadMax]
  omega

theorem frameBody_length {l : List Byte} (t : Byte) (h : l.length ≤ 61) : (frameBody t l).length = 62 := by
  rw [frameBody, List.length_cons, payloadField_length h]

theorem frameWith_length {l : List Byte} (k : ChecksumKind) (t : Byte) (h : l.length ≤ 61) :
    (frameWith k t l).length = 63 := by
  rw [frameWith, List.length_append, frameBody_length t h]
  rfl

theorem envelopeWith_length {l : List Byte} (k : ChecksumKind) (a : Half) (c t : Byte) (h : l.length ≤ 61) :
    (envelopeWith k a c t l).length = 66 := by
  rw [envelopeWith, List.length_append, frameWith_length k t h]
  rfl

theorem payloadField_getElem? {l : List Byte} {k : Nat} (h : l.length ≤ 61) (hk : k < 61) :
    (payloadField l)[k]? = some ((l[k]?).getD 0x00#8) := by
  rw [payloadField, Config.payloadMax]
  by_cases hl : k < l.length
  · rw [List.getElem?_append_left hl, List.getElem?_eq_getElem hl]
    rfl
  · rw [List.getElem?_append_right (by omega), List.getElem?_replicate, if_pos (by omega),
      List.getElem?_eq_none (by omega)]
    rfl

/-- A frame, byte by byte (R181). -/
theorem frameWith_getElem? {l : List Byte} (k : ChecksumKind) (t : Byte) (h : l.length ≤ 61) :
    (frameWith k t l)[0]? = some t ∧ (∀ j < 61, (frameWith k t l)[1 + j]? = some ((l[j]?).getD 0x00#8)) ∧
      (frameWith k t l)[62]? = some (ckWith k (frameBody t l)) := by
  have hb := frameBody_length t h
  refine ⟨rfl, fun j hj => ?_, ?_⟩
  · rw [frameWith, List.getElem?_append_left (by omega), frameBody, Nat.add_comm, List.getElem?_cons_succ,
      payloadField_getElem? h hj]
  · rw [frameWith, List.getElem?_append_right (by omega), hb]
    rfl

/-! ### Byte order (R65) -/

theorem append_toNat {n : Nat} (hi : BitVec n) (lo : Byte) : (hi ++ lo).toNat = lo.toNat + 2 ^ 8 * hi.toNat := by
  rw [BitVec.toNat_append, Nat.shiftLeft_eq, Nat.mul_comm, ← Nat.two_pow_add_eq_or_of_lt lo.isLt, Nat.add_comm]

/-- The value of two bytes, the lowest address first. -/
theorem halfOf_toNat (a b : Byte) : (halfOf a b).toNat = a.toNat + 2 ^ 8 * b.toNat := append_toNat b a

/-- The value of four bytes, the lowest address first. -/
theorem wordOf_toNat (a b c d : Byte) :
    (wordOf a b c d).toNat = a.toNat + 2 ^ 8 * b.toNat + 2 ^ 16 * c.toNat + 2 ^ 24 * d.toNat := by
  rw [wordOf, append_toNat, append_toNat, append_toNat]
  omega

/-- Byte `k` of a value. -/
theorem extractByte_eq {n : Nat} (v : BitVec n) (k : Nat) :
    v.extractLsb' (8 * k) 8 = BitVec.ofNat 8 (v.toNat / 2 ^ (8 * k)) := by
  apply BitVec.eq_of_toNat_eq
  rw [BitVec.extractLsb'_toNat, BitVec.toNat_ofNat, Nat.shiftRight_eq_div_pow]

/-! ### Checksums (R210, R211) -/

theorem combWith_comm (k : ChecksumKind) (a b : Byte) : combWith k a b = combWith k b a := by
  cases k
  · exact BitVec.add_comm a b
  · exact BitVec.xor_comm a b

theorem combWith_assoc (k : ChecksumKind) (a b c : Byte) :
    combWith k (combWith k a b) c = combWith k a (combWith k b c) := by
  cases k
  · exact BitVec.add_assoc a b c
  · exact BitVec.xor_assoc a b c

@[simp] theorem combWith_zero (k : ChecksumKind) (a : Byte) : combWith k a 0#8 = a := by
  cases k <;> simp [combWith]

theorem combWith_left_injective (k : ChecksumKind) {a b c : Byte} (h : combWith k a c = combWith k b c) : a = b := by
  cases k
  · exact (BitVec.add_left_inj c).1 h
  · exact (BitVec.xor_left_inj c).1 h

theorem sumFrom_append (k : ChecksumKind) (acc : Byte) (l l' : List Byte) :
    sumFrom k acc (l ++ l') = sumFrom k (sumFrom k acc l) l' := List.foldl_append

/-- The accumulator can be split off a running sum. -/
theorem sumFrom_eq (k : ChecksumKind) (acc : Byte) (l : List Byte) : sumFrom k acc l = combWith k (ckWith k l) acc := by
  induction l generalizing acc with
  | nil => simp [sumFrom, ckWith, combWith_comm k _ acc]
  | cons b rest ih =>
    show sumFrom k (combWith k acc b) rest = combWith k (sumFrom k (combWith k 0x00#8 b) rest) acc
    rw [ih, ih (combWith k 0x00#8 b), combWith_comm k 0x00#8 b, combWith_zero, combWith_assoc, combWith_comm k acc b]

theorem ckWith_cons (k : ChecksumKind) (b : Byte) (l : List Byte) : ckWith k (b :: l) = combWith k (ckWith k l) b := by
  show sumFrom k (combWith k 0x00#8 b) l = _
  rw [sumFrom_eq, combWith_comm k 0x00#8 b, combWith_zero]

/-- Changing one byte changes the checksum. -/
theorem ckWith_set_ne (k : ChecksumKind) {l : List Byte} {i : Nat} {v : Byte} (hi : i < l.length) (hv : v ≠ l[i]) :
    ckWith k (l.set i v) ≠ ckWith k l := by
  induction l generalizing i with
  | nil => simp at hi
  | cons b rest ih =>
    cases i with
    | zero =>
      intro h
      rw [List.set_cons_zero, ckWith_cons, ckWith_cons, combWith_comm k _ v, combWith_comm k _ b] at h
      exact hv (combWith_left_injective k h)
    | succ i =>
      intro h
      rw [List.set_cons_succ, ckWith_cons, ckWith_cons] at h
      exact ih (by simpa using hi) (by simpa using hv) (combWith_left_injective k h)

end Sys2Proof.Machine
end

