-- ==== Sys2Proof/Laws/Events.lean ====
section
/-! SUPPORT. What the line events do to a port (R155, R156), by cases; and what a step does with its next input (R70,
R280). -/

namespace Sys2Proof.Machine

/-! ### The receive event (R156) -/

/-- The receive event over one enqueue. -/
theorem State.receive_eq (s : State) (p : Fin Config.nPorts) (b : Byte) :
    s.receive p b =
      if ((s.ring (rxRing p)).enq [b]).2 = 0 then
        (s.setRing (rxRing p) ((s.ring (rxRing p)).enq [b]).1).setPort p (s.port p).overflow
      else s.setRing (rxRing p) ((s.ring (rxRing p)).enq [b]).1 := rfl

/-- On a full ring the byte is dropped and the overflow recorded. -/
theorem State.receive_of_full {s : State} {p : Fin Config.nPorts} (b : Byte)
    (h : (s.ring (rxRing p)).count = (s.ring (rxRing p)).cap) : s.receive p b = s.setPort p (s.port p).overflow := by
  have hroom : (s.ring (rxRing p)).room 1 = 0 := by simp [Ring.room, h]
  have henq : (s.ring (rxRing p)).enq [b] = (s.ring (rxRing p), 0) := by
    simp [Ring.enq, hroom, Ring.withCount]
  simp only [State.receive, State.enq_eq, henq, setRing_ring_self, if_true]

/-- With room the byte is stored, and nothing else changes. -/
theorem State.receive_of_room {s : State} {p : Fin Config.nPorts} (b : Byte)
    (h : (s.ring (rxRing p)).count.toNat < (s.ring (rxRing p)).cap.toNat) :
    s.receive p b = s.setRing (rxRing p) ((s.ring (rxRing p)).enq [b]).1 := by
  have hone : ((s.ring (rxRing p)).enq [b]).2 ≠ 0 := by
    rw [Ring.enq_written, List.length_singleton]
    omega
  simp only [State.receive, State.enq_eq, hone, if_false]

/-! ### The transmit event (R155) -/

/-- The transmit event over one dequeue. -/
theorem State.txrdy_eq (s : State) (p : Fin Config.nPorts) :
    s.txrdy p =
      if (s.ring (txRing p)).isEmpty = true then s.setPort p (s.port p).disarm
      else
        (s.setRing (txRing p) ((s.ring (txRing p)).deq (s.ringFree (txRing p)) 1).2).setPort p
          (if ((s.ring (txRing p)).deq (s.ringFree (txRing p)) 1).2.isEmpty = true then
            (((s.ring (txRing p)).deq (s.ringFree (txRing p)) 1).1.foldl Port.emit (s.port p)).disarm
          else ((s.ring (txRing p)).deq (s.ringFree (txRing p)) 1).1.foldl Port.emit (s.port p)) := by
  rw [State.txrdy]
  congr 1
  simp only [State.deq_eq, State.emitAll, port_setRing]
  rw [State.disarmIfEmpty]
  simp only [ring_setPort, ring_setRing_same, port_setPort_same]
  split
  · simp [State.setPort]
  · rfl

/-- A ring is empty exactly when it holds no byte (R124). -/
theorem Ring.isEmpty_eq (free : Nat → Byte) (g : Ring) : g.isEmpty = (g.stored free).isEmpty := by
  have hlen := Ring.stored_length free g
  rw [Ring.isEmpty, Bool.eq_iff_iff, beq_iff_eq, List.isEmpty_iff, ← List.length_eq_zero_iff, hlen]
  exact BitVec.toNat_inj.symm

/-- On an empty ring the port is disarmed and emits nothing. -/
theorem State.txrdy_of_empty {s : State} {p : Fin Config.nPorts} (h : s.stored (txRing p) = []) :
    s.txrdy p = s.setPort p (s.port p).disarm := by
  have hempty : (s.ring (txRing p)).isEmpty = true := by
    rw [Ring.isEmpty_eq (s.ringFree (txRing p))]
    exact List.isEmpty_iff.2 h
  rw [State.txrdy, if_pos hempty]

/-- On a ring holding a byte the oldest is removed and emitted, and the port stays armed exactly if others follow. -/
theorem State.txrdy_of_stored {s : State} {p : Fin Config.nPorts} {b : Byte} {rest : List Byte}
    (hg : (s.ring (txRing p)).Ok) (hb : (s.port p).txbusy = true) (h : s.stored (txRing p) = b :: rest) :
    s.txrdy p = (s.setRing (txRing p) ((s.ring (txRing p)).deq (s.ringFree (txRing p)) 1).2).setPort p
      { s.port p with txbusy := !rest.isEmpty, lineOut := (s.port p).lineOut ++ [b] } := by
  obtain ⟨h1, -, h3, -⟩ := Ring.deq_spec (s.ringFree (txRing p)) 1 hg
  replace h : (s.ring (txRing p)).stored (s.ringFree (txRing p)) = b :: rest := h
  rw [h] at h1 h3
  have hne : (s.ring (txRing p)).isEmpty = false := by rw [Ring.isEmpty_eq (s.ringFree (txRing p)), h]; rfl
  have hrest := Ring.isEmpty_eq (s.ringFree (txRing p)) ((s.ring (txRing p)).deq (s.ringFree (txRing p)) 1).2
  rw [h3] at hrest
  rw [State.txrdy, if_neg (by simp [hne]), State.deq_eq, h1]
  simp only [List.take_succ_cons, List.take_zero, emitAll_singleton, State.disarmIfEmpty, port_setRing, ring_setPort,
    ring_setRing_same, hrest, List.drop_succ_cons, List.drop_zero]
  cases rest with
  | nil =>
    simp only [List.isEmpty_nil, if_true, port_setPort_same, Port.disarm, Bool.not_true]
    simp [State.setPort]
  | cons c more => simp [hb]

/-! ### Steps (R70, R280) -/

/-- Out of reset a step performs the next operation. -/
theorem step_op {s : State} {o : Operation} {rest : List Input} (hr : s.inReset = false)
    (hp : s.pending = .op o :: rest) : step s = operate o { s with pending := rest } := by
  simp only [step, takeInput, hp, deliver, hr, Bool.false_eq_true, if_false]

/-- While the reset input is asserted a step turns the next operation away. -/
theorem step_op_inReset {s : State} {o : Operation} {rest : List Input} (hr : s.inReset = true)
    (hp : s.pending = .op o :: rest) : step s = whileInReset o { s with pending := rest } := by
  simp only [step, takeInput, hp, deliver, hr, if_true]

/-- A step takes a change of the reset input. -/
theorem step_resetLine {s : State} {asserted : Bool} {rest : List Input}
    (hp : s.pending = .resetLine asserted :: rest) : step s = .next (resetLine asserted { s with pending := rest }) := by
  simp only [step, takeInput, hp, deliver]

/-- A run of one step more. -/
theorem run_succ {s t : State} (k : Nat) (h : step s = .next t) :
    Host.Core.run Sys2Proof.core (k + 1) s = Host.Core.run Sys2Proof.core k t := by
  have hs : Sys2Proof.core.step s = .next t := h
  simp only [Host.Core.run, hs]

/-- An operation that decodes to an instruction is its execution. -/
theorem operate_instr {o : Operation} {i : Instr} (s : State) (h : decode o = .instr i) : operate o s = exec i s := by
  rw [operate, h]

end Sys2Proof.Machine
end

