-- ==== Sys2Proof/Laws/PerInstr.lean ====
section
/-! SUPPORT. Statements about each instruction, one lemma per constructor. RoundTrip: the decoder reads back the operation
the encoder writes. -/

namespace Sys2Proof.Laws

/-- Decoding the operation of a well-formed instruction gives the instruction. -/
def RoundTrip.Statement (i : Instr) : Prop := i.wellFormed = true → decode (encode i) = .instr i

theorem RoundTrip.rbInit (r cap : Byte) : RoundTrip.Statement (.rbInit r cap) := fun _ =>
  decode_cmdWrite_command (op := .rbInit) (a := r) (b := cap) (c := 0#8) rfl

theorem RoundTrip.rbEnq (r n : Byte) : RoundTrip.Statement (.rbEnq r n) := fun _ =>
  decode_cmdWrite_command (op := .rbEnq) (a := r) (b := n) (c := 0#8) rfl

theorem RoundTrip.rbDeq (r n : Byte) : RoundTrip.Statement (.rbDeq r n) := fun _ =>
  decode_cmdWrite_command (op := .rbDeq) (a := r) (b := n) (c := 0#8) rfl

theorem RoundTrip.rbIsEmpty (r : Byte) : RoundTrip.Statement (.rbIsEmpty r) := fun _ =>
  decode_cmdWrite_command (op := .rbIsEmpty) (a := r) (b := 0#8) (c := 0#8) rfl

theorem RoundTrip.rbIsFull (r : Byte) : RoundTrip.Statement (.rbIsFull r) := fun _ =>
  decode_cmdWrite_command (op := .rbIsFull) (a := r) (b := 0#8) (c := 0#8) rfl

theorem RoundTrip.rbCount (r : Byte) : RoundTrip.Statement (.rbCount r) := fun _ =>
  decode_cmdWrite_command (op := .rbCount) (a := r) (b := 0#8) (c := 0#8) rfl

theorem RoundTrip.rbCap (r : Byte) : RoundTrip.Statement (.rbCap r) := fun _ =>
  decode_cmdWrite_command (op := .rbCap) (a := r) (b := 0#8) (c := 0#8) rfl

theorem RoundTrip.serWrite (p n : Byte) : RoundTrip.Statement (.serWrite p n) := fun _ =>
  decode_cmdWrite_command (op := .serWrite) (a := p) (b := n) (c := 0#8) rfl

theorem RoundTrip.serRead (p n : Byte) : RoundTrip.Statement (.serRead p n) := fun _ =>
  decode_cmdWrite_command (op := .serRead) (a := p) (b := n) (c := 0#8) rfl

theorem RoundTrip.pktEncode (n t : Byte) : RoundTrip.Statement (.pktEncode n t) := fun _ =>
  decode_cmdWrite_command (op := .pktEncode) (a := 0#8) (b := n) (c := t) rfl

theorem RoundTrip.pktEnvelope (n t : Byte) : RoundTrip.Statement (.pktEnvelope n t) := fun _ =>
  decode_cmdWrite_command (op := .pktEnvelope) (a := 0#8) (b := n) (c := t) rfl

theorem RoundTrip.pktRoute (n : Byte) : RoundTrip.Statement (.pktRoute n) := fun _ =>
  decode_cmdWrite_command (op := .pktRoute) (a := 0#8) (b := n) (c := 0#8) rfl

theorem RoundTrip.pktDecode (off : Byte) : RoundTrip.Statement (.pktDecode off) := fun _ =>
  decode_cmdWrite_command (op := .pktDecode) (a := 0#8) (b := 0#8) (c := off) rfl

theorem RoundTrip.pktSend (p : Byte) : RoundTrip.Statement (.pktSend p) := fun _ =>
  decode_cmdWrite_command (op := .pktSend) (a := p) (b := 0#8) (c := 0#8) rfl

theorem RoundTrip.ckClear : RoundTrip.Statement .ckClear := fun _ =>
  decode_cmdWrite_command (op := .ckClear) (a := 0#8) (b := 0#8) (c := 0#8) rfl

theorem RoundTrip.ckByte (b : Byte) : RoundTrip.Statement (.ckByte b) := fun _ =>
  decode_cmdWrite_command (op := .ckByte) (a := 0#8) (b := 0#8) (c := b) rfl

theorem RoundTrip.ckBuf (n : Byte) : RoundTrip.Statement (.ckBuf n) := fun _ =>
  decode_cmdWrite_command (op := .ckBuf) (a := 0#8) (b := n) (c := 0#8) rfl

theorem RoundTrip.st32Cmd (w : Word) : RoundTrip.Statement (.st32Cmd w) := by
  intro h
  have hw : legalWord w = false := by simpa [Instr.wellFormed] using h
  rw [encode, decode_cmdWrite, cmdWriteInstr, decodeCommand_eq_none.2 hw]

theorem RoundTrip.ld32Cmd : RoundTrip.Statement .ld32Cmd := fun _ => decode_regRead .cmd

theorem RoundTrip.ld32Res : RoundTrip.Statement .ld32Res := fun _ => decode_regRead .res

theorem RoundTrip.st32Res (v : Word) : RoundTrip.Statement (.st32Res v) := fun _ => decode_regWrite .res v

theorem RoundTrip.ld32Err : RoundTrip.Statement .ld32Err := fun _ => decode_regRead .err

theorem RoundTrip.st32Err (v : Word) : RoundTrip.Statement (.st32Err v) := fun _ => decode_regWrite .err v

theorem RoundTrip.ld32Tflag : RoundTrip.Statement .ld32Tflag := fun _ => decode_regRead .tflag

theorem RoundTrip.st32Tflag (v : Word) : RoundTrip.Statement (.st32Tflag v) := fun _ => decode_regWrite .tflag v

theorem RoundTrip.ld32Dest : RoundTrip.Statement .ld32Dest := fun _ => decode_regRead .dest

theorem RoundTrip.st32Dest (v : Word) : RoundTrip.Statement (.st32Dest v) := fun _ => decode_regWrite .dest v

theorem RoundTrip.ld32Chan : RoundTrip.Statement .ld32Chan := fun _ => decode_regRead .chan

theorem RoundTrip.st32Chan (v : Word) : RoundTrip.Statement (.st32Chan v) := fun _ => decode_regWrite .chan v

theorem RoundTrip.ld32Ckacc : RoundTrip.Statement .ld32Ckacc := fun _ => decode_regRead .ckacc

theorem RoundTrip.st32Ckacc (v : Word) : RoundTrip.Statement (.st32Ckacc v) := fun _ => decode_regWrite .ckacc v

theorem RoundTrip.ld32Rtype : RoundTrip.Statement .ld32Rtype := fun _ => decode_regRead .rtype

theorem RoundTrip.st32Rtype (v : Word) : RoundTrip.Statement (.st32Rtype v) := fun _ => decode_regWrite .rtype v

theorem RoundTrip.ld32Cfg : RoundTrip.Statement .ld32Cfg := fun _ => decode_regRead .cfg

theorem RoundTrip.st32Cfg (v : Word) : RoundTrip.Statement (.st32Cfg v) := fun _ => decode_regWrite .cfg v

theorem RoundTrip.ld32Cfg2 : RoundTrip.Statement .ld32Cfg2 := fun _ => decode_regRead .cfg2

theorem RoundTrip.st32Cfg2 (v : Word) : RoundTrip.Statement (.st32Cfg2 v) := fun _ => decode_regWrite .cfg2 v

theorem RoundTrip.ld32Pstat (p : BitVec 3) : RoundTrip.Statement (.ld32Pstat p) := by
  intro h
  have hp : p.toNat < Config.nPorts := by simpa [Instr.wellFormed] using h
  rw [encode, decode, decodeAccess_pstat p _ hp]

theorem RoundTrip.st32Pstat (p : BitVec 3) (v : Word) : RoundTrip.Statement (.st32Pstat p v) := by
  intro h
  have hp : p.toNat < Config.nPorts := by simpa [Instr.wellFormed] using h
  rw [encode, decode, decodeAccess_pstat p _ hp]

theorem RoundTrip.ld8Dbuf (i : Byte) : RoundTrip.Statement (.ld8Dbuf i) := by
  intro _
  have ho := dbufOffset_toNat i
  rw [encode, decode, decodeAccess_dbuf _ (by decide) (by omega) (by omega)]
  simp [decodeDbuf]

theorem RoundTrip.st8Dbuf (i : Byte) (v : Byte) : RoundTrip.Statement (.st8Dbuf i v) := by
  intro _
  have ho := dbufOffset_toNat i
  rw [encode, decode, decodeAccess_dbuf _ (by decide) (by omega) (by omega)]
  simp [decodeDbuf]

theorem RoundTrip.ld16Dbuf (i : Byte) : RoundTrip.Statement (.ld16Dbuf i) := by
  intro h
  have ho := dbufOffset_toNat i
  have hi : i.toNat % 2 = 0 := by simpa [Instr.wellFormed] using h
  rw [encode, decode, decodeAccess_dbuf _ (by decide) (by omega) (by omega)]
  simp [decodeDbuf]

theorem RoundTrip.st16Dbuf (i : Byte) (v : Half) : RoundTrip.Statement (.st16Dbuf i v) := by
  intro h
  have ho := dbufOffset_toNat i
  have hi : i.toNat % 2 = 0 := by simpa [Instr.wellFormed] using h
  rw [encode, decode, decodeAccess_dbuf _ (by decide) (by omega) (by omega)]
  simp [decodeDbuf]

theorem RoundTrip.ld32Dbuf (i : Byte) : RoundTrip.Statement (.ld32Dbuf i) := by
  intro h
  have ho := dbufOffset_toNat i
  have hi : i.toNat % 4 = 0 := by simpa [Instr.wellFormed] using h
  rw [encode, decode, decodeAccess_dbuf _ (by decide) (by omega) (by omega)]
  simp [decodeDbuf]

theorem RoundTrip.st32Dbuf (i : Byte) (v : Word) : RoundTrip.Statement (.st32Dbuf i v) := by
  intro h
  have ho := dbufOffset_toNat i
  have hi : i.toNat % 4 = 0 := by simpa [Instr.wellFormed] using h
  rw [encode, decode, decodeAccess_dbuf _ (by decide) (by omega) (by omega)]
  simp [decodeDbuf]

theorem RoundTrip.reservedOffset (off : BitVec 9) (dir : Dir) : RoundTrip.Statement (.reservedOffset off dir) := by
  intro h
  simp only [Instr.wellFormed, Bool.and_eq_true, decide_eq_true_eq, beq_iff_eq, Bool.not_eq_true', mappedOffset,
    Bool.or_eq_false_iff, decide_eq_false_iff_not, Nat.not_lt] at h
  obtain ⟨⟨h1, h2⟩, h3, h4⟩ := h
  have hnone : Reg.ofOffset? off = none := (ofOffset?_none_iff _ h2).2 h3
  have his : isPstat off = false := h4
  rw [encode, decode, decodeAccess_register dir h1 h2]
  cases dir <;> simp [decodeRegister, hnone, his]

theorem RoundTrip.badAccess (off : BitVec 9) (width : Nat) (dir : Dir) : RoundTrip.Statement (.badAccess off width dir) := by
  intro h
  rw [encode, decode, decodeAccess_refused dir h]

theorem RoundTrip.evRx (p : BitVec 4) (b : Byte) : RoundTrip.Statement (.evRx p b) := by
  intro h
  have hp : p.toNat < Config.nPorts := by simpa [Instr.wellFormed] using h
  simp [encode, decode, decodeEvent, hp]

theorem RoundTrip.evTxrdy (p : BitVec 4) : RoundTrip.Statement (.evTxrdy p) := by
  intro h
  have hp : p.toNat < Config.nPorts := by simpa [Instr.wellFormed] using h
  simp [encode, decode, decodeEvent, hp]

theorem RoundTrip.evTick2ms : RoundTrip.Statement .evTick2ms := fun _ => by decide

theorem RoundTrip.evTick1s : RoundTrip.Statement .evTick1s := fun _ => by decide

end Sys2Proof.Laws
end

