-- ==== Sys2Proof/Tests/Slice0.lean ====
section
/-! SUPPORT. The model's own tests. Expected results come from the spec: the words of R93, R100 and R106, the offsets of
R37, and the vectors of 95_test_vectors.md (named V-… below) or the worked example of the rule named. Where a result
depends on an OPEN parameter the test gives both values. Then, for every statement with hypotheses, states and operands
that meet them. -/

namespace Sys2Proof.Tests

open Sys2Proof Sys2Proof.Machine

/-! ## Helpers -/

/-- What an outcome shows of the next state, none where there is none. -/
def shows {α : Type} (f : State → α) : Host.Outcome State Fault Refusal → Option α
  | .next s => some (f s)
  | .fault _ => none
  | .refused _ => none

/-- The fault of an outcome. -/
def faultOf : Host.Outcome State Fault Refusal → Option Fault
  | .next _ => none
  | .fault e => some e
  | .refused _ => none

/-- A ring by its number. -/
def rg (r : Fin 5) : Fin Config.nRings := r

/-- A port by its number. -/
def pt (p : Fin 2) : Fin Config.nPorts := p

/-- The reset state with these bytes at `DBUF[0 ..]`. -/
def loaded (bytes : List Byte) : State := State.reset.storeDbuf 0 bytes

/-- A ring of a capacity holding these bytes, oldest first. -/
def ringOf (cap : Byte) (bytes : List Byte) : Ring := ((Ring.atReset.init cap).enq bytes).1

/-- Port 0's transmit ring holds these bytes and the port is armed. -/
def sending (bytes : List Byte) : State :=
  (State.reset.setRing (rg 0) (ringOf 128#8 bytes)).setPort (pt 0) { Port.atReset with txbusy := true }

/-- `RES` and `ERR`, as `GETRES` reads them (R104). -/
def result (s : State) : Word × Byte := (s.res, s.err)

/-- What ring 4 holds. -/
def held (s : State) : List Byte := s.stored (rg 4)

/-- The first three bytes of `DBUF`. -/
def first3 (s : State) : List Byte := s.firstBytes 3

/-! ## Well-formedness: each check refuses an ill-formed term -/

theorem test_wellFormed_st32Cmd : (Instr.st32Cmd 0x30000000#32).wellFormed = false := by decide
theorem test_wellFormed_ld32Pstat : (Instr.ld32Pstat 2#3).wellFormed = false := by decide
theorem test_wellFormed_st32Pstat : (Instr.st32Pstat 7#3 0#32).wellFormed = false := by decide
theorem test_wellFormed_ld16Dbuf : (Instr.ld16Dbuf 1#8).wellFormed = false := by decide
theorem test_wellFormed_st16Dbuf : (Instr.st16Dbuf 255#8 0#16).wellFormed = false := by decide
theorem test_wellFormed_ld32Dbuf : (Instr.ld32Dbuf 2#8).wellFormed = false := by decide
theorem test_wellFormed_st32Dbuf : (Instr.st32Dbuf 253#8 0#32).wellFormed = false := by decide
theorem test_wellFormed_evRx : (Instr.evRx 2#4 0x41#8).wellFormed = false := by decide
theorem test_wellFormed_evTxrdy : (Instr.evTxrdy 15#4).wellFormed = false := by decide
theorem test_wellFormed_reservedOffset :
    [0x004#9, 0x024#9, 0x040#9, 0x044#9, 0x02A#9, 0x100#9].all
      (fun off => !(Instr.reservedOffset off .read).wellFormed) = true := by
  decide
theorem test_wellFormed_badAccess :
    ∀ x ∈ [(0x004#9, 4), (0x030#9, 4), (0x101#9, 1), (0x102#9, 2), (0x104#9, 4)],
      (Instr.badAccess x.1 x.2 .read).wellFormed = false := by decide

/-! ## Decoding: every constructor, from a word or an access written out from the tables -/

theorem test_decode_ring_commands :
    ∀ x ∈ [((0x01042000#32 : Word), Instr.rbInit 4 32), (0x02044000#32, .rbEnq 4 64), (0x03044000#32, .rbDeq 4 64),
        (0x04040000#32, .rbIsEmpty 4), (0x05040000#32, .rbIsFull 4), (0x06030000#32, .rbCount 3),
        (0x07020000#32, .rbCap 2)],
      decode (.access 0x000#9 4 (.write x.1)) = .instr x.2 := by decide

theorem test_decode_serial_and_packet_commands :
    ∀ x ∈ [((0x10000300#32 : Word), Instr.serWrite 0 3), (0x11013F00#32, .serRead 1 63), (0x20000007#32, .pktEncode 0 7),
        (0x21000300#32, .pktEnvelope 3 0), (0x22000200#32, .pktRoute 2), (0x230000C2#32, .pktDecode 194),
        (0x24010000#32, .pktSend 1)],
      decode (.access 0x000#9 4 (.write x.1)) = .instr x.2 := by decide

theorem test_decode_checksum_commands :
    ∀ x ∈ [((0x30000000#32 : Word), Instr.ckClear), (0x310000FF#32, .ckByte 0xFF), (0x32000400#32, .ckBuf 4)],
      decode (.access 0x000#9 4 (.write x.1)) = .instr x.2 := by decide

/-- V-DC-1 to V-DC-4, V-DC-6 to V-DC-8: illegal words. -/
theorem test_decode_illegal_words :
    [(0x00000000#32 : Word), 0xFF000000#32, 0x04040001#32, 0x30010000#32, 0x01090001#32, 0x20013E00#32,
        0x08000000#32].all
      (fun w => decode (.access 0x000#9 4 (.write w)) == .instr (.st32Cmd w)) = true := by decide +kernel

theorem test_decode_register_reads :
    ∀ x ∈ [((0x000#9 : BitVec 9), Instr.ld32Cmd), (0x004#9, .ld32Res), (0x008#9, .ld32Err), (0x00C#9, .ld32Tflag),
        (0x010#9, .ld32Dest), (0x014#9, .ld32Chan), (0x018#9, .ld32Ckacc), (0x01C#9, .ld32Rtype), (0x020#9, .ld32Cfg),
        (0x024#9, .ld32Cfg2), (0x040#9, .ld32Pstat 0), (0x044#9, .ld32Pstat 1), (0x048#9, .reservedOffset 0x048#9 .read)],
      decode (.access x.1 4 .read) = .instr x.2 := by decide

theorem test_decode_register_writes :
    ∀ x ∈ [((0x004#9 : BitVec 9), Instr.st32Res 5), (0x008#9, .st32Err 5), (0x00C#9, .st32Tflag 5), (0x010#9, .st32Dest 5),
        (0x014#9, .st32Chan 5), (0x018#9, .st32Ckacc 5), (0x01C#9, .st32Rtype 5), (0x020#9, .st32Cfg 5),
        (0x024#9, .st32Cfg2 5), (0x040#9, .st32Pstat 0 5), (0x044#9, .st32Pstat 1 5),
        (0x030#9, .reservedOffset 0x030#9 (.write 5))],
      decode (.access x.1 4 (.write 5)) = .instr x.2 := by decide

theorem test_decode_dbuf :
    decode (.access 0x1FF#9 1 .read) = .instr (.ld8Dbuf 255) ∧
    decode (.access 0x104#9 2 .read) = .instr (.ld16Dbuf 4) ∧
    decode (.access 0x1FC#9 4 .read) = .instr (.ld32Dbuf 252) ∧
    decode (.access 0x1FF#9 1 (.write 0x1241#32)) = .instr (.st8Dbuf 255 0x41) ∧
    decode (.access 0x104#9 2 (.write 0x994241#32)) = .instr (.st16Dbuf 4 0x4241) ∧
    decode (.access 0x100#9 4 (.write 0x00173412#32)) = .instr (.st32Dbuf 0 0x00173412) := by decide

/-- V-MM-4, V-MM-5, and a width of three bytes. -/
theorem test_decode_refused :
    decode (.access 0x101#9 2 .read) = .instr (.badAccess 0x101#9 2 .read) ∧
    decode (.access 0x004#9 1 .read) = .instr (.badAccess 0x004#9 1 .read) ∧
    decode (.access 0x100#9 3 .read) = .instr (.badAccess 0x100#9 3 .read) := by decide

theorem test_decode_events :
    decode (.event 0x1161#16) = .instr (.evRx 1 0x61) ∧ decode (.event 0x2100#16) = .instr (.evTxrdy 1) ∧
    decode (.event 0x3000#16) = .instr .evTick2ms ∧ decode (.event 0x4000#16) = .instr .evTick1s ∧
    [0x0000#16, 0x1261#16, 0x2001#16, 0x2200#16, 0x3001#16, 0x3100#16, 0x4001#16, 0x5000#16].all
      (fun w => decode (.event w) == .notAnEvent w) = true := by decide +kernel

/-- The words of the opcode table (log entry 6): a command, a register offset, `DBUF` offsets, an event, a write. -/
theorem test_decodeTableWord :
    decodeTableWord 32 0x01000000 = some (.rbInit 0 0) ∧ decodeTableWord 16 0x004 = some .ld32Res ∧
    decodeTableWord 16 0x100 = some (.ld32Dbuf 0) ∧ decodeTableWord 24 0x102 = some (.ld16Dbuf 2) ∧
    decodeTableWord 16 0x101 = some (.ld8Dbuf 1) ∧ decodeTableWord 16 0x2100 = some (.evTxrdy 1) ∧
    decodeTableWord 48 0x12340210 = some (.st32Dest 0x1234) ∧ decodeTableWord 16 0x2200 = none := by decide

theorem test_withFetchWord_runs :
    shows (fun s => (s.tflag, s.pending)) (step (State.reset.withFetchWord 16 0x3000)) = some (0b01#2, []) := by
  decide

/-! ## Rings -/

/-- V-RB-7: capacity 128 is legal, 129 is not. -/
theorem test_rbInit :
    shows (fun s => (result s, (s.ring (rg 4)).cap)) (exec (.rbInit 4 129) State.reset) = some ((0, 0x03), 128) ∧
    shows (fun s => (result s, (s.ring (rg 4)).cap)) (exec (.rbInit 4 32) State.reset) = some ((0, 0x00), 32) := by
  decide

/-- V-RB-8: one of three bytes fits. -/
theorem test_rbEnq : shows (fun s => (result s, held s))
    (exec (.rbEnq 4 3) ((loaded [0x0A, 0x0B, 0x0C]).setRing (rg 4) (ringOf 4 [1, 2, 3]))) =
      some ((1, 0x06), [1, 2, 3, 0x0A]) := by decide

/-- V-RB-3: the tail wraps from 2 to 0, and the bytes come out in order. -/
theorem test_rbEnq_wraps :
    shows (fun s => (result s, held s, (s.ring (rg 4)).tail))
      (exec (.rbEnq 4 2) ((loaded [0x63, 0x64]).setRing (rg 4) ((ringOf 3 [0x61, 0x62]).deq (fun _ => 0) 1).2)) =
      some ((2, 0x00), [0x62, 0x63, 0x64], 1) := by decide

/-- R127's example in small: a request for more than the ring holds. -/
theorem test_rbDeq : shows (fun s => (result s, first3 s, held s))
    (exec (.rbDeq 4 64) ((loaded [9, 9, 9]).setRing (rg 4) (ringOf 4 [0x62, 0x63]))) =
      some ((2, 0x00), [0x62, 0x63, 9], []) := by decide

/-- V-RB-1 and V-RB-2. -/
theorem test_rbIsEmpty : shows result (exec (.rbIsEmpty 0) State.reset) = some (1, 0x00) ∧
    shows result (exec (.rbIsEmpty 4) (State.reset.setRing (rg 4) (ringOf 1 [0xAA]))) = some (0, 0x00) := by
  decide
theorem test_rbIsFull : shows result (exec (.rbIsFull 0) State.reset) = some (0, 0x00) ∧
    shows result (exec (.rbIsFull 4) (State.reset.setRing (rg 4) (ringOf 1 [0xAA]))) = some (1, 0x00) := by
  decide
theorem test_rbCount : shows result (exec (.rbCount 4) (State.reset.setRing (rg 4) (ringOf 8 [1, 2, 3, 4, 5]))) =
    some (5, 0x00) := by decide
theorem test_rbCap : shows result (exec (.rbCap 0) State.reset) = some (128, 0x00) := by decide

/-- V-RB-6, in every ring command's index check. -/
theorem test_ring_bad_index :
    ∀ i ∈ [Instr.rbInit 5 10, .rbEnq 5 1, .rbDeq 5 1, .rbIsEmpty 5, .rbIsFull 5, .rbCount 5, .rbCap 5],
    shows result (exec i State.reset) = some (0, 0x02) := by decide

/-! ## Serial transport -/

/-- V-SR-1 and V-SR-3. -/
theorem test_serWrite :
    shows (fun s => (result s, s.stored (rg 0), (s.port (pt 0)).txbusy))
        (exec (.serWrite 0 3) (loaded [0x41, 0x42, 0x43])) =
      some ((3, 0x00), [0x41, 0x42, 0x43], true) ∧
    shows (fun s => (result s, (s.port (pt 0)).txbusy)) (exec (.serWrite 0 0) State.reset) = some ((0, 0x00), false) := by
  decide

/-- V-SR-4: a full ring arms nothing. -/
theorem test_serWrite_full : shows (fun s => (result s, (s.port (pt 0)).txbusy))
    (exec (.serWrite 0 1) ((loaded [3]).setRing (rg 0) (ringOf 2 [1, 2]))) = some ((0, 0x06), false) := by
  decide

/-- V-SR-6, V-SR-5. -/
theorem test_serRead : shows (fun s => (result s, first3 s, s.stored (rg 1)))
    (exec (.serRead 0 8) ((loaded [0, 0, 7]).setRing (rg 1) (ringOf 2 [0x61, 0x62]))) =
      some ((2, 0x00), [0x61, 0x62, 7], []) := by
  decide
theorem test_port_bad_index : ∀ i ∈ [Instr.serWrite 2 1, .serRead 2 1, .pktSend 2],
    shows result (exec i State.reset) = some (0, 0x02) := by decide

/-- V-SR-6: the third byte into a ring of two is lost and flagged. -/
theorem test_evRx :
    shows (fun s => (s.stored (rg 1), (s.port (pt 0)).rxovf))
        (exec (.evRx 0 0x63) (State.reset.setRing (rg 1) (ringOf 2 [0x61, 0x62]))) =
      some ([0x61, 0x62], true) ∧
    shows (fun s => (s.stored (rg 3), (s.port (pt 1)).rxovf)) (exec (.evRx 1 0x63) State.reset) = some ([0x63], false) := by
  decide

/-- V-SR-2: the oldest byte first; the last byte disarms. -/
theorem test_evTxrdy : shows (fun s => s.port (pt 0)) (exec (.evTxrdy 0) (sending [0x41, 0x42])) =
      some { txbusy := true, rxovf := false, lineOut := [0x41] } ∧
    shows (fun s => s.port (pt 0)) (exec (.evTxrdy 0) (sending [0x43])) =
      some { txbusy := false, rxovf := false, lineOut := [0x43] } := by decide

/-- V-SR-9 and the end of V-SR-2. -/
theorem test_evTxrdy_corners :
    shows (fun s => s.port (pt 0)) (exec (.evTxrdy 0) (sending [])) = some Port.atReset ∧
    faultOf (exec (.evTxrdy 0) State.reset) = some (.txrdyNotEnabled 0) := by decide

/-- V-SR-7. -/
theorem test_pstat :
    shows (fun s => s.port (pt 0)) (exec (.st32Pstat 0 0x1) (State.reset.setPort (pt 0) ⟨false, true, []⟩)) =
      some ⟨false, true, []⟩ ∧
    shows (fun s => s.port (pt 0)) (exec (.st32Pstat 0 0x2) (State.reset.setPort (pt 0) ⟨true, true, []⟩)) =
      some ⟨true, false, []⟩ ∧
    shows (·.busReads) (exec (.ld32Pstat 0) (State.reset.setPort (pt 0) ⟨true, true, []⟩)) = some [0x3] := by
  decide

/-! ## Packets, under both checksum kinds and both window offsets -/

/-- V-PK-1. -/
theorem test_pktEncode : ∀ x ∈ [(ChecksumKind.add8, (0xC6 : Byte)), (.xor8, 0x40)],
    let s := pktEncodeWith x.1 3 0x00 (loaded [0x41, 0x42, 0x43])
    result s = (63, 0x00) ∧ s.firstBytes 63 = [0x00, 0x41, 0x42, 0x43] ++ List.replicate 58 0x00 ++ [x.2] := by
  decide +kernel

/-- V-PK-7: a payload of 62 bytes. -/
theorem test_pktEncode_invalid : shows (fun s => (result s, s.dbuf)) (exec (.pktEncode 62 0x00) State.reset) =
    some ((0, 0x04), []) := by decide

/-- V-PK-2. -/
theorem test_pktEnvelope : ∀ x ∈ [(ChecksumKind.add8, (0xC6 : Byte)), (.xor8, 0x40)],
    let s := pktEnvelopeWith x.1 3 0x00 { loaded [0x41, 0x42, 0x43] with dest := 0x1234, chan := 0x17 }
    result s = (66, 0x00) ∧
      s.firstBytes 66 = [0x12, 0x34, 0x17, 0x00, 0x41, 0x42, 0x43] ++ List.replicate 58 0x00 ++ [x.2] := by
  decide +kernel

/-- V-PK-3. -/
theorem test_pktRoute : ∀ x ∈ [(ChecksumKind.add8, (0x16 : Byte)), (.xor8, 0x14)],
    let s := pktRouteWith x.1 2 { loaded [0x05, 0x10] with dest := 0x1234 }
    result s = (66, 0x00) ∧ s.dest = 0x1234 ∧
      s.firstBytes 66 = [0xFF, 0xFF, 0x00, 0x01, 0x05, 0x10] ++ List.replicate 59 0x00 ++ [x.2] := by decide +kernel

/-- V-PK-5 and V-PK-8, with a type of 0x07. -/
theorem test_pktDecode : ∀ k ∈ [ChecksumKind.add8, .xor8],
    let s := pktEncodeWith k 3 0x07 (loaded [0x41, 0x42, 0x43])
    (result (pktDecodeWith k 0 s), (pktDecodeWith k 0 s).rtype) = ((61, 0x00), 0x07) ∧
      result (pktDecodeWith k 0 (s.storeDbuf 2 [0x43])) = (0, 0x05) := by decide +kernel

/-- V-PK-14. -/
theorem test_pktDecode_offset : shows result (exec (.pktDecode 194) State.reset) = some (0, 0x03) := by decide

/-- V-PK-11 and V-PK-16: the window with and without the high address byte, and a ring of 40. -/
theorem test_pktSend :
    [((0 : Fin 2), (66 : Word)), (1, 65)].all (fun x =>
      let s := loaded ((List.range 66).map (BitVec.ofNat 8))
      let t := pktSendWith x.1 1 s
      result t == (x.2, 0x00) && t.stored (rg 2) == (s.firstBytes 66).drop x.1.val && (t.port (pt 1)).txbusy &&
        result (pktSendWith x.1 1 (s.setRing (rg 2) (ringOf 40 []))) == (40, 0x06)) = true := by decide +kernel

/-! ## Checksum -/

/-- V-CK-1. -/
theorem test_ckByte : result (ckByteWith .add8 0x01 { State.reset with ckacc := 0xFF }) = (0x00, 0x00) ∧
    result (ckByteWith .xor8 0x01 { State.reset with ckacc := 0xFF }) = (0xFE, 0x00) := by decide

/-- V-CK-3. -/
theorem test_ckBuf : result (ckBufWith .add8 4 (loaded [0x00, 0x41, 0x42, 0x43])) = (0xC6, 0x00) ∧
    result (ckBufWith .xor8 4 (loaded [0x00, 0x41, 0x42, 0x43])) = (0x40, 0x00) := by decide

theorem test_ckClear : shows (fun s => (result s, s.ckacc)) (exec .ckClear { State.reset with ckacc := 0x5A }) =
    some ((0, 0x00), 0) := by decide

/-! ## Timer flags and registers -/

/-- V-TF-2. -/
theorem test_ticks : shows (·.tflag) (exec .evTick2ms { State.reset with tflag := 0b10 }) = some 0b11 ∧
    shows (·.tflag) (exec .evTick1s State.reset) = some 0b10 := by decide

/-- V-TF-4. -/
theorem test_tflag : shows (·.tflag) (exec (.st32Tflag 0x1) { State.reset with tflag := 0b11 }) = some 0b10 ∧
    shows (·.tflag) (exec (.st32Tflag 0xFFFFFFFE) { State.reset with tflag := 0b10 }) = some 0b00 ∧
    shows (fun s => (s.busReads, s.tflag)) (exec .ld32Tflag { State.reset with tflag := 0b11 }) = some ([0x3], 0b11) := by
  decide

/-- V-MM-1, V-MM-2, V-MM-7, V-MM-9. -/
theorem test_registers : shows (·.dest) (exec (.st32Dest 0x12345678) State.reset) = some 0x5678 ∧
    shows (·.busReads) (exec .ld32Dest State.reset) = some [0x0000FFFF] ∧
    shows (·.chan) (exec (.st32Chan 0x117) State.reset) = some 0x17 ∧
    shows (·.busReads) (exec .ld32Chan { State.reset with chan := 0x17 }) = some [0x17] ∧
    shows (·.busReads) (exec .ld32Cmd State.reset) = some [0] := by decide

theorem test_result_reads : shows (·.busReads) (exec .ld32Res { State.reset with res := 32 }) = some [32] ∧
    shows (·.busReads) (exec .ld32Err { State.reset with err := 6 }) = some [6] ∧
    shows (·.busReads) (exec .ld32Ckacc { State.reset with ckacc := 0xC6 }) = some [0xC6] ∧
    shows (·.busReads) (exec .ld32Rtype { State.reset with rtype := 0x07 }) = some [0x07] := by decide

theorem test_ignored_writes : ∀ i ∈ [Instr.st32Res 7, .st32Err 7, .st32Ckacc 7, .st32Rtype 7, .st32Cfg 7, .st32Cfg2 7],
    shows id (exec i State.reset) = some State.reset := by decide

/-- V-MM-8 in full. -/
theorem test_cfg : cfgWith .add8 0 = 0x00001280 ∧ cfgWith .xor8 0 = 0x00011280 ∧ cfgWith .add8 1 = 0x00021280 ∧
    cfgWith .xor8 1 = 0x00031280 ∧ shows (·.busReads) (exec .ld32Cfg2 State.reset) = some [0x003D0100] := by
  decide

/-- `LD32 CFG` returns the block's own `CFG`. -/
theorem test_ld32Cfg : exec .ld32Cfg State.reset = .next (State.reset.returns cfgWord) := rfl

/-! ## Buses -/

/-- V-MM-3. -/
theorem test_dbuf_reads : ∀ x ∈ [(Instr.ld8Dbuf 0, (0x12 : Word)), (.ld8Dbuf 3, 0x00), (.ld16Dbuf 2, 0x0017),
      (.ld32Dbuf 0, 0x00173412)],
    shows (·.busReads) (exec x.1 (loaded [0x12, 0x34, 0x17, 0x00])) = some [x.2] := by decide

/-- R67's example, and V-MM-3's write. -/
theorem test_dbuf_writes :
    shows (·.dbuf) (exec (.st16Dbuf 4 0x4241) State.reset) = some [(4, 0x41), (5, 0x42)] ∧
    shows (·.dbuf) (exec (.st32Dbuf 0 0x00173412) State.reset) = some [(0, 0x12), (1, 0x34), (2, 0x17), (3, 0x00)] ∧
    shows (·.dbuf) (exec (.st8Dbuf 255 0x41) State.reset) = some [(255, 0x41)] := by decide

/-- V-MM-6, V-MM-10. -/
theorem test_reserved : shows (·.busReads) (exec (.reservedOffset 0x048#9 .read) State.reset) = some [0] ∧
    shows id (exec (.reservedOffset 0x030#9 (.write 5)) State.reset) = some State.reset := by decide

/-- V-MM-4: the bus error carries the bus address. -/
theorem test_badAccess :
    faultOf (operate (.access 0x101#9 2 .read) State.reset) = some (.busError (Config.base + 0x101)) := rfl

/-- V-DC-4: an illegal word changes `RES` and `ERR` alone. -/
theorem test_st32Cmd : shows id (exec (.st32Cmd 0x30010000) { State.reset with ckacc := 0x5A, res := 9 }) =
    some { State.reset with ckacc := 0x5A, res := 0, err := 0x01 } := by decide

/-! ## The statements' hypotheses are met -/

theorem witness_DecodeInvertsEncode :
    ∀ i ∈ [Instr.rbInit 4 32, .st32Cmd 0, .ld32Pstat 1, .ld16Dbuf 254, .st32Dbuf 252 5, .reservedOffset 0x0FC#9 .read,
      .badAccess 0x0FF#9 2 .read, .evRx 1 0xFF], i.wellFormed = true := by decide

theorem witness_DecodedInstructionsAreWellFormed :
    decode (.access 0x1FC#9 4 .read) = .instr (.ld32Dbuf 252) := by decide

theorem witness_CommandDecoderAgreesWithTheOpcodeTable :
    (∃ row ∈ commandRows, row.op = .rbInit ∧ row.fits 0x01042000#32 = true) ∧
    decodeCommand 0x01042000#32 = some ⟨.rbInit, 4, 32, 0⟩ := by decide

theorem witness_EventWordsDecodeAndOthersAreRefused :
    [0x0FFF#16, 0x1200#16, 0x2001#16, 0x2200#16, 0x3001#16, 0x4100#16, 0x5000#16].all (!isEventWord ·) = true := by
  decide +kernel

theorem witness_IllegalWordIsBadCmd :
    [(0x00000000#32 : Word), 0x04040001#32, 0xFF000000#32].all (!legalWord ·) = true := by
  decide +kernel

theorem witness_CmdWriteRunsTheDecodedCommand : decodeCommand 0x32000400#32 = some ⟨.ckBuf, 0, 4, 0⟩ := by
  decide

/-- Every status from 1 to 5 can end a command. -/
theorem witness_FailedCommandChangesOnlyTheResult :
    [((0x00000000#32 : Word), (1 : Byte)), (0x01090000#32, 2), (0x01040000#32, 3), (0x20003E00#32, 4)].all
      (fun x => shows (·.err) (exec (.st32Cmd x.1) State.reset) == some x.2) = true ∧
    shows (·.err) (exec (.st32Cmd 0x23000000#32) (loaded (List.replicate 62 0x00 ++ [0x01]))) = some 5 := by
  refine ⟨by decide +kernel, ?_⟩
  show some (pktDecodeWith Config.checksumKind 0 (loaded (List.replicate 62 0x00 ++ [0x01]))).err = _
  cases Config.checksumKind <;> decide +kernel

theorem witness_RingIndexIsChecked : Config.nRings ≤ (5#8).toNat := by decide

/-- Both clauses, at the last ring and the first index past it; capacities 0, 1, 128 and 129. -/
theorem witness_RbInitEmptiesTheRing :
    (4#8).toNat = (rg 4).val ∧ Config.nRings ≤ (5#8).toNat ∧ ((0#8).toNat = 0 ∨ Config.capMax < (0#8).toNat) ∧
    ¬((1#8).toNat = 0 ∨ Config.capMax < (1#8).toNat) ∧ ¬((128#8).toNat = 0 ∨ Config.capMax < (128#8).toNat) ∧
    ((129#8).toNat = 0 ∨ Config.capMax < (129#8).toNat) := by decide

/-- An empty ring, a full one, and one whose bytes wrap. -/
theorem witness_rings_meet_their_invariant :
    Ring.atReset.Ok ∧ (ringOf 2 [0x61, 0x62]).Ok ∧ ((ringOf 3 [0x61, 0x62]).deq (fun _ => 0) 1).2.Ok ∧
    Ring.atReset.count = 0 ∧ (ringOf 2 [0x61, 0x62]).count = (ringOf 2 [0x61, 0x62]).cap := by decide

theorem witness_RbEnqStoresThePrefixThatFits :
    (4#8).toNat = (rg 4).val ∧ (0#8).toNat = (rg 0).val ∧
    ((State.reset.setRing (rg 4) (ringOf 4 [1, 2, 3])).ring (rg 4)).Ok ∧ (State.reset.ring (rg 0)).Ok := by
  decide

theorem witness_RbDeqReturnsTheOldestBytes :
    (4#8).toNat = (rg 4).val ∧ ((State.reset.setRing (rg 4) (ringOf 4 [0x62, 0x63])).ring (rg 4)).Ok := by
  decide

theorem witness_RingQueriesReportCountAndCapacity :
    (4#8).toNat = (rg 4).val ∧ Config.nRings ≤ (5#8).toNat := by decide

theorem witness_RingIsAFifo :
    Ring.atReset.Ok ∧ Ring.atReset.count = 0 ∧
    (Ring.atReset.run (fun _ => 0) [.enq [1, 2], .deq 1, .enq [3]]).returned = [1] := by decide

theorem witness_RingStorageAtResetIsUnobservable : (ringOf 2 [0x61, 0x62]).Ok := by decide

theorem witness_PortIndexIsChecked : Config.nPorts ≤ (2#8).toNat := by decide

/-- Both ports; for SER_WRITE, SER_READ and PKT_SEND. -/
theorem witness_port_commands :
    (0#8).toNat = (pt 0).val ∧ (1#8).toNat = (pt 1).val ∧
    ∀ q : Fin Config.nPorts, (State.reset.ring (txRing q)).Ok ∧ (State.reset.ring (rxRing q)).Ok := by decide

/-- Both clauses: a full ring and a ring with room. -/
theorem witness_ReceivedByteIsStoredOrFlagged :
    (0#4).toNat = (pt 0).val ∧ (1#4).toNat = (pt 1).val ∧
    ((State.reset.setRing (rg 1) (ringOf 2 [0x61, 0x62])).ring (rxRing (pt 0))).Ok ∧
    ((State.reset.setRing (rg 1) (ringOf 2 [0x61, 0x62])).ring (rxRing (pt 0))).count =
      ((State.reset.setRing (rg 1) (ringOf 2 [0x61, 0x62])).ring (rxRing (pt 0))).cap ∧
    (State.reset.ring (rxRing (pt 1))).Ok ∧
    (State.reset.ring (rxRing (pt 1))).count ≠ (State.reset.ring (rxRing (pt 1))).cap := by
  decide

/-- Three cases: an empty ring, the last byte, and a byte followed by another. -/
theorem witness_TransmitEventEmitsTheOldestByte :
    (0#4).toNat = (pt 0).val ∧
    (∀ l ∈ [([] : List Byte), [0x41], [0x41, 0x42]],
      ((sending l).port (pt 0)).txbusy = true ∧ ((sending l).ring (txRing (pt 0))).Ok ∧
      (sending l).stored (txRing (pt 0)) = l) := by
  decide

theorem witness_TransmitEventNeedsArming :
    (1#4).toNat = (pt 1).val ∧ (State.reset.port (pt 1)).txbusy = false := by decide

theorem witness_StepKeepsPortsSynchronised :
    let s : State := { sending [0x41] with pending := [.op (.event 0x2000#16)] }
    s.Inv ∧ s.TxSynced (pt 0) ∧ decode (.event 0x2000#16) = .instr (.evTxrdy 0) ∧
      sparesRing (txRing (pt 0)) (.evTxrdy 0) = true ∧ shows (fun t => (t.port (pt 0)).txbusy) (step s) = some false := by
  decide

theorem witness_DrainingEmitsEveryStoredByte :
    let s : State := { sending [0x41, 0x42] with pending := [.op (.event 0x2000#16), .op (.event 0x2000#16)] }
    (s.ring (txRing (pt 0))).Ok ∧ s.inReset = false ∧ (s.port (pt 0)).txbusy = true ∧
      0 < (s.ring (txRing (pt 0))).count.toNat ∧
      s.pending = List.replicate (s.ring (txRing (pt 0))).count.toNat (.op (.event (txrdyWord (pt 0)))) ++ [] := by
  decide

theorem witness_PortsAreIndependent : (pt 0) ≠ pt 1 := by decide

/-- Events of two ports, an event and a tick, and the two ticks. -/
theorem witness_EventsApartCommute :
    (∀ x ∈ [(Event.txrdy (pt 0), Event.rx (pt 1) 0x41), (.rx (pt 0) 0x41, .tick1s), (.tick2ms, .tick1s)],
      (x.1.port? ≠ x.2.port? ∨ (x.1.port? = none ∧ x.2.port? = none)) ∧
      shows (fun _ => ()) (execAll [x.1.instr, x.2.instr] (sending [0x42])) = some ()) := by decide

theorem witness_payload_lengths : (0#8).toNat ≤ 61 ∧ (61#8).toNat ≤ 61 ∧ 61 < (62#8).toNat ∧ 61 < (255#8).toNat := by
  decide

/-- The all-zero frame at the last legal offset (V-PK-15), under either kind; its last byte changed. -/
theorem witness_SingleByteChangeIsDetected :
    (193#8).toNat ≤ 193 ∧ 62 < 63 ∧
    shows (·.err) (exec (.pktDecode 193) (State.reset.storeDbuf 193 (List.replicate 63 0x00))) = some 0x00 ∧
    (1 : Byte) ≠ (State.reset.storeDbuf 193 (List.replicate 63 0x00)).dbufByte ((193#8).toNat + 62) := by
  refine ⟨by decide +kernel, by decide +kernel, ?_, by decide +kernel⟩
  show some (pktDecodeWith Config.checksumKind 193 (State.reset.storeDbuf 193 (List.replicate 63 0x00))).err = _
  cases Config.checksumKind <;> decide +kernel

theorem witness_RoomCheckedSendIsWhole :
    (State.reset.ring (txRing (pt 1))).Ok ∧ 66 - Config.radioWindowOffset.val ≤
      (State.reset.ring (txRing (pt 1))).cap.toNat - (State.reset.ring (txRing (pt 1))).count.toNat := by
  refine ⟨by decide, Nat.le_trans (Nat.sub_le _ _) (by decide)⟩

theorem witness_PortStatusReadsAndClears :
    (0#3).toNat = (pt 0).val ∧ (1#3).toNat = (pt 1).val := by decide

/-- The ends of both reserved ranges (R37). -/
theorem witness_ReservedOffsetsReadZero :
    [0x028, 0x03C, 0x048, 0x0FC].all (fun n : Nat => decide ((BitVec.ofNat 9 n).toNat < 0x100 ∧
      (BitVec.ofNat 9 n).toNat % 4 = 0 ∧ 0x028 ≤ (BitVec.ofNat 9 n).toNat ∧
      ((BitVec.ofNat 9 n).toNat < 0x040 ∨ 0x040 + 4 * Config.nPorts ≤ (BitVec.ofNat 9 n).toNat))) = true := by decide

/-- Each of the three grounds of a bus error, alone. -/
theorem witness_RefusedAccessIsABusError :
    3 ∉ [1, 2, 4] ∧ 0 ∉ [1, 2, 4] ∧ (0x101#9).toNat % 2 ≠ 0 ∧ (0x1FE#9).toNat % 4 ≠ 0 ∧
      ((0x004#9).toNat < 0x100 ∧ 1 ≠ 4) ∧ ((0x0FE#9).toNat < 0x100 ∧ 2 ≠ 4) := by decide

theorem witness_dbuf_alignment :
    (0#8).toNat % 2 = 0 ∧ (254#8).toNat % 2 = 0 ∧ (0#8).toNat % 4 = 0 ∧ (252#8).toNat % 4 = 0 := by decide

theorem witness_ReadsHaveNoSideEffect :
    ∀ x ∈ [((0x000#9 : BitVec 9), 4), (0x0FC#9, 4), (0x1FF#9, 1), (0x1FE#9, 2), (0x1FC#9, 4)],
      refusedAccess x.1 x.2 = false := by decide

theorem witness_StepRunsTheDecodedInstruction :
    let s : State := { State.reset with pending := [.op (.access 0x010#9 4 (.write 0x1234#32))] }
    s.inReset = false ∧ decode (.access 0x010#9 4 (.write 0x1234#32)) = .instr (.st32Dest 0x1234) ∧
      (Instr.st32Dest 0x1234).wellFormed = true ∧ shows (·.dest) (step s) = some 0x1234 ∧ State.reset.pending = [] ∧
      decode (.event 0x5000#16) = .notAnEvent 0x5000#16 ∧
      step { State.reset with pending := [.op (.event 0x5000#16)] } = .refused (.notAnEvent 0x5000#16) := by
  refine ⟨by decide, by decide, by decide, by decide, by decide, by decide, rfl⟩

theorem witness_StepKeepsTheInvariant :
    State.reset.Inv ∧ shows (fun _ => ()) (step { State.reset with pending := [.op (.event 0x3000#16)] }) = some () := by
  decide

/-- Each clause: asserting, an event and an access while asserted, and releasing. -/
theorem witness_ResetInputStopsAndRestoresTheBlock :
    shows (·.inReset) (step { State.reset with pending := [.resetLine true] }) = some true ∧
    shows (·.tflag) (step { State.reset with inReset := true, pending := [.op (.event 0x3000#16)] }) = some 0b00 ∧
    shows (·.tflag) (step { State.reset with inReset := true, pending := [.op (.event 0x5000#16)] }) = none ∧
    faultOf (step { State.reset with inReset := true, pending := [.op (.access 0x000#9 4 .read)] }) = some .accessInReset ∧
    shows (fun s => (s.chan, s.epoch))
      (step { State.reset with chan := 0x17, inReset := true, pending := [.resetLine false] }) = some (0, 1) := by
  decide

end Sys2Proof.Tests
end

/-! PROOFS. Family 10, the state of the block: what a read and a write of a register do (R39 to R41), that what storage
held at reset is never observed (R44), and the invariant that every step keeps (R23, R25, R33, R38, R251). -/

namespace Sys2Proof.Machine

/-! ### The registers of R39 to R41 on the bus -/

/-- `CFG` as the sum of its fields (R35). -/
theorem cfgWith_eq_ofNat (k : ChecksumKind) (w : Fin 2) :
    cfgWith k w = BitVec.ofNat 32 (Config.capMax + 2 ^ 8 * Config.nPorts + 2 ^ 12 * Config.nAuxRings +
      2 ^ 16 * (kindBit k).toNat + 2 ^ 17 * w.val) := by
  revert w
  cases k with
  | add8 => decide
  | xor8 => decide

/-- `CFG2` as the sum of its fields (R36). -/
theorem cfg2Word_eq_ofNat :
    cfg2Word = BitVec.ofNat 32
      (Config.typeData.toNat + 2 ^ 8 * Config.typeRoute.toNat + 2 ^ 16 * Config.payloadMax) := by decide

/-- The meaning of a read of `CFG`, its fields spelt out (R35, R39). -/
theorem exec_ld32Cfg (s : State) : exec .ld32Cfg s =
    .next (s.returns (BitVec.ofNat 32 (Config.capMax + 2 ^ 8 * Config.nPorts + 2 ^ 12 * Config.nAuxRings +
      2 ^ 16 * (kindBit Config.checksumKind).toNat + 2 ^ 17 * Config.radioWindowOffset.val))) := by
  rw [← cfgWith_eq_ofNat]
  rfl

/-- The meaning of a read of `CFG2`, its fields spelt out (R36, R39). -/
theorem exec_ld32Cfg2 (s : State) : exec .ld32Cfg2 s =
    .next (s.returns (BitVec.ofNat 32
      (Config.typeData.toNat + 2 ^ 8 * Config.typeRoute.toNat + 2 ^ 16 * Config.payloadMax))) := by
  rw [← cfg2Word_eq_ofNat]
  rfl

/-- A read of a register narrower than the bus returns it zero-extended: its own number (R37). -/
theorem returns_setWidth {n : Nat} (s : State) (v : BitVec n) :
    s.returns (v.setWidth 32) = { s with busReads := s.busReads ++ [BitVec.ofNat 32 v.toNat] } := by
  rw [BitVec.ofNat_toNat]
  rfl

/-- The low bits of a bus value, as a number (R40, R41). -/
theorem extractLowBits_eq_ofNat {n : Nat} (v : Word) : v.extractLsb' 0 n = BitVec.ofNat n v.toNat := by
  apply BitVec.eq_of_toNat_eq
  simp [BitVec.extractLsb'_toNat]

/-- Settles O42: `CFG` and `CFG2` by their fields, the narrower registers zero-extended, `RES` as it stands. -/
theorem registerReadsReturnTheirValue : Obligations.RegisterReadsReturnTheirValue := by
  intro s
  refine ⟨rfl, rfl, ?err, ?ckacc, ?rtype, ?cfg, exec_ld32Cfg2 s⟩
  case err => exact congrArg Host.Outcome.next (returns_setWidth s s.err)
  case ckacc => exact congrArg Host.Outcome.next (returns_setWidth s s.ckacc)
  case rtype => exact congrArg Host.Outcome.next (returns_setWidth s s.rtype)
  case cfg =>
    rw [exec_ld32Cfg]
    cases Config.checksumKind <;> rfl

/-- Settles O43: each of the six arms answers the state it was given. -/
theorem writesToReadOnlyRegistersAreIgnored : Obligations.WritesToReadOnlyRegistersAreIgnored := by
  intro v s i hi
  simp only [List.mem_cons, List.not_mem_nil, or_false] at hi
  rcases hi with rfl | rfl | rfl | rfl | rfl | rfl <;> rfl

/-- Settles O44: a write keeps the low bits of the bus value, a read zero-extends. -/
theorem destAndChanHoldTheirFields : Obligations.DestAndChanHoldTheirFields := by
  intro v s
  refine ⟨?writeDest, ?readDest, ?writeChan, ?readChan⟩
  case writeDest =>
    exact congrArg (fun d => Host.Outcome.next { s with dest := d }) (extractLowBits_eq_ofNat v)
  case readDest => exact congrArg Host.Outcome.next (returns_setWidth s s.dest)
  case writeChan =>
    exact congrArg (fun c => Host.Outcome.next { s with chan := c }) (extractLowBits_eq_ofNat v)
  case readChan => exact congrArg Host.Outcome.next (returns_setWidth s s.chan)

/-! ### Storage at reset is never observed (R44) -/

/-- The ring after a removal does not depend on the storage: only `head` moves (R122). -/
theorem Ring.popMany_ring_free_irrelevant (free free' : Nat → Byte) (m : Nat) (g : Ring) :
    (Ring.popMany free m g).2 = (Ring.popMany free' m g).2 := by
  induction m generalizing g with
  | zero => rfl
  | succ m ih => exact ih { g with head := g.adv g.head }

/-- Settles O17: the bytes removed are the oldest stored ones, all written since reset, and the ring left behind is moved
by its indices alone. -/
theorem ringStorageAtResetIsUnobservable : Obligations.RingStorageAtResetIsUnobservable := by
  intro free free' g n hg
  have hbytes : (g.deq free n).1 = (g.deq free' n).1 := by
    rw [(Ring.deq_spec free n hg).1, (Ring.deq_spec free' n hg).1, Ring.stored_free_irrelevant hg free free']
  have hring : (g.deq free n).2 = (g.deq free' n).2 :=
    congrArg (Ring.withCount · _) (Ring.popMany_ring_free_irrelevant free free' _ g)
  exact Prod.ext hbytes hring

/-! ### The invariant under the shared operations -/

/-- Storing to a ring of the block keeps the invariant (R121). -/
theorem Inv_enq {s : State} (r : Fin Config.nRings) (bytes : List Byte) (h : s.Inv) : (s.enq r bytes).1.Inv :=
  Inv_setRing h (Ring.enq_spec (fun _ => 0#8) bytes (h.1 r)).1

/-- Removing from a ring of the block keeps the invariant (R122). -/
theorem Inv_deq {s : State} (r : Fin Config.nRings) (n : Nat) (h : s.Inv) : (s.deq r n).2.Inv :=
  Inv_setRing h (Ring.deq_spec (s.ringFree r) n (h.1 r)).2.1

/-- `txwrite` keeps the invariant (R152). -/
theorem Inv_txwrite {s : State} (p : Fin Config.nPorts) (bytes : List Byte) (h : s.Inv) : (s.txwrite p bytes).1.Inv := by
  rw [State.txwrite_eq]
  exact Inv_setPort p _ (Inv_enq (txRing p) bytes h)

/-- No more bytes are stored than were offered (R121). -/
theorem enq_written_le (s : State) (r : Fin Config.nRings) (bytes : List Byte) : (s.enq r bytes).2 ≤ bytes.length :=
  Nat.min_le_left _ _

/-- A removal returns no more bytes than a ring can hold (R122, R23). -/
theorem deq_length_le_capMax {s : State} (r : Fin Config.nRings) (n : Nat) (h : s.Inv) :
    (s.deq r n).1.length ≤ Config.capMax := by
  obtain ⟨⟨-, hcap⟩, hcount, -⟩ := h.1 r
  have hlen : (s.deq r n).1.length = min n (s.ring r).count.toNat := Ring.deq_length (s.ringFree r) n (h.1 r)
  omega

theorem inputBytes_length_le (s : State) (n : Byte) : (s.inputBytes n).length ≤ 255 := by
  have hn : n.toNat < 256 := n.isLt
  rw [inputBytes_eq, firstBytes_length]
  omega

theorem radioWindow_length_le (s : State) (w : Fin 2) : (s.radioWindow w).length ≤ 255 := by
  rw [radioWindow_eq, List.length_drop, firstBytes_length]
  omega

/-! ### The invariant under the ways a command ends (R9) -/

/-- A failed or void command reports 0. -/
theorem Inv_finish_zero {s : State} (e : Status) (h : s.Inv) : (s.finish e 0#32).Inv :=
  Inv_finish e (by decide) h

/-- A command that reports a byte keeps the invariant (R33). -/
theorem Inv_finish_byte {s : State} (e : Status) (b : Byte) (h : s.Inv) : (s.finish e (b.setWidth 32)).Inv := by
  have hb : b.toNat < 256 := b.isLt
  refine Inv_finish e ?_ h
  rw [BitVec.toNat_setWidth_of_le (by decide)]
  omega

/-- A command that reports a number of bytes keeps the invariant (R33). -/
theorem Inv_finish_count {s : State} (e : Status) {n : Nat} (hn : n ≤ 255) (h : s.Inv) :
    (s.finish e (countWord n)).Inv :=
  Inv_finish e (by rwa [countWord_toNat hn]) h

/-- `CKACC` is outside the invariant, and a byte (R212 to R214). -/
theorem Inv_setCkacc {s : State} (v : Byte) (h : s.Inv) : (s.setCkacc v).Inv :=
  Inv_finish_byte (s := { s with ckacc := v }) .ok v h

/-- Removed bytes left in `DBUF` and counted in `RES`: the end of `RB_DEQ` and `SER_READ`. -/
theorem Inv_removed {s : State} (r : Fin Config.nRings) (n : Nat) (h : s.Inv) :
    (((s.deq r n).2.outputBytes (s.deq r n).1).finish .ok (countWord (s.deq r n).1.length)).Inv := by
  have hlen : (s.deq r n).1.length ≤ 128 := deq_length_le_capMax r n h
  exact Inv_finish_count .ok (by omega) (Inv_storeDbuf (by omega) (Inv_deq r n h))

/-- Bytes stored to a TX ring and counted in `RES`: the end of `SER_WRITE` and `PKT_SEND`. -/
theorem Inv_transmitted {s : State} (p : Fin Config.nPorts) {bytes : List Byte} (e : Status) (hb : bytes.length ≤ 255)
    (h : s.Inv) : ((s.txwrite p bytes).1.finish e (countWord (s.txwrite p bytes).2)).Inv :=
  Inv_finish_count e (Nat.le_trans (enq_written_le s (txRing p) bytes) hb) (Inv_txwrite p bytes h)

/-- A framing command whose output has the length it reports, at most 255, keeps the invariant (R184 to R186). -/
theorem Inv_framed {s : State} (n : Byte) {bytes : List Byte → List Byte} {length : Nat}
    (hbytes : ∀ l : List Byte, l.length ≤ 61 → (bytes l).length = length) (hlength : length ≤ 255) (h : s.Inv) :
    (s.framed n bytes length).Inv := by
  unfold State.framed
  split
  · exact Inv_finish_zero _ h
  · rename_i hn
    have hin : (s.inputBytes n).length ≤ 61 := by
      rw [inputBytes_eq, firstBytes_length]
      exact Nat.not_lt.1 hn
    have hout : 0 + (bytes (s.inputBytes n)).length ≤ 256 := by
      rw [hbytes _ hin]
      omega
    exact Inv_finish_count .ok hlength (Inv_storeDbuf hout h)

/-! ### The invariant under each command -/

theorem Inv_cmdRbInit {s : State} (r cap : Byte) (h : s.Inv) : (cmdRbInit r cap s).Inv := by
  unfold cmdRbInit
  split
  · exact Inv_finish_zero _ h
  · rename_i i _
    split
    · exact Inv_finish_zero _ h
    · rename_i hcap
      exact Inv_finish_zero _ (Inv_setRing h (Ring.init_ok (h.1 i) (by omega) (by omega)))

theorem Inv_cmdRbEnq {s : State} (r n : Byte) (h : s.Inv) : (cmdRbEnq r n s).Inv := by
  unfold cmdRbEnq
  split
  · exact Inv_finish_zero _ h
  · rename_i i _
    have hw := Nat.le_trans (enq_written_le s i (s.inputBytes n)) (inputBytes_length_le s n)
    exact Inv_finish_count _ hw (Inv_enq i _ h)

theorem Inv_cmdRbDeq {s : State} (r n : Byte) (h : s.Inv) : (cmdRbDeq r n s).Inv := by
  unfold cmdRbDeq
  split
  · exact Inv_finish_zero _ h
  · exact Inv_removed _ _ h

theorem Inv_cmdRbIsEmpty {s : State} (r : Byte) (h : s.Inv) : (cmdRbIsEmpty r s).Inv := by
  unfold cmdRbIsEmpty
  split
  · exact Inv_finish_zero _ h
  · exact Inv_finish _ (by split <;> decide) h

theorem Inv_cmdRbIsFull {s : State} (r : Byte) (h : s.Inv) : (cmdRbIsFull r s).Inv := by
  unfold cmdRbIsFull
  split
  · exact Inv_finish_zero _ h
  · exact Inv_finish _ (by split <;> decide) h

theorem Inv_cmdRbCount {s : State} (r : Byte) (h : s.Inv) : (cmdRbCount r s).Inv := by
  unfold cmdRbCount
  split
  · exact Inv_finish_zero _ h
  · exact Inv_finish_byte _ _ h

theorem Inv_cmdRbCap {s : State} (r : Byte) (h : s.Inv) : (cmdRbCap r s).Inv := by
  unfold cmdRbCap
  split
  · exact Inv_finish_zero _ h
  · exact Inv_finish_byte _ _ h

theorem Inv_cmdSerWrite {s : State} (p n : Byte) (h : s.Inv) : (cmdSerWrite p n s).Inv := by
  unfold cmdSerWrite
  split
  · exact Inv_finish_zero _ h
  · exact Inv_transmitted _ _ (inputBytes_length_le s n) h

theorem Inv_cmdSerRead {s : State} (p n : Byte) (h : s.Inv) : (cmdSerRead p n s).Inv := by
  unfold cmdSerRead
  split
  · exact Inv_finish_zero _ h
  · exact Inv_removed _ _ h

theorem Inv_cmdPktEncode {s : State} (n t : Byte) (h : s.Inv) : (cmdPktEncode n t s).Inv :=
  Inv_framed n (fun _ hl => frameWith_length _ t hl) (by decide) h

theorem Inv_cmdPktEnvelope {s : State} (n t : Byte) (h : s.Inv) : (cmdPktEnvelope n t s).Inv :=
  Inv_framed n (fun _ hl => envelopeWith_length _ s.dest s.chan t hl) (by decide) h

theorem Inv_cmdPktRoute {s : State} (n : Byte) (h : s.Inv) : (cmdPktRoute n s).Inv :=
  Inv_framed n (fun _ hl => envelopeWith_length _ _ _ _ hl) (by decide) h

theorem Inv_cmdPktDecode {s : State} (off : Byte) (h : s.Inv) : (cmdPktDecode off s).Inv := by
  unfold cmdPktDecode pktDecodeWith
  split
  · exact Inv_finish_zero _ h
  · split
    · exact Inv_finish_count (s := { s with rtype := s.dbufByte off.toNat }) _ (by decide) h
    · exact Inv_finish_zero _ h

theorem Inv_cmdPktSend {s : State} (p : Byte) (h : s.Inv) : (cmdPktSend p s).Inv := by
  unfold cmdPktSend pktSendWith
  split
  · exact Inv_finish_zero _ h
  · exact Inv_transmitted _ _ (radioWindow_length_le s _) h

/-- Every command keeps the invariant (R93). -/
theorem Inv_runCommand {s : State} (c : Command) (h : s.Inv) : (runCommand c s).Inv := by
  obtain ⟨op, idx, len, imm⟩ := c
  cases op with
  | rbInit => exact Inv_cmdRbInit idx len h
  | rbEnq => exact Inv_cmdRbEnq idx len h
  | rbDeq => exact Inv_cmdRbDeq idx len h
  | rbIsEmpty => exact Inv_cmdRbIsEmpty idx h
  | rbIsFull => exact Inv_cmdRbIsFull idx h
  | rbCount => exact Inv_cmdRbCount idx h
  | rbCap => exact Inv_cmdRbCap idx h
  | serWrite => exact Inv_cmdSerWrite idx len h
  | serRead => exact Inv_cmdSerRead idx len h
  | pktEncode => exact Inv_cmdPktEncode len imm h
  | pktEnvelope => exact Inv_cmdPktEnvelope len imm h
  | pktRoute => exact Inv_cmdPktRoute len h
  | pktDecode => exact Inv_cmdPktDecode imm h
  | pktSend => exact Inv_cmdPktSend idx h
  | ckClear => exact Inv_setCkacc _ h
  | ckByte => exact Inv_setCkacc _ h
  | ckBuf => exact Inv_setCkacc _ h

/-- A `CMD` write of any word keeps the invariant (R95, R96). -/
theorem Inv_cmdWritten {s : State} (w : Word) (h : s.Inv) : (cmdWritten w s).Inv := by
  unfold cmdWritten
  split
  · exact Inv_finish_zero _ h
  · exact Inv_runCommand _ h

/-! ### The invariant under the events and the reset input -/

theorem Inv_receive {s : State} (p : Fin Config.nPorts) (b : Byte) (h : s.Inv) : (s.receive p b).Inv := by
  have hstored := Inv_enq (rxRing p) [b] h
  rw [State.receive_eq]
  split
  · exact Inv_setPort p _ hstored
  · exact hstored

theorem Inv_txrdy {s : State} (p : Fin Config.nPorts) (h : s.Inv) : (s.txrdy p).Inv := by
  rw [State.txrdy_eq]
  split
  · exact Inv_setPort p _ h
  · exact Inv_setPort p _ (Inv_deq (txRing p) 1 h)

/-- The state after any reset meets the invariant (R281). -/
theorem Inv_atReset (epoch : Nat) (pending : List Input) : (State.atReset epoch pending).Inv := by
  have hring : Ring.atReset.Ok := by decide
  have hrings : ∀ r, (State.atReset epoch pending).ring r = Ring.atReset := fun r => by
    simp [State.ring, State.atReset]
  refine ⟨fun r => ?_, ⟨List.Pairwise.nil, List.forall_mem_nil _⟩, Nat.zero_le _, Nat.zero_le _⟩
  rw [hrings]
  exact hring

theorem Inv_resetLine {s : State} (asserted : Bool) (h : s.Inv) : (resetLine asserted s).Inv := by
  unfold resetLine
  split
  · exact h
  · split
    · exact Inv_atReset _ _
    · exact h

/-! ### The invariant under a step -/

/-- Whatever next state an outcome has meets the invariant; a fault or a refusal has none. -/
def NextInv : Host.Outcome State Fault Refusal → Prop
  | .next t => t.Inv
  | .fault _ => True
  | .refused _ => True

theorem NextInv.inv {o : Host.Outcome State Fault Refusal} {t : State} (ho : NextInv o) (h : o = .next t) : t.Inv := by
  subst h
  exact ho

/-- A `DBUF` access keeps the invariant, refused (R63) or not. -/
theorem NextInv_alignedOr (i : Byte) (width : Nat) {t : State} (h : i.toNat % width = 0 → t.Inv) :
    NextInv (alignedOr i width t) := by
  unfold alignedOr
  split
  · rename_i haligned
    exact h haligned
  · trivial

/-- Every instruction keeps the invariant, well-formed or not. -/
theorem NextInv_exec {s : State} (i : Instr) (h : s.Inv) : NextInv (exec i s) := by
  cases i with
  | rbInit r cap => exact Inv_cmdRbInit r cap h
  | rbEnq r n => exact Inv_cmdRbEnq r n h
  | rbDeq r n => exact Inv_cmdRbDeq r n h
  | rbIsEmpty r => exact Inv_cmdRbIsEmpty r h
  | rbIsFull r => exact Inv_cmdRbIsFull r h
  | rbCount r => exact Inv_cmdRbCount r h
  | rbCap r => exact Inv_cmdRbCap r h
  | serWrite p n => exact Inv_cmdSerWrite p n h
  | serRead p n => exact Inv_cmdSerRead p n h
  | pktEncode n t => exact Inv_cmdPktEncode n t h
  | pktEnvelope n t => exact Inv_cmdPktEnvelope n t h
  | pktRoute n => exact Inv_cmdPktRoute n h
  | pktDecode off => exact Inv_cmdPktDecode off h
  | pktSend p => exact Inv_cmdPktSend p h
  | ckClear => exact Inv_setCkacc _ h
  | ckByte b => exact Inv_setCkacc _ h
  | ckBuf n => exact Inv_setCkacc _ h
  | st32Cmd w => exact Inv_cmdWritten w h
  | ld32Cmd | ld32Res | ld32Err | ld32Tflag | ld32Dest | ld32Chan | ld32Ckacc | ld32Rtype | ld32Cfg | ld32Cfg2 =>
    exact Inv_returns _ h
  | st32Res _ | st32Err _ | st32Tflag _ | st32Dest _ | st32Chan _ | st32Ckacc _ | st32Rtype _ | st32Cfg _
  | st32Cfg2 _ => exact h
  | ld32Pstat p =>
    rw [exec, execLd32Pstat]
    split <;> exact Inv_returns _ h
  | st32Pstat p v =>
    rw [exec, execSt32Pstat]
    split
    · exact h
    · exact Inv_setPort _ _ h
  | ld8Dbuf j => exact Inv_returns _ h
  | st8Dbuf j v => exact Inv_storeDbuf (Nat.succ_le_of_lt j.isLt) h
  | ld16Dbuf j => exact NextInv_alignedOr j 2 fun _ => Inv_returns _ h
  | st16Dbuf j v =>
    have hj : j.toNat < 256 := j.isLt
    exact NextInv_alignedOr j 2 fun ha => Inv_storeDbuf (by simp only [halfBytes, List.length]; omega) h
  | ld32Dbuf j => exact NextInv_alignedOr j 4 fun _ => Inv_returns _ h
  | st32Dbuf j v =>
    have hj : j.toNat < 256 := j.isLt
    exact NextInv_alignedOr j 4 fun ha => Inv_storeDbuf (by simp only [wordBytes, List.length]; omega) h
  | reservedOffset off dir =>
    cases dir with
    | read => exact Inv_returns _ h
    | write v => exact h
  | badAccess off width dir => trivial
  | evRx p b =>
    rw [exec, execEvRx]
    split
    · trivial
    · exact Inv_receive _ b h
  | evTxrdy p =>
    rw [exec, execEvTxrdy]
    split
    · trivial
    · split
      · exact Inv_txrdy _ h
      · trivial
  | evTick2ms | evTick1s => exact h

theorem NextInv_operate {s : State} (o : Operation) (h : s.Inv) : NextInv (operate o s) := by
  unfold operate
  split
  · exact NextInv_exec _ h
  · trivial

/-- While the reset input is asserted an operation changes nothing (R280). -/
theorem NextInv_whileInReset {s : State} (o : Operation) (h : s.Inv) : NextInv (whileInReset o s) := by
  cases o with
  | access off width dir => trivial
  | event w =>
    rw [whileInReset]
    split
    · exact h
    · trivial

theorem NextInv_deliver {s : State} (input : Input) (h : s.Inv) : NextInv (deliver input s) := by
  cases input with
  | op o =>
    rw [deliver]
    split
    · exact NextInv_whileInReset o h
    · exact NextInv_operate o h
  | resetLine asserted => exact Inv_resetLine asserted h

/-- Taking an input off the list touches nothing the invariant speaks of; what the input does keeps it. -/
theorem NextInv_step {s : State} (h : s.Inv) : NextInv (step s) := by
  unfold step takeInput
  split
  · exact h
  · rename_i rest _
    exact NextInv_deliver (s := { s with pending := rest }) _ h

/-- Settles O53: the invariant is kept by the shared operations, so by each command, access and event, so by a step. -/
theorem stepKeepsTheInvariant : Obligations.StepKeepsTheInvariant :=
  fun _ _ h hstep => (NextInv_step h).inv hstep

end Sys2Proof.Machine

/-! PROOFS. Family 20, the memory map: which instruction an access or an event decodes to (R63, R64, R99, R101), the
accesses the block refuses (R252), reserved offsets (R64), the staging buffer as one little-endian byte array (R65 to
R67, R79), and which operations have a step (R68, R70, R135, R154). -/

namespace Sys2Proof.Machine

/-! ### What an access decodes to (R63, R99) -/

/-- The accesses the block takes, by their three conditions (R62, R63). -/
theorem refusedAccess_eq_false {off : BitVec 9} {width : Nat} :
    refusedAccess off width = false ↔
      (width = 1 ∨ width = 2 ∨ width = 4) ∧ off.toNat % width = 0 ∧ (off.toNat < 0x100 → width = 4) := by
  simp only [refusedAccess, Bool.or_eq_false_iff, Bool.not_eq_false', Bool.or_eq_true, beq_iff_eq, bne_eq_false_iff_eq,
    Bool.and_eq_false_imp, decide_eq_true_eq, or_assoc, and_assoc]

/-- The accesses the block refuses, by the three grounds of R252. -/
theorem refusedAccess_of_ground {off : BitVec 9} {width : Nat}
    (h : width ∉ [1, 2, 4] ∨ off.toNat % width ≠ 0 ∨ (off.toNat < 0x100 ∧ width ≠ 4)) :
    refusedAccess off width = true := by
  refine Bool.eq_true_of_not_eq_false fun hf => ?_
  obtain ⟨hwidth, haligned, hlow⟩ := refusedAccess_eq_false.1 hf
  rcases h with h | h | ⟨hoff, h⟩
  · exact h (by simpa using hwidth)
  · exact h haligned
  · exact h (hlow hoff)

/-- The access to a fixed register, in either direction. -/
def accessInstr (g : Reg) : Dir → Instr
  | .read => g.readInstr
  | .write v => g.writeInstr v

/-- The access to a port status register, in either direction. -/
def pstatInstr (p : BitVec 3) : Dir → Instr
  | .read => .ld32Pstat p
  | .write v => .st32Pstat p v

/-- The port that a port status offset names is one of the block's. -/
theorem pstatPort_lt {off : BitVec 9} (h : isPstat off = true) : (pstatPort off).toNat < Config.nPorts := by
  simp only [isPstat, Bool.and_eq_true, decide_eq_true_eq] at h
  rw [pstatPort_toNat]
  unfold Config.nPorts at h ⊢
  omega

theorem decodeRegister_fixed {off : BitVec 9} {g : Reg} (dir : Dir) (h : Reg.ofOffset? off = some g) :
    decodeRegister off dir = accessInstr g dir := by
  cases dir <;> simp only [decodeRegister, h, accessInstr]

theorem decodeRegister_pstat {off : BitVec 9} (dir : Dir) (h : Reg.ofOffset? off = none) (hp : isPstat off = true) :
    decodeRegister off dir = pstatInstr (pstatPort off) dir := by
  cases dir <;> simp only [decodeRegister, h, hp, if_true, pstatInstr]

theorem decodeRegister_reserved {off : BitVec 9} (dir : Dir) (h : Reg.ofOffset? off = none)
    (hp : isPstat off = false) : decodeRegister off dir = .reservedOffset off dir := by
  simp only [decodeRegister, h, hp, Bool.false_eq_true, if_false]

/-- An aligned offset with no register at it is unmapped (R37). -/
theorem mappedOffset_eq_false {off : BitVec 9} (ha : off.toNat % 4 = 0) (h : Reg.ofOffset? off = none)
    (hp : isPstat off = false) : mappedOffset off = false := by
  have hfixed : ¬ off.toNat < 0x28 := Nat.not_lt.2 ((ofOffset?_none_iff off ha).1 h)
  rw [mappedOffset, decide_eq_false hfixed, Bool.false_or]
  exact hp

/-- Everything an access that is not refused can be: a `DBUF` access, a fixed register, a port status register, or a
reserved offset (R99). -/
theorem decodeAccess_cases {off : BitVec 9} {width : Nat} (dir : Dir) (h : refusedAccess off width = false) :
    ((width = 1 ∨ width = 2 ∨ width = 4) ∧ (off.setWidth 8 : Byte).toNat % width = 0 ∧
      decodeAccess off width dir = decodeDbuf off width dir) ∨
    (∃ g : Reg, decodeAccess off width dir = accessInstr g dir) ∨
    (∃ p : BitVec 3, p.toNat < Config.nPorts ∧ decodeAccess off width dir = pstatInstr p dir) ∨
    ((Instr.reservedOffset off dir).wellFormed = true ∧ decodeAccess off width dir = .reservedOffset off dir) := by
  obtain ⟨hwidth, haligned, hlow⟩ := refusedAccess_eq_false.1 h
  by_cases hoff : off.toNat < 0x100
  · obtain rfl := hlow hoff
    rw [decodeAccess_register dir hoff haligned]
    cases hreg : Reg.ofOffset? off with
    | some g => exact .inr (.inl ⟨g, decodeRegister_fixed dir hreg⟩)
    | none =>
      cases hp : isPstat off with
      | true => exact .inr (.inr (.inl ⟨_, pstatPort_lt hp, decodeRegister_pstat dir hreg hp⟩))
      | false =>
        have hwf : (Instr.reservedOffset off dir).wellFormed = true := by
          simp [Instr.wellFormed, hoff, haligned, mappedOffset_eq_false haligned hreg hp]
        exact .inr (.inr (.inr ⟨hwf, decodeRegister_reserved dir hreg hp⟩))
  · have hindex : (off.setWidth 8 : Byte).toNat % width = 0 := by
      rw [BitVec.toNat_setWidth]
      rcases hwidth with rfl | rfl | rfl <;> omega
    exact .inl ⟨hwidth, hindex, decodeAccess_dbuf dir hwidth (Nat.not_lt.1 hoff) haligned⟩

/-! ### What an event word decodes to (R100, R101) -/

/-- Everything a 16-bit word can be: an event of one of the four rows, or no event. -/
theorem decodeEvent_cases (w : Half) :
    (w.toNat / 0x1000 = 1 ∧ (eventPort w).toNat < Config.nPorts ∧
      decodeEvent w = .instr (.evRx (eventPort w) (eventData w))) ∨
    (w.toNat / 0x1000 = 2 ∧ (eventPort w).toNat < Config.nPorts ∧ w.toNat % 0x100 = 0 ∧
      decodeEvent w = .instr (.evTxrdy (eventPort w))) ∨
    (w.toNat = 0x3000 ∧ decodeEvent w = .instr .evTick2ms) ∨
    (w.toNat = 0x4000 ∧ decodeEvent w = .instr .evTick1s) ∨
    (isEventWord w = false ∧ decodeEvent w = .notAnEvent w) := by
  rw [decodeEvent_eq, eventPort_toNat]
  split
  case isTrue h => exact .inl ⟨h.1, h.2, rfl⟩
  case isFalse hrx =>
  split
  case isTrue h => exact .inr (.inl ⟨h.1, h.2.1, h.2.2, rfl⟩)
  case isFalse htx =>
  split
  case isTrue h => exact .inr (.inr (.inl ⟨h, rfl⟩))
  case isFalse h2ms =>
  split
  case isTrue h => exact .inr (.inr (.inr (.inl ⟨h, rfl⟩)))
  case isFalse h1s =>
    refine .inr (.inr (.inr (.inr ⟨?_, rfl⟩)))
    rw [← Bool.not_eq_true]
    simp only [isEventWord, Bool.or_eq_true, Bool.and_eq_true, decide_eq_true_eq, beq_iff_eq]
    tauto

/-! ### Whatever the decoder gives is well-formed -/

theorem toInstr_wellFormed (c : Command) : c.toInstr.wellFormed = true := by
  obtain ⟨op, idx, len, imm⟩ := c
  cases op <;> rfl

theorem cmdWriteInstr_wellFormed (w : Word) : (cmdWriteInstr w).wellFormed = true := by
  unfold cmdWriteInstr
  split
  · exact toInstr_wellFormed _
  · rename_i hnone
    rw [Instr.wellFormed, decodeCommand_eq_none.1 hnone, Bool.not_false]

theorem accessInstr_wellFormed (g : Reg) (dir : Dir) : (accessInstr g dir).wellFormed = true := by
  cases dir with
  | read => cases g <;> rfl
  | write v =>
    cases g with
    | cmd => exact cmdWriteInstr_wellFormed v
    | res | err | tflag | dest | chan | ckacc | rtype | cfg | cfg2 => rfl

theorem pstatInstr_wellFormed {p : BitVec 3} (dir : Dir) (h : p.toNat < Config.nPorts) :
    (pstatInstr p dir).wellFormed = true := by
  cases dir <;> exact decide_eq_true h

theorem decodeDbuf_wellFormed {off : BitVec 9} {width : Nat} (dir : Dir) (hw : width = 1 ∨ width = 2 ∨ width = 4)
    (ha : (off.setWidth 8 : Byte).toNat % width = 0) : (decodeDbuf off width dir).wellFormed = true := by
  rcases hw with rfl | rfl | rfl
  · cases dir <;> rfl
  · cases dir <;> exact beq_iff_eq.2 ha
  · cases dir <;> exact beq_iff_eq.2 ha

theorem decodeAccess_wellFormed (off : BitVec 9) (width : Nat) (dir : Dir) :
    (decodeAccess off width dir).wellFormed = true := by
  cases href : refusedAccess off width with
  | true =>
    rw [decodeAccess_refused dir href]
    exact href
  | false =>
    rcases decodeAccess_cases dir href with ⟨hw, ha, hd⟩ | ⟨g, hd⟩ | ⟨p, hp, hd⟩ | ⟨hwf, hd⟩ <;> rw [hd]
    · exact decodeDbuf_wellFormed dir hw ha
    · exact accessInstr_wellFormed g dir
    · exact pstatInstr_wellFormed dir hp
    · exact hwf

theorem wellFormed_of_decodeEvent {w : Half} {i : Instr} (h : decodeEvent w = .instr i) : i.wellFormed = true := by
  rcases decodeEvent_cases w with ⟨-, hp, hd⟩ | ⟨-, hp, -, hd⟩ | ⟨-, hd⟩ | ⟨-, hd⟩ | ⟨-, hd⟩ <;> rw [hd] at h <;> cases h
  · exact decide_eq_true hp
  · exact decide_eq_true hp
  · rfl
  · rfl

/-- Settles O2: by the format of the operation, and then by the row it decodes to. -/
theorem decodedInstructionsAreWellFormed : Obligations.DecodedInstructionsAreWellFormed := by
  intro o i h
  cases o with
  | access off width dir =>
    cases h
    exact decodeAccess_wellFormed off width dir
  | event w => exact wellFormed_of_decodeEvent h

/-! ### Refused accesses (R62, R63, R252) -/

/-- A refused access stops with the bus error of its address. -/
theorem operate_refused {off : BitVec 9} {width : Nat} (dir : Dir) (s : State) (h : refusedAccess off width = true) :
    operate (.access off width dir) s = busError off.toNat := by
  rw [operate, decode, decodeAccess_refused dir h]
  rfl

/-- Settles O47: each ground of R252 makes the access a refused one. -/
theorem refusedAccessIsABusError : Obligations.RefusedAccessIsABusError := by
  intro off width dir s h
  exact ⟨operate_refused dir s (refusedAccess_of_ground h), rfl⟩

/-! ### Reserved offsets (R64) -/

/-- An aligned 32-bit access below 0x100, past the fixed registers and off the port status registers, is reserved. -/
theorem decode_reserved {off : BitVec 9} (dir : Dir) (hoff : off.toNat < 0x100) (ha : off.toNat % 4 = 0)
    (hfixed : 0x028 ≤ off.toNat) (hport : off.toNat < 0x040 ∨ 0x040 + 4 * Config.nPorts ≤ off.toNat) :
    decode (.access off 4 dir) = .instr (.reservedOffset off dir) := by
  have hp : isPstat off = false := by
    simp only [isPstat, Bool.and_eq_false_imp, decide_eq_true_eq, decide_eq_false_iff_not]
    omega
  rw [decode, decodeAccess_register dir hoff ha, decodeRegister_reserved dir ((ofOffset?_none_iff off ha).2 hfixed) hp]

/-- Settles O46: the offset decodes to the reserved row, whose read answers 0 and whose write does nothing. -/
theorem reservedOffsetsReadZero : Obligations.ReservedOffsetsReadZero := by
  intro off v s hoff ha hfixed hport
  exact ⟨⟨operate_instr s (decode_reserved .read hoff ha hfixed hport), rfl⟩,
    ⟨operate_instr s (decode_reserved (.write v) hoff ha hfixed hport), rfl⟩⟩

/-! ### The staging buffer by one instruction (R65 to R67) -/

/-- An aligned access passes the check of R63. -/
theorem alignedOr_of_aligned {i : Byte} {width : Nat} (t : State) (h : i.toNat % width = 0) :
    alignedOr i width t = .next t := if_pos h

/-- An 8-bit read returns the byte (R66). -/
theorem exec_ld8Dbuf (i : Byte) (s : State) :
    exec (.ld8Dbuf i) s = .next (s.returns (BitVec.ofNat 32 (s.dbufByte i.toNat).toNat)) :=
  congrArg Host.Outcome.next (returns_setWidth s _)

/-- An aligned 16-bit read returns the number its two bytes make (R66). -/
theorem exec_ld16Dbuf {i : Byte} (s : State) (h : i.toNat % 2 = 0) :
    exec (.ld16Dbuf i) s = .next (s.returns
      (BitVec.ofNat 32 ((s.dbufByte i.toNat).toNat + 2 ^ 8 * (s.dbufByte (i.toNat + 1)).toNat))) := by
  rw [exec, execLd16Dbuf, alignedOr_of_aligned _ h, returns_setWidth, halfOf_toNat]
  rfl

/-- An aligned 32-bit read returns the number its four bytes make (R66). -/
theorem exec_ld32Dbuf {i : Byte} (s : State) (h : i.toNat % 4 = 0) :
    exec (.ld32Dbuf i) s = .next (s.returns
      (BitVec.ofNat 32 ((s.dbufByte i.toNat).toNat + 2 ^ 8 * (s.dbufByte (i.toNat + 1)).toNat +
        2 ^ 16 * (s.dbufByte (i.toNat + 2)).toNat + 2 ^ 24 * (s.dbufByte (i.toNat + 3)).toNat))) := by
  rw [exec, execLd32Dbuf, alignedOr_of_aligned _ h, ← wordOf_toNat, BitVec.ofNat_toNat, BitVec.setWidth_eq]

/-- An 8-bit write stores its byte (R67). -/
theorem exec_st8Dbuf (i v : Byte) (s : State) : exec (.st8Dbuf i v) s = .next (s.storeDbuf i.toNat [v]) := rfl

/-- An aligned 16-bit write stores its two bytes (R67). -/
theorem exec_st16Dbuf {i : Byte} (v : Half) (s : State) (h : i.toNat % 2 = 0) :
    exec (.st16Dbuf i v) s = .next (s.storeDbuf i.toNat (halfBytes v)) := alignedOr_of_aligned _ h

/-- An aligned 32-bit write stores its four bytes (R67). -/
theorem exec_st32Dbuf {i : Byte} (v : Word) (s : State) (h : i.toNat % 4 = 0) :
    exec (.st32Dbuf i v) s = .next (s.storeDbuf i.toNat (wordBytes v)) := alignedOr_of_aligned _ h

/-- Settles O48: each width by the number its bytes make. -/
theorem dbufReadsAreLittleEndian : Obligations.DbufReadsAreLittleEndian :=
  fun i s => ⟨exec_ld8Dbuf i s, exec_ld16Dbuf s, exec_ld32Dbuf s⟩

/-! ### What a write leaves in the staging buffer (R65, R67) -/

/-- One stored byte stands at its index, and every other byte is as it was. -/
theorem dbufByte_storeDbuf_singleton (s : State) (i : Nat) (v : Byte) (a : Nat) :
    (s.storeDbuf i [v]).dbufByte a = if a = i then v else s.dbufByte a := by
  rw [dbufByte_storeDbuf]
  rcases Nat.lt_trichotomy a i with h | rfl | h
  · rw [if_pos h, if_neg (Nat.ne_of_lt h)]
  · simp
  · rw [if_neg (by omega), if_neg (by omega), List.getElem?_eq_none (by simp; omega), Option.getD_none]

/-- The bytes of a number, stored lowest first: byte `k` at the `k`-th index, and every other byte as it was. -/
theorem dbufByte_storeDbuf_littleEndian {bytes : List Byte} {n x : Nat} (s : State) (i : Nat) (hlen : bytes.length = n)
    (hbytes : ∀ k < n, bytes[k]? = some (BitVec.ofNat 8 (x / 2 ^ (8 * k)))) (a : Nat) :
    (s.storeDbuf i bytes).dbufByte a =
      if i ≤ a ∧ a < i + n then BitVec.ofNat 8 (x / 2 ^ (8 * (a - i))) else s.dbufByte a := by
  rw [dbufByte_storeDbuf]
  by_cases hbelow : a < i
  · rw [if_pos hbelow, if_neg (by omega)]
  · rw [if_neg hbelow]
    by_cases hin : a < i + n
    · rw [if_pos ⟨Nat.not_lt.1 hbelow, hin⟩, hbytes _ (by omega), Option.getD_some]
    · rw [if_neg (by omega), List.getElem?_eq_none (by omega), Option.getD_none]

/-- Byte `k` of a 16-bit value. -/
theorem halfBytes_getElem? (v : Half) : ∀ k < 2, (halfBytes v)[k]? = some (BitVec.ofNat 8 (v.toNat / 2 ^ (8 * k)))
  | 0, _ => congrArg some (extractByte_eq v 0)
  | 1, _ => congrArg some (extractByte_eq v 1)

/-- Byte `k` of a 32-bit value. -/
theorem wordBytes_getElem? (v : Word) : ∀ k < 4, (wordBytes v)[k]? = some (BitVec.ofNat 8 (v.toNat / 2 ^ (8 * k)))
  | 0, _ => congrArg some (extractByte_eq v 0)
  | 1, _ => congrArg some (extractByte_eq v 1)
  | 2, _ => congrArg some (extractByte_eq v 2)
  | 3, _ => congrArg some (extractByte_eq v 3)

/-- Settles O49: a write is a store of the bytes of its value, lowest first. -/
theorem dbufWritesAreLittleEndian : Obligations.DbufWritesAreLittleEndian := by
  intro i v8 v16 v32 s
  refine ⟨⟨_, exec_st8Dbuf i v8 s, rfl, dbufByte_storeDbuf_singleton s i.toNat v8⟩, fun h => ?half, fun h => ?word⟩
  case half =>
    exact ⟨_, exec_st16Dbuf v16 s h, rfl, dbufByte_storeDbuf_littleEndian s i.toNat rfl (halfBytes_getElem? v16)⟩
  case word =>
    exact ⟨_, exec_st32Dbuf v32 s h, rfl, dbufByte_storeDbuf_littleEndian s i.toNat rfl (wordBytes_getElem? v32)⟩

/-! ### Accesses of different widths (R79) -/

/-- An instruction that completes, and those after it. -/
theorem execAll_cons_of_next {i : Instr} {rest : List Instr} {s t : State} (h : exec i s = .next t) :
    execAll (i :: rest) s = execAll rest t := by rw [execAll, h]

/-- The indices after an aligned one stay inside `DBUF`: no index of the access wraps. -/
theorem dbufIndex_add_toNat {i : Byte} (h : i.toNat % 4 = 0) {k : Nat} (hk : k < 4) :
    (i + BitVec.ofNat 8 k).toNat = i.toNat + k := by
  have hi : i.toNat < 256 := i.isLt
  rw [BitVec.toNat_add, BitVec.toNat_ofNat]
  omega

/-- Byte `k` that a 32-bit write leaves, as a number. -/
theorem dbufByte_storeDbuf_wordBytes_toNat (s : State) (i : Nat) (v : Word) {k : Nat} (hk : k < 4) :
    ((s.storeDbuf i (wordBytes v)).dbufByte (i + k)).toNat = v.toNat / 2 ^ (8 * k) % 2 ^ 8 := by
  have hlen : (wordBytes v).length = 4 := rfl
  rw [dbufByte_storeDbuf_littleEndian s i hlen (wordBytes_getElem? v), if_pos (by omega), Nat.add_sub_cancel_left,
    BitVec.toNat_ofNat]

/-- A 32-bit write, read back by bytes and by halves. -/
theorem execAll_writeWord_readNarrow {i : Byte} (v : Word) (s : State) (h : i.toNat % 4 = 0) :
    ∃ t, execAll [.st32Dbuf i v, .ld8Dbuf i, .ld8Dbuf (i + 1), .ld8Dbuf (i + 2), .ld8Dbuf (i + 3), .ld16Dbuf i,
        .ld16Dbuf (i + 2)] s = .next t ∧
      t.busReads = s.busReads ++ [BitVec.ofNat 32 (v.toNat % 2 ^ 8), BitVec.ofNat 32 (v.toNat / 2 ^ 8 % 2 ^ 8),
        BitVec.ofNat 32 (v.toNat / 2 ^ 16 % 2 ^ 8), BitVec.ofNat 32 (v.toNat / 2 ^ 24),
        BitVec.ofNat 32 (v.toNat % 2 ^ 16), BitVec.ofNat 32 (v.toNat / 2 ^ 16)] := by
  have hi1 : (i + 1).toNat = i.toNat + 1 := dbufIndex_add_toNat h (k := 1) (by decide)
  have hi2 : (i + 2).toNat = i.toNat + 2 := dbufIndex_add_toNat h (k := 2) (by decide)
  have hi3 : (i + 3).toNat = i.toNat + 3 := dbufIndex_add_toNat h (k := 3) (by decide)
  rw [execAll_cons_of_next (exec_st32Dbuf v s h), execAll_cons_of_next (exec_ld8Dbuf i _),
    execAll_cons_of_next (exec_ld8Dbuf (i + 1) _), execAll_cons_of_next (exec_ld8Dbuf (i + 2) _),
    execAll_cons_of_next (exec_ld8Dbuf (i + 3) _), execAll_cons_of_next (exec_ld16Dbuf _ (by omega)),
    execAll_cons_of_next (exec_ld16Dbuf _ (by omega)), execAll]
  refine ⟨_, rfl, ?_⟩
  have hv : v.toNat < 2 ^ 32 := v.isLt
  have hb0 : _ = v.toNat / 2 ^ 0 % 2 ^ 8 := dbufByte_storeDbuf_wordBytes_toNat s i.toNat v (k := 0) (by decide)
  have hb1 : _ = v.toNat / 2 ^ 8 % 2 ^ 8 := dbufByte_storeDbuf_wordBytes_toNat s i.toNat v (k := 1) (by decide)
  have hb2 : _ = v.toNat / 2 ^ 16 % 2 ^ 8 := dbufByte_storeDbuf_wordBytes_toNat s i.toNat v (k := 2) (by decide)
  have hb3 : _ = v.toNat / 2 ^ 24 % 2 ^ 8 := dbufByte_storeDbuf_wordBytes_toNat s i.toNat v (k := 3) (by decide)
  have htop : v.toNat / 2 ^ 24 % 2 ^ 8 = v.toNat / 2 ^ 24 := by omega
  have hlow : v.toNat % 2 ^ 8 + 2 ^ 8 * (v.toNat / 2 ^ 8 % 2 ^ 8) = v.toNat % 2 ^ 16 := by omega
  have hhigh : v.toNat / 2 ^ 16 % 2 ^ 8 + 2 ^ 8 * (v.toNat / 2 ^ 24) = v.toNat / 2 ^ 16 := by omega
  rw [Nat.add_zero, Nat.pow_zero, Nat.div_one] at hb0
  simp only [returns_busReads, storeDbuf_busReads, dbufByte_returns, hi1, hi2, hi3, Nat.add_assoc, Nat.reduceAdd,
    hb0, hb1, hb2, hb3, htop, hlow, hhigh, List.append_assoc, List.cons_append, List.nil_append]

/-- The four bytes of a word make its number (R65). -/
theorem wordBytes_sum (v : Word) :
    (v.extractLsb' 0 8).toNat + 2 ^ 8 * (v.extractLsb' 8 8).toNat + 2 ^ 16 * (v.extractLsb' 16 8).toNat +
      2 ^ 24 * (v.extractLsb' 24 8).toNat = v.toNat := by
  have hv : v.toNat < 2 ^ 32 := v.isLt
  simp only [BitVec.extractLsb'_toNat, Nat.shiftRight_eq_div_pow]
  omega

/-- Four 8-bit writes, not in address order, read back as one word. -/
theorem execAll_writeBytes_readWord {i : Byte} (v : Word) (s : State) (h : i.toNat % 4 = 0) :
    ∃ t, execAll [.st8Dbuf (i + 3) (v.extractLsb' 24 8), .st8Dbuf i (v.extractLsb' 0 8),
        .st8Dbuf (i + 2) (v.extractLsb' 16 8), .st8Dbuf (i + 1) (v.extractLsb' 8 8), .ld32Dbuf i] s = .next t ∧
      t.busReads = s.busReads ++ [v] := by
  have hi1 : (i + 1).toNat = i.toNat + 1 := dbufIndex_add_toNat h (k := 1) (by decide)
  have hi2 : (i + 2).toNat = i.toNat + 2 := dbufIndex_add_toNat h (k := 2) (by decide)
  have hi3 : (i + 3).toNat = i.toNat + 3 := dbufIndex_add_toNat h (k := 3) (by decide)
  rw [execAll_cons_of_next (exec_st8Dbuf _ _ s), execAll_cons_of_next (exec_st8Dbuf _ _ _),
    execAll_cons_of_next (exec_st8Dbuf _ _ _), execAll_cons_of_next (exec_st8Dbuf _ _ _),
    execAll_cons_of_next (exec_ld32Dbuf _ h), execAll]
  refine ⟨_, rfl, ?_⟩
  simp only [returns_busReads, storeDbuf_busReads, hi1, hi2, hi3, dbufByte_storeDbuf_singleton, Nat.add_left_cancel_iff,
    Nat.left_eq_add, Nat.add_eq_left, Nat.reduceEqDiff, if_true, if_false]
  rw [wordBytes_sum, BitVec.ofNat_toNat, BitVec.setWidth_eq]

/-- Settles O50: the bytes of a word stand at consecutive indices, whichever width wrote them. -/
theorem mixedWidthAccessesSeeOneByteArray : Obligations.MixedWidthAccessesSeeOneByteArray :=
  fun _ v s h => ⟨execAll_writeWord_readNarrow v s h, execAll_writeBytes_readWord v s h⟩

/-! ### Reads (R68) -/

/-- A read of a fixed register adds one value to the observation and does nothing else (R39). -/
theorem exec_readInstr (g : Reg) (s : State) : ∃ v, exec g.readInstr s = .next (s.returns v) := by
  cases g <;> exact ⟨_, rfl⟩

/-- A read of a port status register of the block returns it (R163). -/
theorem exec_ld32Pstat {p : BitVec 3} (s : State) (h : p.toNat < Config.nPorts) :
    exec (.ld32Pstat p) s = .next (s.returns (s.port ⟨p.toNat, h⟩).status) := by
  have hport : portIndex? p.toNat = some ⟨p.toNat, h⟩ := portIndex?_eq_some.2 rfl
  rw [exec, execLd32Pstat, hport]

/-- An aligned read of `DBUF`, of any width, adds one value to the observation and does nothing else (R66). -/
theorem exec_decodeDbuf_read {off : BitVec 9} {width : Nat} (s : State) (hw : width = 1 ∨ width = 2 ∨ width = 4)
    (ha : (off.setWidth 8 : Byte).toNat % width = 0) :
    ∃ v, exec (decodeDbuf off width .read) s = .next (s.returns v) := by
  rcases hw with rfl | rfl | rfl
  · exact ⟨_, exec_ld8Dbuf _ s⟩
  · exact ⟨_, exec_ld16Dbuf s ha⟩
  · exact ⟨_, exec_ld32Dbuf s ha⟩

/-- A read that is not refused completes, and only adds the value it returns to the observation (R68). -/
theorem operate_read {off : BitVec 9} {width : Nat} (s : State) (h : refusedAccess off width = false) :
    ∃ v, operate (.access off width .read) s = .next (s.returns v) := by
  rw [operate, decode]
  rcases decodeAccess_cases .read h with ⟨hw, ha, hd⟩ | ⟨g, hd⟩ | ⟨p, hp, hd⟩ | ⟨-, hd⟩ <;> rw [hd]
  · exact exec_decodeDbuf_read s hw ha
  · exact exec_readInstr g s
  · exact ⟨_, exec_ld32Pstat s hp⟩
  · exact ⟨_, rfl⟩

/-- Settles O51: the window has four kinds of offsets, and a read of each only adds the value it returns. -/
theorem readsHaveNoSideEffect : Obligations.ReadsHaveNoSideEffect :=
  fun _ _ s h => operate_read s h

/-! ### Writes complete (R135, R253) -/

/-- A `CMD` write, by whichever row its word decodes to, has the effect R95 and R96 give it. -/
theorem exec_cmdWriteInstr (w : Word) (s : State) : exec (cmdWriteInstr w) s = .next (cmdWritten w s) := by
  unfold cmdWriteInstr
  split
  · rename_i c hc
    rw [exec_toInstr, cmdWritten_legal s hc]
  · rfl

theorem exec_writeInstr_completes (g : Reg) (v : Word) (s : State) : ∃ t, exec (g.writeInstr v) s = .next t := by
  cases g with
  | cmd => exact ⟨_, exec_cmdWriteInstr v s⟩
  | res | err | tflag | dest | chan | ckacc | rtype | cfg | cfg2 => exact ⟨_, rfl⟩

theorem exec_st32Pstat {p : BitVec 3} (v : Word) (s : State) (h : p.toNat < Config.nPorts) :
    exec (.st32Pstat p v) s = .next (s.setPort ⟨p.toNat, h⟩ ((s.port ⟨p.toNat, h⟩).writeStatus v)) := by
  have hport : portIndex? p.toNat = some ⟨p.toNat, h⟩ := portIndex?_eq_some.2 rfl
  rw [exec, execSt32Pstat, hport]

theorem exec_decodeDbuf_write_completes {off : BitVec 9} {width : Nat} (v : Word) (s : State)
    (hw : width = 1 ∨ width = 2 ∨ width = 4) (ha : (off.setWidth 8 : Byte).toNat % width = 0) :
    ∃ t, exec (decodeDbuf off width (.write v)) s = .next t := by
  rcases hw with rfl | rfl | rfl
  · exact ⟨_, exec_st8Dbuf _ _ s⟩
  · exact ⟨_, exec_st16Dbuf _ s ha⟩
  · exact ⟨_, exec_st32Dbuf _ s ha⟩

/-- A write that is not refused completes: a command reports its failure in `ERR`, never by stopping (R135). -/
theorem operate_write_completes {off : BitVec 9} {width : Nat} (v : Word) (s : State)
    (h : refusedAccess off width = false) : ∃ t, operate (.access off width (.write v)) s = .next t := by
  rw [operate, decode]
  rcases decodeAccess_cases (.write v) h with ⟨hw, ha, hd⟩ | ⟨g, hd⟩ | ⟨p, hp, hd⟩ | ⟨-, hd⟩ <;> rw [hd]
  · exact exec_decodeDbuf_write_completes v s hw ha
  · exact exec_writeInstr_completes g v s
  · exact ⟨_, exec_st32Pstat v s hp⟩
  · exact ⟨_, rfl⟩

/-- The accesses that have a step are those the block does not refuse (R63). -/
theorem operate_access_completes_iff (off : BitVec 9) (width : Nat) (dir : Dir) (s : State) :
    (∃ t, operate (.access off width dir) s = .next t) ↔ refusedAccess off width = false := by
  cases h : refusedAccess off width with
  | true => simp [operate_refused dir s h, busError]
  | false =>
    refine iff_of_true ?_ rfl
    cases dir with
    | read =>
      obtain ⟨v, hv⟩ := operate_read s h
      exact ⟨_, hv⟩
    | write v => exact operate_write_completes v s h

/-! ### Events complete (R154, R158, R255) -/

/-- A received byte always has a step (R158). -/
theorem exec_evRx {p : BitVec 4} (b : Byte) (s : State) (h : p.toNat < Config.nPorts) :
    exec (.evRx p b) s = .next (s.receive ⟨p.toNat, h⟩ b) := by
  have hport : portIndex? p.toNat = some ⟨p.toNat, h⟩ := portIndex?_eq_some.2 rfl
  rw [exec, execEvRx, hport]

/-- The transmit event has a step exactly while its port is armed (R154). -/
theorem exec_evTxrdy_completes_iff {p : BitVec 4} (s : State) (h : p.toNat < Config.nPorts) :
    (∃ t, exec (.evTxrdy p) s = .next t) ↔ (s.port ⟨p.toNat, h⟩).txbusy = true := by
  have hport : portIndex? p.toNat = some ⟨p.toNat, h⟩ := portIndex?_eq_some.2 rfl
  rw [exec, execEvTxrdy, hport]
  cases hbusy : (s.port ⟨p.toNat, h⟩).txbusy <;> simp [hbusy]

/-- Every event but `EV_TXRDY` is admitted whatever the state (R158, R255). -/
theorem admits_of_not_txrdy {w : Half} (s : State) (h : isEventWord w = true) (htx : w.toNat / 0x1000 ≠ 2) :
    s.admits (.event w) = true := by
  simp [State.admits, h, htx]

/-- `EV_TXRDY` is admitted exactly while its port is armed (R154). -/
theorem admits_txrdy_iff {w : Half} (s : State) (h : isEventWord w = true) (htx : w.toNat / 0x1000 = 2)
    (hp : (eventPort w).toNat < Config.nPorts) :
    s.admits (.event w) = true ↔ (s.port ⟨(eventPort w).toNat, hp⟩).txbusy = true := by
  have hport : portIndex? (w.toNat / 0x100 % 0x10) = some ⟨(eventPort w).toNat, hp⟩ :=
    portIndex?_eq_some.2 (eventPort_toNat w).symm
  simp [State.admits, h, htx, hport]

/-- The words that have a step are the events the state admits (R101, R154). -/
theorem operate_event_completes_iff (w : Half) (s : State) :
    (∃ t, operate (.event w) s = .next t) ↔ s.admits (.event w) = true := by
  rw [operate, decode]
  rcases decodeEvent_cases w with ⟨hk, hp, hd⟩ | ⟨hk, hp, hz, hd⟩ | ⟨hw, hd⟩ | ⟨hw, hd⟩ | ⟨hno, hd⟩ <;> rw [hd]
  · have hev : isEventWord w = true := by simp [isEventWord, hk, ← eventPort_toNat, hp]
    exact iff_of_true ⟨_, exec_evRx _ s hp⟩ (admits_of_not_txrdy s hev (by omega))
  · have hev : isEventWord w = true := by simp [isEventWord, hk, ← eventPort_toNat, hp, hz]
    exact (exec_evTxrdy_completes_iff s hp).trans (admits_txrdy_iff s hev hk hp).symm
  · have hev : isEventWord w = true := by simp [isEventWord, hw]
    exact iff_of_true ⟨_, rfl⟩ (admits_of_not_txrdy s hev (by omega))
  · have hev : isEventWord w = true := by simp [isEventWord, hw]
    exact iff_of_true ⟨_, rfl⟩ (admits_of_not_txrdy s hev (by omega))
  · simp [State.admits, hno]

/-- Settles O57: an access by the three grounds of R252, a word by the rows of R100 and the arming of its port. -/
theorem everyAdmittedOperationCompletes : Obligations.EveryAdmittedOperationCompletes := by
  intro s o
  cases o with
  | access off width dir =>
    rw [operate_access_completes_iff, State.admits, Bool.not_eq_true']
  | event w => exact operate_event_completes_iff w s

/-! ### Steps (R70, R71, R101) -/

/-- A word that is no event is refused (R101). -/
theorem operate_notAnEvent {o : Operation} {w : Half} (s : State) (h : decode o = .notAnEvent w) :
    operate o s = .refused (.notAnEvent w) := by rw [operate, h]

/-- With no input to come a step keeps the state. -/
theorem step_idle {s : State} (h : s.pending = []) : step s = .next s := by rw [step, takeInput, h]

/-- Settles O52: a step out of reset operates the next input, and operating is executing what it decodes to. -/
theorem stepRunsTheDecodedInstruction : Obligations.StepRunsTheDecodedInstruction := by
  refine ⟨fun s o rest i hr hp hd _ => ?instr, fun s o rest w hr hp hd => ?noEvent, fun _ => step_idle⟩
  case instr => rw [step_op hr hp, operate_instr _ hd]
  case noEvent => rw [step_op hr hp, operate_notAnEvent _ hd]

end Sys2Proof.Machine

/-! PROOFS. Family 30, the encoding: the round trip of every instruction (R91, R94, R99, R100), the command decoder held
to the opcode table (R93), event words (R100, R101), and what a `CMD` write of a legal and of an illegal word does (R95,
R96). -/

namespace Sys2Proof.Machine

/-! ### The round trip (R91, R93, R94, R99, R100) -/

section
open Laws

/-- Settles O1: one round trip per constructor. The Format C rows go by the fields of a command word, the registers by
their offsets, and the rest by the operand range that `wellFormed` gives. -/
theorem decodeInvertsEncode : Obligations.DecodeInvertsEncode := by
  intro i
  cases i with
  | rbInit r cap => exact RoundTrip.rbInit r cap
  | rbEnq r n => exact RoundTrip.rbEnq r n
  | rbDeq r n => exact RoundTrip.rbDeq r n
  | rbIsEmpty r => exact RoundTrip.rbIsEmpty r
  | rbIsFull r => exact RoundTrip.rbIsFull r
  | rbCount r => exact RoundTrip.rbCount r
  | rbCap r => exact RoundTrip.rbCap r
  | serWrite p n => exact RoundTrip.serWrite p n
  | serRead p n => exact RoundTrip.serRead p n
  | pktEncode n t => exact RoundTrip.pktEncode n t
  | pktEnvelope n t => exact RoundTrip.pktEnvelope n t
  | pktRoute n => exact RoundTrip.pktRoute n
  | pktDecode off => exact RoundTrip.pktDecode off
  | pktSend p => exact RoundTrip.pktSend p
  | ckClear => exact RoundTrip.ckClear
  | ckByte b => exact RoundTrip.ckByte b
  | ckBuf n => exact RoundTrip.ckBuf n
  | st32Cmd w => exact RoundTrip.st32Cmd w
  | ld32Cmd => exact RoundTrip.ld32Cmd
  | ld32Res => exact RoundTrip.ld32Res
  | st32Res v => exact RoundTrip.st32Res v
  | ld32Err => exact RoundTrip.ld32Err
  | st32Err v => exact RoundTrip.st32Err v
  | ld32Tflag => exact RoundTrip.ld32Tflag
  | st32Tflag v => exact RoundTrip.st32Tflag v
  | ld32Dest => exact RoundTrip.ld32Dest
  | st32Dest v => exact RoundTrip.st32Dest v
  | ld32Chan => exact RoundTrip.ld32Chan
  | st32Chan v => exact RoundTrip.st32Chan v
  | ld32Ckacc => exact RoundTrip.ld32Ckacc
  | st32Ckacc v => exact RoundTrip.st32Ckacc v
  | ld32Rtype => exact RoundTrip.ld32Rtype
  | st32Rtype v => exact RoundTrip.st32Rtype v
  | ld32Cfg => exact RoundTrip.ld32Cfg
  | st32Cfg v => exact RoundTrip.st32Cfg v
  | ld32Cfg2 => exact RoundTrip.ld32Cfg2
  | st32Cfg2 v => exact RoundTrip.st32Cfg2 v
  | ld32Pstat p => exact RoundTrip.ld32Pstat p
  | st32Pstat p v => exact RoundTrip.st32Pstat p v
  | ld8Dbuf i => exact RoundTrip.ld8Dbuf i
  | st8Dbuf i v => exact RoundTrip.st8Dbuf i v
  | ld16Dbuf i => exact RoundTrip.ld16Dbuf i
  | st16Dbuf i v => exact RoundTrip.st16Dbuf i v
  | ld32Dbuf i => exact RoundTrip.ld32Dbuf i
  | st32Dbuf i v => exact RoundTrip.st32Dbuf i v
  | reservedOffset off dir => exact RoundTrip.reservedOffset off dir
  | badAccess off width dir => exact RoundTrip.badAccess off width dir
  | evRx p b => exact RoundTrip.evRx p b
  | evTxrdy p => exact RoundTrip.evTxrdy p
  | evTick2ms => exact RoundTrip.evTick2ms
  | evTick1s => exact RoundTrip.evTick1s

end

/-- The operation that a well-formed instruction encodes to decodes to it. -/
theorem decode_of_encode_eq {i : Instr} {o : Operation} (hi : i.wellFormed = true) (ho : encode i = o) :
    decode o = .instr i := by rw [← ho, decodeInvertsEncode i hi]

/-! ### The command decoder and the opcode table (R93, R94) -/

/-- No two mnemonics share an opcode. -/
theorem opCode_injective {a b : Op} (h : a.code = b.code) : a = b :=
  Option.some.inj (by rw [← ofCode?_code a, h, ofCode?_code])

/-- The rows of the opcode table are the rows of the mnemonics. -/
theorem mem_commandRows_iff {row : MatchRow} : row ∈ commandRows ↔ row = row.op.row := by
  rw [commandRows_eq, List.mem_map]
  constructor
  · rintro ⟨op, -, rfl⟩
    cases op <;> rfl
  · intro h
    exact ⟨row.op, op_mem_all _, h.symm⟩

/-- The table's row of a mnemonic is the only one that names it. -/
theorem exists_row_fits_iff {op : Op} {w : Word} :
    (∃ row ∈ commandRows, row.op = op ∧ row.fits w = true) ↔ op.row.fits w = true := by
  constructor
  · rintro ⟨row, hmem, rfl, hfits⟩
    rwa [← mem_commandRows_iff.1 hmem]
  · intro hfits
    have hmem : op.row ∈ commandRows := commandRows_eq ▸ List.mem_map_of_mem (op_mem_all op)
    exact ⟨op.row, hmem, by cases op <;> rfl, hfits⟩

/-- A row that fits a word has the word's opcode, so there is one at most. -/
theorem row_eq_of_fits {a b : MatchRow} {w : Word} (ha : a ∈ commandRows) (hb : b ∈ commandRows)
    (hfa : a.fits w = true) (hfb : b.fits w = true) : a = b := by
  rw [mem_commandRows_iff] at ha hb
  rw [ha, row_fits] at hfa
  rw [hb, row_fits] at hfb
  have hop : a.op = b.op := opCode_injective (hfa.1.symm.trans hfb.1)
  rw [ha, hb, hop]

/-- Settles O3: a row fits exactly when the opcode is its own and the fields it does not use are zero, which is the
decoder's check; and opcodes are distinct. -/
theorem commandDecoderAgreesWithTheOpcodeTable : Obligations.CommandDecoderAgreesWithTheOpcodeTable := by
  refine ⟨fun w c => ?agrees, fun _ _ ha _ hb => row_eq_of_fits ha hb⟩
  case agrees =>
    rw [exists_row_fits_iff]
    exact decodeCommand_iff_fits w c

/-- Settles O4: each listed word is the encoding of its well-formed command, so the round trip decodes it. -/
theorem listedCommandWordsDecode : Obligations.ListedCommandWordsDecode := by
  intro x hx
  suffices h : x.2.wellFormed = true ∧ encode x.2 = .access 0x000#9 4 (.write x.1) from
    ⟨decode_of_encode_eq h.1 h.2, h.2⟩
  revert x
  decide

/-! ### `CMD` writes (R95, R96) -/

/-- A `CMD` write has its effect whichever row of the table it decodes to (R95, R96). -/
theorem operate_cmdWrite_eq_next (w : Word) (s : State) : operate (cmdWrite w) s = .next (cmdWritten w s) :=
  (operate_cmdWrite w s).trans (exec_cmdWriteInstr w s)

/-- Settles O6: the write of an illegal word ends with `finish(BAD_CMD, 0)`, which touches `ERR` and `RES` alone. -/
theorem illegalWordIsBadCmd : Obligations.IllegalWordIsBadCmd := by
  intro w s hw
  have heffect : cmdWritten w s = { s with err := 0x01#8, res := 0#32 } := cmdWritten_illegal s hw
  rw [← heffect]
  exact ⟨operate_cmdWrite_eq_next w s, exec_st32Cmd w s⟩

/-- Settles O7: the effect of the write is the command's, and so is that of the command's own row. -/
theorem cmdWriteRunsTheDecodedCommand : Obligations.CmdWriteRunsTheDecodedCommand := by
  intro w c s hc
  have hcommand : exec c.toInstr s = .next (cmdWritten w s) := by rw [exec_toInstr, cmdWritten_legal s hc]
  exact ⟨(operate_cmdWrite_eq_next w s).trans hcommand.symm, cmdWritten w s, exec_st32Cmd w s, hcommand⟩

/-! ### Event words (R100, R101) -/

/-- `KIND << 12 | PORT << 8 | DATA` as the sum of its fields (R100). -/
theorem eventWord_eq_ofNat (k p : BitVec 4) (d : Byte) :
    eventWord k p d = BitVec.ofNat 16 (0x1000 * k.toNat + 0x100 * p.toNat + d.toNat) := by
  have hk : k.toNat < 0x10 := k.isLt
  have hp : p.toNat < 0x10 := p.isLt
  have hd : d.toNat < 0x100 := d.isLt
  have hkind := eventKind_toNat (eventWord k p d)
  have hport := eventPort_toNat (eventWord k p d)
  have hdata := eventData_toNat (eventWord k p d)
  rw [eventKind_eventWord] at hkind
  rw [eventPort_eventWord] at hport
  rw [eventData_eventWord] at hdata
  apply BitVec.eq_of_toNat_eq
  rw [BitVec.toNat_ofNat]
  omega

/-- The port number of one of the block's ports, as an event word holds it. -/
theorem ofNat_port_toNat (p : Fin Config.nPorts) : (BitVec.ofNat 4 p.val).toNat = p.val := by
  have hp : p.val < 2 := p.isLt
  rw [BitVec.toNat_ofNat]
  omega

/-- So the events of a port of the block are well-formed (R101). -/
theorem ofNat_port_lt (p : Fin Config.nPorts) : (BitVec.ofNat 4 p.val).toNat < Config.nPorts :=
  (ofNat_port_toNat p).trans_lt p.isLt

/-- A word of no row of R100 is no event (R101). -/
theorem decodeEvent_of_not_isEventWord {w : Half} (h : isEventWord w = false) : decodeEvent w = .notAnEvent w := by
  simp only [isEventWord, Bool.or_eq_false_iff, Bool.and_eq_false_iff, decide_eq_false_iff_not, beq_eq_false_iff_ne]
    at h
  obtain ⟨⟨⟨hrx, htx⟩, h2ms⟩, h1s⟩ := h
  rw [decodeEvent_eq, if_neg (by tauto), if_neg (by tauto), if_neg h2ms, if_neg h1s]

/-- Settles O5: a word given as the sum of its fields is the encoding of its event, and the round trip decodes it; every
other word is refused. -/
theorem eventWordsDecodeAndOthersAreRefused : Obligations.EventWordsDecodeAndOthersAreRefused := by
  refine ⟨fun p b => ⟨?rx, ?txrdy⟩, decodeInvertsEncode .evTick2ms rfl, decodeInvertsEncode .evTick1s rfl,
    fun w s h => ?refused⟩
  case rx =>
    refine decode_of_encode_eq (decide_eq_true (ofNat_port_lt p)) ?_
    rw [encode, eventWord_eq_ofNat, ofNat_port_toNat]
    rfl
  case txrdy =>
    refine decode_of_encode_eq (decide_eq_true (ofNat_port_lt p)) ?_
    rw [encode, eventWord_eq_ofNat, ofNat_port_toNat]
    rfl
  case refused => exact operate_notAnEvent s (decodeEvent_of_not_isEventWord h)

end Sys2Proof.Machine

/-! PROOFS. Family 41, the ring buffer: the check of a ring index (R132), what each `RB_*` command does to a ring of the
block (R125 to R131) through the ring primitives (R121, R122, R124), and that a ring is a queue over any uses of it
(R133). -/

namespace Sys2Proof.Machine

/-! ### A ring index of N_RINGS or more (R132) -/

/-- Settles O11: each of the seven commands looks its ring up before all else. -/
theorem ringIndexIsChecked : Obligations.RingIndexIsChecked := by
  intro r n s h i hi
  have hr : ringIndex? r = none := ringIndex?_eq_none.2 h
  suffices hfinish : exec i s = .next (s.finish .badIndex 0#32) from hfinish
  simp only [List.mem_cons, List.not_mem_nil, or_false] at hi
  rcases hi with rfl | rfl | rfl | rfl | rfl | rfl | rfl
  · rw [exec, execRbInit, cmdRbInit, hr]
  · rw [exec, execRbEnq, cmdRbEnq, hr]
  · rw [exec, execRbDeq, cmdRbDeq, hr]
  · rw [exec, execRbIsEmpty, cmdRbIsEmpty, hr]
  · rw [exec, execRbIsFull, cmdRbIsFull, hr]
  · rw [exec, execRbCount, cmdRbCount, hr]
  · rw [exec, execRbCap, cmdRbCap, hr]

/-! ### The commands on a ring of the block (R125 to R131) -/

section
variable {r : Byte} {i : Fin Config.nRings} (s : State) (h : r.toNat = i.val)
include h

/-- `RB_INIT` on a ring of the block (R125). -/
theorem exec_rbInit (cap : Byte) : exec (.rbInit r cap) s = .next
    (if cap.toNat = 0 ∨ Config.capMax < cap.toNat then s.finish .badOperand 0#32
     else (s.setRing i ((s.ring i).init cap)).finish .ok 0#32) := by
  rw [exec, execRbInit, cmdRbInit, ringIndex?_eq_some.2 h]

/-- `RB_ENQ` on a ring of the block is `enq` of the first bytes of `DBUF` (R126). -/
theorem exec_rbEnq (n : Byte) : exec (.rbEnq r n) s = .next
    ((s.enq i (s.firstBytes n.toNat)).1.finish (overflowStatus (s.enq i (s.firstBytes n.toNat)).2 n.toNat)
      (countWord (s.enq i (s.firstBytes n.toNat)).2)) := by
  rw [exec, execRbEnq, cmdRbEnq, ringIndex?_eq_some.2 h, ← inputBytes_eq]

/-- `RB_DEQ` on a ring of the block is `deq`, its bytes left in `DBUF` (R127). -/
theorem exec_rbDeq (n : Byte) : exec (.rbDeq r n) s = .next
    (((s.deq i n.toNat).2.outputBytes (s.deq i n.toNat).1).finish .ok (countWord (s.deq i n.toNat).1.length)) := by
  rw [exec, execRbDeq, cmdRbDeq, ringIndex?_eq_some.2 h]

/-- `RB_ISEMPTY` on a ring of the block (R128, R124). -/
theorem exec_rbIsEmpty :
    exec (.rbIsEmpty r) s = .next (s.finish .ok (if (s.ring i).count = 0#8 then 1#32 else 0#32)) := by
  rw [exec, execRbIsEmpty, cmdRbIsEmpty, ringIndex?_eq_some.2 h]
  simp only [Ring.isEmpty, beq_iff_eq]

/-- `RB_ISFULL` on a ring of the block (R129, R124). -/
theorem exec_rbIsFull :
    exec (.rbIsFull r) s = .next (s.finish .ok (if (s.ring i).count = (s.ring i).cap then 1#32 else 0#32)) := by
  rw [exec, execRbIsFull, cmdRbIsFull, ringIndex?_eq_some.2 h]
  simp only [Ring.isFull, beq_iff_eq]

/-- `RB_COUNT` on a ring of the block (R130). -/
theorem exec_rbCount :
    exec (.rbCount r) s = .next (s.finish .ok (BitVec.ofNat 32 (s.ring i).count.toNat)) := by
  rw [exec, execRbCount, cmdRbCount, ringIndex?_eq_some.2 h, BitVec.ofNat_toNat]

/-- `RB_CAP` on a ring of the block (R131). -/
theorem exec_rbCap :
    exec (.rbCap r) s = .next (s.finish .ok (BitVec.ofNat 32 (s.ring i).cap.toNat)) := by
  rw [exec, execRbCap, cmdRbCap, ringIndex?_eq_some.2 h, BitVec.ofNat_toNat]

end

/-- Settles O12: a good index leaves the choice on the capacity, a bad one is O11's. -/
theorem rbInitEmptiesTheRing : Obligations.RbInitEmptiesTheRing := by
  intro r cap s
  exact ⟨fun _ h => exec_rbInit s h cap, fun h => ringIndexIsChecked r cap s h _ List.mem_cons_self⟩

/-- Settles O15: each query finishes with its answer, a bad index is O11's. -/
theorem ringQueriesReportCountAndCapacity : Obligations.RingQueriesReportCountAndCapacity := by
  intro r s
  refine ⟨fun i h => ⟨exec_rbIsEmpty s h, exec_rbIsFull s h, exec_rbCount s h, exec_rbCap s h⟩,
    fun h q hq => ?badIndex⟩
  case badIndex =>
    have hmem := List.mem_append_right [Instr.rbInit r 0#8, .rbEnq r 0#8, .rbDeq r 0#8] hq
    exact ringIndexIsChecked r 0#8 s h q hmem

/-! ### `enq` on a ring of the block (R121) -/

theorem stored_setRing_same (s : State) (i : Fin Config.nRings) (g : Ring) :
    (s.setRing i g).stored i = g.stored (s.ringFree i) := by
  rw [State.stored, ring_setRing_same]
  rfl

/-- How many bytes `enq` stores: those that fit (R121). -/
theorem enq_written_firstBytes (s : State) (i : Fin Config.nRings) (n : Nat) :
    (s.enq i (s.firstBytes n)).2 = min n ((s.ring i).cap.toNat - (s.ring i).count.toNat) := by
  rw [State.enq_eq, Ring.enq_written, firstBytes_length]

section
variable {s : State} {i : Fin Config.nRings} (l : List Byte) (hok : (s.ring i).Ok)
include hok

/-- `enq` appends to what the ring holds the bytes it stores (R121). -/
theorem enq_stored : (s.enq i l).1.stored i = s.stored i ++ l.take (s.enq i l).2 := by
  obtain ⟨-, hstored, -⟩ := Ring.enq_spec (s.ringFree i) l hok
  rw [State.enq_eq, stored_setRing_same]
  exact hstored

/-- `enq` advances the ring's `tail` and `count` by the number of bytes it stores (R121). -/
theorem enq_indices :
    ((s.enq i l).1.ring i).cap = (s.ring i).cap ∧ ((s.enq i l).1.ring i).head = (s.ring i).head ∧
      ((s.enq i l).1.ring i).count.toNat = (s.ring i).count.toNat + (s.enq i l).2 ∧
      ((s.enq i l).1.ring i).tail.toNat = (s.ring i).slot ((s.ring i).count.toNat + (s.enq i l).2) := by
  obtain ⟨-, -, hcap, hhead, hcount⟩ := Ring.enq_spec (s.ringFree i) l hok
  rw [State.enq_eq, ring_setRing_same]
  exact ⟨hcap, hhead, hcount, Ring.enq_tail l hok⟩

/-- The ring's storage is unchanged outside the slots stored to (R121). -/
theorem enq_read_of_ne_slot {a : Nat}
    (ha : ∀ k < (s.enq i l).2, a ≠ (s.ring i).slot ((s.ring i).count.toNat + k)) :
    Mem.read? ((s.enq i l).1.ring i).mem a = Mem.read? (s.ring i).mem a := by
  rw [State.enq_eq, ring_setRing_same]
  exact Ring.enq_read l hok ha

end

/-- `enq` on a ring leaves every other ring alone (R121). -/
theorem enq_ring_ne (s : State) {i j : Fin Config.nRings} (l : List Byte) (h : j ≠ i) :
    (s.enq i l).1.ring j = s.ring j := ring_setRing_ne s _ h

/-- The status of a command that stores `w` of `n` bytes (R126). -/
theorem overflowStatus_code (w n : Nat) : (overflowStatus w n).code = if w < n then 0x06#8 else 0x00#8 := by
  rw [overflowStatus, apply_ite Status.code]
  rfl

/-- Settles O13: the ring as `enq` leaves it, `ERR` and `RES` from the number of bytes stored. -/
theorem rbEnqStoresThePrefixThatFits : Obligations.RbEnqStoresThePrefixThatFits := by
  intro r n s i h hok
  refine ⟨_, exec_rbEnq s h n, ?_⟩
  rw [← enq_written_firstBytes]
  refine ⟨enq_stored _ hok, enq_indices _ hok, fun a => enq_read_of_ne_slot _ hok, fun j => enq_ring_ne s _, ?frame⟩
  case frame =>
    rw [← overflowStatus_code]
    rfl

/-! ### `deq` on a ring of the block (R122) -/

section
variable {s : State} {i : Fin Config.nRings} (n : Nat) (hok : (s.ring i).Ok)
include hok

/-- `deq` returns the oldest bytes (R122). -/
theorem deq_bytes : (s.deq i n).1 = (s.stored i).take n := (Ring.deq_spec (s.ringFree i) n hok).1

/-- How many bytes `deq` returns (R122). -/
theorem deq_length : (s.deq i n).1.length = min n (s.ring i).count.toNat := Ring.deq_length (s.ringFree i) n hok

/-- `deq` leaves in the ring the bytes it does not return (R122). -/
theorem deq_stored : (s.deq i n).2.stored i = (s.stored i).drop (min n (s.ring i).count.toNat) := by
  obtain ⟨-, -, hstored, -⟩ := Ring.deq_spec (s.ringFree i) n hok
  rw [State.deq_eq, stored_setRing_same, hstored, State.stored, List.drop_eq_drop_iff, Ring.stored_length,
    Nat.min_assoc, Nat.min_self]

/-- `deq` moves the ring's `head` on, and `count` down, by the number of bytes it returns; the storage stays (R122). -/
theorem deq_indices :
    ((s.deq i n).2.ring i).cap = (s.ring i).cap ∧ ((s.deq i n).2.ring i).tail = (s.ring i).tail ∧
      ((s.deq i n).2.ring i).mem = (s.ring i).mem ∧
      ((s.deq i n).2.ring i).count.toNat = (s.ring i).count.toNat - min n (s.ring i).count.toNat ∧
      ((s.deq i n).2.ring i).head.toNat = (s.ring i).slot (min n (s.ring i).count.toNat) := by
  obtain ⟨-, -, -, hcap, htail, hmem, hcount⟩ := Ring.deq_spec (s.ringFree i) n hok
  rw [State.deq_eq, ring_setRing_same]
  exact ⟨hcap, htail, hmem, hcount.trans (by omega), Ring.deq_head (s.ringFree i) n hok⟩

end

/-- `deq` on a ring leaves every other ring alone (R122). -/
theorem deq_ring_ne (s : State) {i j : Fin Config.nRings} (n : Nat) (h : j ≠ i) :
    (s.deq i n).2.ring j = s.ring j := ring_setRing_ne s _ h

/-- `DBUF` holds the output bytes of a command from index 0 (R25). -/
theorem some_dbufByte_outputBytes_of_lt (s : State) {bytes : List Byte} {a : Nat} (h : a < bytes.length) :
    some ((s.outputBytes bytes).dbufByte a) = bytes[a]? := by
  rw [dbufByte_outputBytes, List.getElem?_eq_getElem h, Option.getD_some]

/-- Past the output bytes of a command `DBUF` is unchanged (R25). -/
theorem dbufByte_outputBytes_of_length_le (s : State) {bytes : List Byte} {a : Nat} (h : bytes.length ≤ a) :
    (s.outputBytes bytes).dbufByte a = s.dbufByte a := by
  rw [dbufByte_outputBytes, List.getElem?_eq_none h, Option.getD_none]

/-- Settles O14: the ring as `deq` leaves it, the bytes it returns in `DBUF`, their number in `RES`. -/
theorem rbDeqReturnsTheOldestBytes : Obligations.RbDeqReturnsTheOldestBytes := by
  intro r n s i h hok
  have hlen := deq_length n.toNat hok
  refine ⟨_, exec_rbDeq s h n, fun a ha => ?bytes, fun a ha => ?otherBytes, deq_stored _ hok, deq_indices _ hok,
    fun j => deq_ring_ne s _, ?frame⟩
  case bytes =>
    have hlt : a < n.toNat := Nat.lt_of_lt_of_le ha (Nat.min_le_left _ _)
    rw [dbufByte_finish, some_dbufByte_outputBytes_of_lt _ (hlen ▸ ha), deq_bytes _ hok, List.getElem?_take_of_lt hlt]
  case otherBytes => exact dbufByte_outputBytes_of_length_le _ (hlen ▸ ha)
  case frame =>
    rw [← hlen]
    rfl

/-! ### A ring over any uses of it (R133) -/

/-- What a run of uses of a ring keeps: the ring's own invariant (R23), the bytes returned and those held are the bytes
accepted, and no more was accepted than asked. -/
structure RingRun.Fifo (free : Nat → Byte) (run : RingRun) : Prop where
  ok : run.ring.Ok
  returned_append_stored : run.returned ++ run.ring.stored free = run.accepted
  accepted_le_requested : run.accepted.length ≤ run.requested.length

/-- Each use of the ring keeps its order: `enq` adds at the end, `deq` takes from the front (R121, R122). -/
theorem RingRun.Fifo.use {free : Nat → Byte} {run : RingRun} (hrun : run.Fifo free) (u : RingUse) :
    (run.use free u).Fifo free := by
  obtain ⟨hok, hbytes, hle⟩ := hrun
  cases u with
  | enq bytes =>
    obtain ⟨hok', hstored, -⟩ := Ring.enq_spec free bytes hok
    refine ⟨hok', ?_, ?_⟩
    · show run.returned ++ (run.ring.enq bytes).1.stored free = run.accepted ++ bytes.take (run.ring.enq bytes).2
      rw [hstored, ← List.append_assoc, hbytes]
    · show (run.accepted ++ bytes.take (run.ring.enq bytes).2).length ≤ (run.requested ++ bytes).length
      rw [List.length_append, List.length_append]
      exact Nat.add_le_add hle (List.length_take_le' _ _)
  | deq n =>
    obtain ⟨hreturned, hok', hstored, -⟩ := Ring.deq_spec free n hok
    refine ⟨hok', ?_, hle⟩
    show run.returned ++ (run.ring.deq free n).1 ++ (run.ring.deq free n).2.stored free = run.accepted
    rw [hreturned, hstored, List.append_assoc, List.take_append_drop, hbytes]

/-- So does any sequence of uses (R133). -/
theorem RingRun.Fifo.foldl_use {free : Nat → Byte} {run : RingRun} (hrun : run.Fifo free) (uses : List RingUse) :
    (uses.foldl (RingRun.use free) run).Fifo free := by
  induction uses generalizing run with
  | nil => exact hrun
  | cons u rest ih => exact ih (hrun.use u)

/-- A ring that counts no byte holds none (R23). -/
theorem Ring.stored_eq_nil_of_count {g : Ring} (free : Nat → Byte) (h : g.count = 0#8) : g.stored free = [] := by
  rw [← List.length_eq_zero_iff, Ring.stored_length, h]
  rfl

/-- Settles O16: an empty ring starts a run in order, and each use keeps it so. -/
theorem ringIsAFifo : Obligations.RingIsAFifo := by
  intro free g uses hg hempty
  have hstart : RingRun.Fifo free { requested := [], accepted := [], returned := [], ring := g } :=
    ⟨hg, Ring.stored_eq_nil_of_count free hempty, Nat.le_refl 0⟩
  obtain ⟨-, hbytes, hle⟩ := hstart.foldl_use uses
  exact ⟨hbytes, hle⟩

end Sys2Proof.Machine

/-! PROOFS. Family 42, the serial transport: the check of a port index (R162), what the port commands and the line events
do to a port and its two rings (R152 to R158), the port status registers (R163, R164), the invariant of arming (R161),
draining (R151, R159), and that the ports are independent (R150). -/

namespace Sys2Proof.Machine

/-! ### A port index of N_PORTS or more (R162) -/

/-- Settles O18: each of the three commands looks its port up before all else. -/
theorem portIndexIsChecked : Obligations.PortIndexIsChecked := by
  intro p n s h i hi
  have hp : portIndex? p.toNat = none := portIndex?_eq_none.2 h
  suffices hfinish : exec i s = .next (s.finish .badIndex 0#32) from hfinish
  simp only [List.mem_cons, List.not_mem_nil, or_false] at hi
  rcases hi with rfl | rfl | rfl
  · rw [exec, execSerWrite, cmdSerWrite, hp]
  · rw [exec, execSerRead, cmdSerRead, hp]
  · rw [exec, execPktSend, cmdPktSend, pktSendWith, hp]

/-! ### The operations on a port of the block (R152 to R156, R163, R164, R191) -/

section
variable {q : Fin Config.nPorts} (s : State)

/-- `SER_WRITE` on a port of the block is `txwrite` of the first bytes of `DBUF` (R152). -/
theorem exec_serWrite {p : Byte} (n : Byte) (h : p.toNat = q.val) : exec (.serWrite p n) s = .next
    ((s.txwrite q (s.firstBytes n.toNat)).1.finish (overflowStatus (s.txwrite q (s.firstBytes n.toNat)).2 n.toNat)
      (countWord (s.txwrite q (s.firstBytes n.toNat)).2)) := by
  rw [exec, execSerWrite, cmdSerWrite, portIndex?_eq_some.2 h, ← inputBytes_eq]

/-- `SER_READ` on a port of the block is `deq` of its RX ring, the bytes left in `DBUF` (R153). -/
theorem exec_serRead {p : Byte} (n : Byte) (h : p.toNat = q.val) : exec (.serRead p n) s = .next
    (((s.deq (rxRing q) n.toNat).2.outputBytes (s.deq (rxRing q) n.toNat).1).finish .ok
      (countWord (s.deq (rxRing q) n.toNat).1.length)) := by
  rw [exec, execSerRead, cmdSerRead, portIndex?_eq_some.2 h]

/-- `PKT_SEND` on a port of the block is `txwrite` of the radio window (R191). -/
theorem exec_pktSend {p : Byte} (h : p.toNat = q.val) : exec (.pktSend p) s = .next
    ((s.txwrite q (s.radioWindow Config.radioWindowOffset)).1.finish
      (overflowStatus (s.txwrite q (s.radioWindow Config.radioWindowOffset)).2
        (s.radioWindow Config.radioWindowOffset).length)
      (countWord (s.txwrite q (s.radioWindow Config.radioWindowOffset)).2)) := by
  rw [exec, execPktSend, cmdPktSend, pktSendWith, portIndex?_eq_some.2 h]

/-- `EV_RX` on a port of the block (R156). -/
theorem exec_evRx_port {p : BitVec 4} (b : Byte) (h : p.toNat = q.val) :
    exec (.evRx p b) s = .next (s.receive q b) := by
  rw [exec, execEvRx, portIndex?_eq_some.2 h]

/-- `EV_TXRDY` on a port of the block, armed (R155) or not (R154). -/
theorem exec_evTxrdy_port {p : BitVec 4} (h : p.toNat = q.val) : exec (.evTxrdy p) s =
    if (s.port q).txbusy then .next (s.txrdy q) else .fault (.txrdyNotEnabled p.toNat) := by
  rw [exec, execEvTxrdy, portIndex?_eq_some.2 h]

/-- A read of the port status register of a port of the block (R163). -/
theorem exec_ld32Pstat_port {p : BitVec 3} (h : p.toNat = q.val) :
    exec (.ld32Pstat p) s = .next (s.returns (s.port q).status) := by
  rw [exec, execLd32Pstat, portIndex?_eq_some.2 h]

/-- A write of the port status register of a port of the block (R164). -/
theorem exec_st32Pstat_port {p : BitVec 3} (v : Word) (h : p.toNat = q.val) :
    exec (.st32Pstat p v) s = .next (s.setPort q ((s.port q).writeStatus v)) := by
  rw [exec, execSt32Pstat, portIndex?_eq_some.2 h]

end

/-- `EV_TXRDY` of an armed port has a step (R154, R155). -/
theorem exec_evTxrdy_of_armed {p : BitVec 4} {s : State} {q : Fin Config.nPorts} (h : p.toNat = q.val)
    (hbusy : (s.port q).txbusy = true) : exec (.evTxrdy p) s = .next (s.txrdy q) := by
  rw [exec_evTxrdy_port s h, if_pos hbusy]

/-- Settles O23: the handler runs only while the port is armed. -/
theorem transmitEventNeedsArming : Obligations.TransmitEventNeedsArming := by
  intro p s q h hidle
  rw [exec_evTxrdy_port s h, if_neg (by simp [hidle])]

/-! ### Port status (R163, R164) -/

/-- `PSTAT` as the number its two bits make (R163). -/
theorem Port.status_eq_ofNat (g : Port) : g.status = BitVec.ofNat 32 (2 * g.rxovf.toNat + g.txbusy.toNat) := by
  rw [Port.status]
  generalize g.rxovf = ovf, g.txbusy = busy
  revert ovf busy
  decide

/-- A `PSTAT` write looks at bit 1 alone (R164). -/
theorem Port.writeStatus_eq (g : Port) (v : Word) :
    g.writeStatus v = if v.getLsbD 1 = true then { g with rxovf := false } else g := by
  rw [Port.writeStatus]
  cases v.getLsbD 1 <;> simp

/-- Settles O45: the two bits as a number, and bit 1 of the written value clears `RXOVF`. -/
theorem portStatusReadsAndClears : Obligations.PortStatusReadsAndClears := by
  intro p v s q h
  refine ⟨?read, ?write⟩
  case read =>
    rw [exec_ld32Pstat_port s h, Port.status_eq_ofNat]
    rfl
  case write =>
    rw [exec_st32Pstat_port s v h, Port.writeStatus_eq, apply_ite (s.setPort q), setPort_port_self]

/-! ### `TXBUSY` and the TX ring under the shared operations (R161) -/

/-- The invariant of a port speaks of its arming and of its TX ring alone. -/
theorem TxSynced_of_eq {s t : State} {p : Fin Config.nPorts} (hbusy : (t.port p).txbusy = (s.port p).txbusy)
    (hring : t.ring (txRing p) = s.ring (txRing p)) (h : s.TxSynced p) : t.TxSynced p := by
  rw [State.TxSynced, hbusy, hring]
  exact h

theorem TxSynced_setRing {s : State} {p : Fin Config.nPorts} {r : Fin Config.nRings} (g : Ring) (hr : txRing p ≠ r)
    (h : s.TxSynced p) : (s.setRing r g).TxSynced p :=
  TxSynced_of_eq (s := s) rfl (ring_setRing_ne s g hr) h

theorem TxSynced_setPort {s : State} {p q : Fin Config.nPorts} {g : Port} (hg : g.txbusy = (s.port q).txbusy)
    (h : s.TxSynced p) : (s.setPort q g).TxSynced p := by
  refine TxSynced_of_eq (s := s) ?_ rfl h
  by_cases hq : p = q
  · rw [hq, port_setPort_same, hg]
  · rw [port_setPort_ne s g hq]

/-- A port whose arming and TX ring are both replaced is synchronised as they are; the others keep theirs. -/
theorem TxSynced_setRing_setPort {s : State} {p q : Fin Config.nPorts} {g : Ring} {bits : Port}
    (hq : p = q → (bits.txbusy = true ↔ 0 < g.count.toNat)) (h : s.TxSynced p) :
    ((s.setRing (txRing q) g).setPort q bits).TxSynced p := by
  by_cases hpq : p = q
  · rw [State.TxSynced, hpq, port_setPort_same, ring_setPort, ring_setRing_same]
    exact hq hpq
  · have hring : txRing p ≠ txRing q := fun hr => hpq (txRing_injective hr)
    exact TxSynced_of_eq (s := s) (congrArg Port.txbusy (port_setPort_ne _ _ hpq)) (ring_setRing_ne s g hring) h

/-- `txwrite` arms the port exactly when it makes the TX ring hold a byte (R152). -/
theorem TxSynced_txwrite {s : State} {p : Fin Config.nPorts} (q : Fin Config.nPorts) (bytes : List Byte)
    (hok : (s.ring (txRing q)).Ok) (h : s.TxSynced p) : (s.txwrite q bytes).1.TxSynced p := by
  obtain ⟨-, -, -, -, hcount⟩ := Ring.enq_spec (s.ringFree (txRing q)) bytes hok
  rw [State.txwrite_eq]
  refine TxSynced_setRing_setPort (fun hpq => ?_) h
  subst hpq
  rw [hcount, Bool.or_eq_true, decide_eq_true_eq]
  exact (or_congr_left h).trans (by omega)

/-- A ring of the block holds as many bytes as it counts (R23). -/
theorem stored_length (s : State) (r : Fin Config.nRings) : (s.stored r).length = (s.ring r).count.toNat :=
  Ring.stored_length (s.ringFree r) (s.ring r)

/-- The transmit event disarms the port exactly when it leaves the TX ring empty (R155). -/
theorem TxSynced_txrdy {s : State} {p q : Fin Config.nPorts} (hok : (s.ring (txRing q)).Ok)
    (hbusy : (s.port q).txbusy = true) (h : s.TxSynced p) : (s.txrdy q).TxSynced p := by
  have hlen := stored_length s (txRing q)
  cases hstored : s.stored (txRing q) with
  | nil =>
    rw [hstored, List.length_nil] at hlen
    rw [State.txrdy_of_empty hstored, ← setRing_ring_self s (txRing q)]
    exact TxSynced_setRing_setPort (fun _ => iff_of_false Bool.false_ne_true (by omega)) h
  | cons b rest =>
    rw [hstored, List.length_cons] at hlen
    obtain ⟨-, -, -, -, -, -, hcount⟩ := Ring.deq_spec (s.ringFree (txRing q)) 1 hok
    rw [State.txrdy_of_stored hok hbusy hstored]
    refine TxSynced_setRing_setPort (fun _ => ?_) h
    rw [hcount, ← hlen, Nat.add_sub_cancel]
    cases rest <;> simp

/-- The receive event touches no TX ring and arms no port (R156). -/
theorem TxSynced_receive {s : State} {p : Fin Config.nPorts} (q : Fin Config.nPorts) (b : Byte) (h : s.TxSynced p) :
    (s.receive q b).TxSynced p := by
  have hstored := TxSynced_setRing ((s.ring (rxRing q)).enq [b]).1 (txRing_ne_rxRing p q) h
  rw [State.receive_eq]
  split
  · exact TxSynced_setPort rfl hstored
  · exact hstored

/-- After any reset every port is idle and every ring empty (R281). -/
theorem TxSynced_atReset (epoch : Nat) (pending : List Input) (p : Fin Config.nPorts) :
    (State.atReset epoch pending).TxSynced p := by
  have hport : (State.atReset epoch pending).port p = Port.atReset := by simp [State.port, State.atReset]
  have hring : (State.atReset epoch pending).ring (txRing p) = Ring.atReset := by simp [State.ring, State.atReset]
  rw [State.TxSynced, hport, hring]
  decide

/-! ### `TXBUSY` and the TX ring under each operation (R161) -/

/-- A command on a ring that spares the TX ring of a port is on another ring. -/
theorem txRing_ne_of_spares {p : Fin Config.nPorts} {r : Byte} {i : Fin Config.nRings} (hi : ringIndex? r = some i)
    (h : (r.toNat != (txRing p).val) = true) : txRing p ≠ i := by
  rintro rfl
  simp [ringIndex?_eq_some.1 hi] at h

/-- Whatever next state an outcome has is synchronised at the port; a fault or a refusal has none. -/
def NextTxSynced (p : Fin Config.nPorts) : Host.Outcome State Fault Refusal → Prop
  | .next t => t.TxSynced p
  | .fault _ => True
  | .refused _ => True

theorem NextTxSynced.synced {p : Fin Config.nPorts} {o : Host.Outcome State Fault Refusal} {t : State}
    (ho : NextTxSynced p o) (h : o = .next t) : t.TxSynced p := by
  subst h
  exact ho

/-- A `DBUF` access keeps the port's state, refused (R63) or not. -/
theorem NextTxSynced_alignedOr {p : Fin Config.nPorts} (i : Byte) (width : Nat) {t : State} (h : t.TxSynced p) :
    NextTxSynced p (alignedOr i width t) := by
  unfold alignedOr
  split
  · exact h
  · trivial

section
variable {s : State} {p : Fin Config.nPorts}

theorem TxSynced_cmdRbInit {r : Byte} (cap : Byte) (hspares : (r.toNat != (txRing p).val) = true) (h : s.TxSynced p) :
    (cmdRbInit r cap s).TxSynced p := by
  unfold cmdRbInit
  split
  · exact h
  · rename_i i hi
    split
    · exact h
    · exact TxSynced_setRing _ (txRing_ne_of_spares hi hspares) h

theorem TxSynced_cmdRbEnq {r : Byte} (n : Byte) (hspares : (r.toNat != (txRing p).val) = true) (h : s.TxSynced p) :
    (cmdRbEnq r n s).TxSynced p := by
  unfold cmdRbEnq
  split
  · exact h
  · rename_i i hi
    exact TxSynced_setRing _ (txRing_ne_of_spares hi hspares) h

theorem TxSynced_cmdRbDeq {r : Byte} (n : Byte) (hspares : (r.toNat != (txRing p).val) = true) (h : s.TxSynced p) :
    (cmdRbDeq r n s).TxSynced p := by
  unfold cmdRbDeq
  split
  · exact h
  · rename_i i hi
    exact TxSynced_setRing _ (txRing_ne_of_spares hi hspares) h

theorem TxSynced_cmdSerRead (r n : Byte) (h : s.TxSynced p) : (cmdSerRead r n s).TxSynced p := by
  unfold cmdSerRead
  split
  · exact h
  · rename_i q _
    exact TxSynced_setRing _ (txRing_ne_rxRing p q) h

theorem TxSynced_framed (n : Byte) (bytes : List Byte → List Byte) (length : Nat) (h : s.TxSynced p) :
    (s.framed n bytes length).TxSynced p := by
  unfold State.framed
  split <;> exact h

theorem TxSynced_cmdPktDecode (off : Byte) (h : s.TxSynced p) : (cmdPktDecode off s).TxSynced p := by
  unfold cmdPktDecode pktDecodeWith
  split
  · exact h
  · split <;> exact h

theorem TxSynced_cmdSerWrite (r n : Byte) (hinv : s.Inv) (h : s.TxSynced p) : (cmdSerWrite r n s).TxSynced p := by
  unfold cmdSerWrite
  split
  · exact h
  · exact TxSynced_txwrite _ _ (hinv.1 _) h

theorem TxSynced_cmdPktSend (r : Byte) (hinv : s.Inv) (h : s.TxSynced p) : (cmdPktSend r s).TxSynced p := by
  unfold cmdPktSend pktSendWith
  split
  · exact h
  · exact TxSynced_txwrite _ _ (hinv.1 _) h

/-- Every well-formed instruction that spares the TX ring keeps its port synchronised (R161). -/
theorem NextTxSynced_exec {i : Instr} (hwf : i.wellFormed = true) (hspares : sparesRing (txRing p) i = true)
    (hinv : s.Inv) (h : s.TxSynced p) : NextTxSynced p (exec i s) := by
  cases i with
  | rbInit r cap => exact TxSynced_cmdRbInit cap hspares h
  | rbEnq r n => exact TxSynced_cmdRbEnq n hspares h
  | rbDeq r n => exact TxSynced_cmdRbDeq n hspares h
  | rbIsEmpty r =>
    rw [exec, execRbIsEmpty, cmdRbIsEmpty]
    split <;> exact h
  | rbIsFull r =>
    rw [exec, execRbIsFull, cmdRbIsFull]
    split <;> exact h
  | rbCount r =>
    rw [exec, execRbCount, cmdRbCount]
    split <;> exact h
  | rbCap r =>
    rw [exec, execRbCap, cmdRbCap]
    split <;> exact h
  | serWrite r n => exact TxSynced_cmdSerWrite r n hinv h
  | serRead r n => exact TxSynced_cmdSerRead r n h
  | pktEncode n t | pktEnvelope n t | pktRoute n => exact TxSynced_framed n _ _ h
  | pktDecode off => exact TxSynced_cmdPktDecode off h
  | pktSend r => exact TxSynced_cmdPktSend r hinv h
  | ckClear | ckByte _ | ckBuf _ => exact h
  | st32Cmd w =>
    have hw : legalWord w = false := by simpa [Instr.wellFormed] using hwf
    rw [exec_st32Cmd, cmdWritten_illegal s hw]
    exact h
  | ld32Cmd | ld32Res | ld32Err | ld32Tflag | ld32Dest | ld32Chan | ld32Ckacc | ld32Rtype | ld32Cfg | ld32Cfg2
  | st32Res _ | st32Err _ | st32Tflag _ | st32Dest _ | st32Chan _ | st32Ckacc _ | st32Rtype _ | st32Cfg _
  | st32Cfg2 _ => exact h
  | ld32Pstat r =>
    rw [exec, execLd32Pstat]
    split <;> exact h
  | st32Pstat r v =>
    rw [exec, execSt32Pstat]
    split
    · exact h
    · exact TxSynced_setPort rfl h
  | ld8Dbuf j | st8Dbuf j v => exact h
  | ld16Dbuf j | st16Dbuf j v | ld32Dbuf j | st32Dbuf j v => exact NextTxSynced_alignedOr j _ h
  | reservedOffset off dir => cases dir <;> exact h
  | badAccess off width dir => trivial
  | evRx r b =>
    rw [exec, execEvRx]
    split
    · trivial
    · exact TxSynced_receive _ b h
  | evTxrdy r =>
    rw [exec, execEvTxrdy]
    split
    · trivial
    · split
      · rename_i hbusy
        exact TxSynced_txrdy (hinv.1 _) hbusy h
      · trivial
  | evTick2ms | evTick1s => exact h

/-- Operating keeps the port synchronised where the decoded instruction spares its TX ring (R161). -/
theorem NextTxSynced_operate {o : Operation} (hspares : ∀ i, decode o = .instr i → sparesRing (txRing p) i = true)
    (hinv : s.Inv) (h : s.TxSynced p) : NextTxSynced p (operate o s) := by
  unfold operate
  split
  · rename_i i hi
    exact NextTxSynced_exec (decodedInstructionsAreWellFormed o i hi) (hspares i hi) hinv h
  · trivial

/-- While the reset input is asserted an operation changes nothing (R280). -/
theorem NextTxSynced_whileInReset (o : Operation) (h : s.TxSynced p) : NextTxSynced p (whileInReset o s) := by
  cases o with
  | access off width dir => trivial
  | event w =>
    rw [whileInReset]
    split
    · exact h
    · trivial

theorem TxSynced_resetLine (asserted : Bool) (h : s.TxSynced p) : (resetLine asserted s).TxSynced p := by
  unfold resetLine
  split
  · exact h
  · split
    · exact TxSynced_atReset _ _ p
    · exact h

/-- Delivering an operation keeps the port synchronised where its instruction spares the TX ring; so does any change of
the reset input. -/
theorem NextTxSynced_deliver {input : Input}
    (hspares : ∀ o i, input = .op o → decode o = .instr i → sparesRing (txRing p) i = true)
    (hinv : s.Inv) (h : s.TxSynced p) : NextTxSynced p (deliver input s) := by
  cases input with
  | op o =>
    rw [deliver]
    split
    · exact NextTxSynced_whileInReset o h
    · exact NextTxSynced_operate (fun i => hspares o i rfl) hinv h
  | resetLine asserted => exact TxSynced_resetLine asserted h

end

/-- Settles O24: taking an input off the list touches neither port nor ring, and delivering it keeps them synchronised. -/
theorem stepKeepsPortsSynchronised : Obligations.StepKeepsPortsSynchronised := by
  intro s t p hinv h hspares hstep
  refine NextTxSynced.synced (o := step s) ?_ hstep
  unfold step takeInput
  split
  · exact h
  · rename_i input rest hpending
    refine NextTxSynced_deliver (s := { s with pending := rest }) (fun o i hop hdecode => ?_) hinv h
    exact hspares o rest i (hop ▸ hpending) hdecode

/-! ### The port commands on their rings (R152, R153) -/

/-- `txwrite` is `enq` on the TX ring and the arming of the port (R152). -/
theorem txwrite_eq_enq (s : State) (q : Fin Config.nPorts) (l : List Byte) :
    s.txwrite q l = ((s.enq (txRing q) l).1.setPort q
      { s.port q with txbusy := (s.port q).txbusy || decide (1 ≤ (s.enq (txRing q) l).2) }, (s.enq (txRing q) l).2) :=
  State.txwrite_eq s q l

/-- Settles O19: the TX ring as `enq` leaves it, the port armed if it stored a byte, `ERR` and `RES` from their
number. -/
theorem serWriteStoresAndArms : Obligations.SerWriteStoresAndArms := by
  intro p n s q h hok
  refine ⟨_, exec_serWrite s n h, ?_⟩
  rw [← enq_written_firstBytes, txwrite_eq_enq]
  refine ⟨enq_stored _ hok, enq_indices _ hok, fun a => enq_read_of_ne_slot _ hok, port_setPort_same _ q _,
    fun j => enq_ring_ne s _, fun q' => port_setPort_ne _ _, ?frame⟩
  case frame =>
    rw [← overflowStatus_code]
    rfl

/-- `SER_READ` on a port is `RB_DEQ` on its RX ring (R153, R127). -/
theorem exec_serRead_eq_rbDeq (s : State) {p r : Byte} {q : Fin Config.nPorts} (n : Byte) (hp : p.toNat = q.val)
    (hr : r.toNat = (rxRing q).val) : exec (.serRead p n) s = exec (.rbDeq r n) s := by
  rw [exec_serRead s n hp, exec_rbDeq s hr]

/-- Settles O20: it is O14 on the RX ring of the port. -/
theorem serReadReturnsTheOldestBytes : Obligations.SerReadReturnsTheOldestBytes := by
  intro p n s q h hok
  have hlt : (rxRing q).val < 5 := (rxRing q).isLt
  have hr : (BitVec.ofNat 8 (rxRing q).val).toNat = (rxRing q).val := by
    rw [BitVec.toNat_ofNat, Nat.mod_eq_of_lt (by omega)]
  rw [exec_serRead_eq_rbDeq s n h hr]
  exact rbDeqReturnsTheOldestBytes _ n s (rxRing q) hr hok

/-! ### The line events on a port (R155, R156) -/

/-- Settles O21: a full ring drops the byte and the port records it; any other stores it as `enq` does. -/
theorem receivedByteIsStoredOrFlagged : Obligations.ReceivedByteIsStoredOrFlagged := by
  intro p b s q h hok
  refine ⟨_, exec_evRx_port s b h, ?_⟩
  by_cases hfull : (s.ring (rxRing q)).count = (s.ring (rxRing q)).cap
  · rw [State.receive_of_full b hfull, if_pos hfull]
    exact ⟨⟨rfl, port_setPort_same s q _⟩, fun _ _ => rfl, fun _ => port_setPort_ne s _, rfl⟩
  · have hroom : (s.ring (rxRing q)).count.toNat < (s.ring (rxRing q)).cap.toNat :=
      Nat.lt_of_le_of_ne hok.2.1 fun heq => hfull (BitVec.eq_of_toNat_eq heq)
    have hone : (s.enq (rxRing q) [b]).2 = 1 := Nat.min_eq_left (Nat.sub_pos_of_lt hroom)
    have hstored := enq_stored [b] hok
    have hindices := enq_indices [b] hok
    have hread := fun a => enq_read_of_ne_slot [b] hok (a := a)
    rw [hone] at hstored hindices hread
    obtain ⟨hcap, hhead, hcount, htail⟩ := hindices
    rw [State.receive_of_room b hroom, if_neg hfull]
    refine ⟨⟨hstored, hcap, hhead, hcount, htail, fun a ha => hread a ?slot, rfl⟩, fun j => enq_ring_ne s [b],
      fun _ _ => rfl, rfl⟩
    case slot =>
      intro k hk
      obtain rfl := Nat.lt_one_iff.1 hk
      exact ha

/-- A ring that holds a byte counts it and those after it. -/
theorem count_of_stored {s : State} {r : Fin Config.nRings} {b : Byte} {rest : List Byte}
    (h : s.stored r = b :: rest) : (s.ring r).count.toNat = rest.length + 1 := by
  rw [← stored_length, h, List.length_cons]

/-- Settles O22: by what the TX ring holds, nothing or an oldest byte, which `deq` removes. -/
theorem transmitEventEmitsTheOldestByte : Obligations.TransmitEventEmitsTheOldestByte := by
  intro p s q h hbusy hok
  refine ⟨_, exec_evTxrdy_of_armed h hbusy, ?_⟩
  cases hheld : s.stored (txRing q) with
  | nil =>
    rw [State.txrdy_of_empty hheld]
    exact ⟨⟨rfl, port_setPort_same s q _⟩, fun _ _ => rfl, fun _ => port_setPort_ne s _, rfl⟩
  | cons b rest =>
    have hone : min 1 (s.ring (txRing q)).count.toNat = 1 := by
      rw [count_of_stored hheld]
      omega
    have hstored := deq_stored 1 hok
    have hindices := deq_indices 1 hok
    rw [hone] at hstored hindices
    rw [hheld] at hstored
    rw [State.txrdy_of_stored hok hbusy hheld]
    exact ⟨⟨hstored, hindices, port_setPort_same _ q _⟩, fun j => deq_ring_ne s 1, fun _ => port_setPort_ne _ _, rfl⟩

/-! ### Draining a port (R151, R155, R159) -/

/-- A port as it is after it emitted every byte of `l` and went idle (R151). -/
def Port.drained (g : Port) (l : List Byte) : Port := { g with txbusy := false, lineOut := g.lineOut ++ l }

/-- A port as it is after it emitted the byte `b`, with the bytes of `l` left to emit (R155). -/
def Port.emitted (g : Port) (b : Byte) (l : List Byte) : Port :=
  { g with txbusy := !l.isEmpty, lineOut := g.lineOut ++ [b] }

theorem Port.drained_nil {g : Port} (h : g.txbusy = false) : g.drained [] = g := by
  rw [Port.drained, List.append_nil, ← h]

theorem Port.drained_emitted (g : Port) (b : Byte) (l l' : List Byte) :
    (g.emitted b l).drained l' = g.drained (b :: l') := by
  simp [Port.drained, Port.emitted]

/-- The state with these inputs still to come, and port `p`'s bits and TX ring replaced: what transmit events of the port
change. -/
def State.replaceTx (s : State) (p : Fin Config.nPorts) (rest : List Input) (g : Ring) (bits : Port) : State :=
  (({ s with pending := rest } : State).setRing (txRing p) g).setPort p bits

section
variable (s : State) (p : Fin Config.nPorts) (rest rest' : List Input) (g g' : Ring) (bits bits' : Port)

@[simp] theorem ring_replaceTx_same : (s.replaceTx p rest g bits).ring (txRing p) = g :=
  ring_setRing_same _ (txRing p) g

@[simp] theorem port_replaceTx_same : (s.replaceTx p rest g bits).port p = bits := port_setPort_same _ p bits

@[simp] theorem replaceTx_inReset : (s.replaceTx p rest g bits).inReset = s.inReset := rfl

@[simp] theorem replaceTx_pending : (s.replaceTx p rest g bits).pending = rest := rfl

@[simp] theorem stored_replaceTx_same :
    (s.replaceTx p rest g bits).stored (txRing p) = g.stored (s.ringFree (txRing p)) :=
  stored_setRing_same { s with pending := rest } (txRing p) g

/-- Only the last replacement stands. -/
theorem replaceTx_replaceTx :
    (s.replaceTx p rest g bits).replaceTx p rest' g' bits' = s.replaceTx p rest' g' bits' := by
  simp only [State.replaceTx, State.setRing, State.setPort, Vector.set_set]

/-- Replacing the parts of a state by themselves changes nothing. -/
theorem replaceTx_self (h : s.pending = rest) : s.replaceTx p rest (s.ring (txRing p)) (s.port p) = s := by
  subst h
  exact (congrArg (State.setPort · p (s.port p)) (setRing_ring_self s (txRing p))).trans (setPort_port_self s p)

end

/-- The event word of `EV_TXRDY p` decodes to it (R100). -/
theorem decode_txrdyWord (p : Fin Config.nPorts) :
    decode (.event (txrdyWord p)) = .instr (.evTxrdy (BitVec.ofNat 4 p.val)) :=
  (eventWordsDecodeAndOthersAreRefused.1 p 0#8).2

section
variable {p : Fin Config.nPorts} {rest : List Input} {l : List Byte} {s : State}

/-- A step that takes `EV_TXRDY p` while the TX ring holds a byte emits the oldest one (R155). -/
theorem step_txrdy_of_stored {b : Byte} (hok : (s.ring (txRing p)).Ok) (hreset : s.inReset = false)
    (hbusy : (s.port p).txbusy = true) (hheld : s.stored (txRing p) = b :: l)
    (hpending : s.pending = .op (.event (txrdyWord p)) :: rest) :
    ∃ g : Ring, g.Ok ∧ g.stored (s.ringFree (txRing p)) = l ∧
      step s = .next (s.replaceTx p rest g ((s.port p).emitted b l)) := by
  obtain ⟨-, hok', hstored, -⟩ := Ring.deq_spec (s.ringFree (txRing p)) 1 hok
  refine ⟨_, hok', hstored.trans (congrArg (List.drop 1) hheld), ?_⟩
  have hexec := exec_evTxrdy_of_armed (s := { s with pending := rest }) (ofNat_port_toNat p) hbusy
  have htxrdy := State.txrdy_of_stored (s := { s with pending := rest }) hok hbusy hheld
  rw [step_op hreset hpending, operate_instr _ (decode_txrdyWord p), hexec, htxrdy]
  rfl

/-- A port armed exactly if its TX ring holds a byte, and asked for each byte it holds, emits them all and is idle. -/
theorem run_txrdy_of_stored (hok : (s.ring (txRing p)).Ok) (hreset : s.inReset = false)
    (hbusy : (s.port p).txbusy = !l.isEmpty) (hheld : s.stored (txRing p) = l)
    (hpending : s.pending = List.replicate l.length (.op (.event (txrdyWord p))) ++ rest) :
    ∃ g : Ring, g.stored (s.ringFree (txRing p)) = [] ∧
      Host.Core.run Sys2Proof.core l.length s = .next (s.replaceTx p rest g ((s.port p).drained l)) := by
  induction l generalizing s with
  | nil =>
    refine ⟨s.ring (txRing p), hheld, ?_⟩
    rw [Port.drained_nil hbusy, replaceTx_self s p rest hpending]
    rfl
  | cons b l ih =>
    obtain ⟨g, hok', hstored, hstep⟩ := step_txrdy_of_stored hok hreset hbusy hheld hpending
    obtain ⟨g', hempty, hrun⟩ := ih (by rwa [ring_replaceTx_same]) ((replaceTx_inReset ..).trans hreset)
      (congrArg Port.txbusy (port_replaceTx_same s p _ g ((s.port p).emitted b l))) ((stored_replaceTx_same ..).trans hstored) (replaceTx_pending ..)
    refine ⟨g', hempty, (run_succ l.length hstep).trans (hrun.trans ?_)⟩
    rw [replaceTx_replaceTx, port_replaceTx_same, Port.drained_emitted]

end

/-- Settles O25: the run leaves the port drained of the bytes its TX ring held, and that ring empty. -/
theorem drainingEmitsEveryStoredByte : Obligations.DrainingEmitsEveryStoredByte := by
  intro s p rest hok hreset hbusy hcount hpending
  rw [← stored_length] at hcount hpending ⊢
  have harmed : (s.port p).txbusy = !(s.stored (txRing p)).isEmpty := by
    rw [hbusy, List.isEmpty_eq_false_iff.2 (List.ne_nil_of_length_pos hcount)]
    rfl
  obtain ⟨g, hempty, hrun⟩ := run_txrdy_of_stored hok hreset harmed rfl hpending
  refine ⟨_, hrun, ?lineOut, ?txbusy, ?rxovf, ?empty, fun j => ring_setRing_ne _ _, fun q => port_setPort_ne _ _, rfl⟩
  case empty => rw [stored_replaceTx_same, hempty]
  all_goals
    rw [port_replaceTx_same]
    rfl

/-! ### A port beside another (R150) -/

/-- The number of a port of the block, in an operand of any width. -/
theorem ofNat_toNat_port {w : Nat} (hw : 0 < w) (p : Fin Config.nPorts) : (BitVec.ofNat w p.val).toNat = p.val := by
  have hp : p.val < 2 := p.isLt
  have hpow : 2 ^ 1 ≤ 2 ^ w := Nat.pow_le_pow_right (by decide) hw
  rw [BitVec.toNat_ofNat, Nat.mod_eq_of_lt (by omega)]

theorem setPort_setRing (s : State) (p : Fin Config.nPorts) (g : Port) (r : Fin Config.nRings) (g' : Ring) :
    (s.setRing r g').setPort p g = (s.setPort p g).setRing r g' := rfl

theorem setPort_comm (s : State) {p q : Fin Config.nPorts} (g g' : Port) (h : p ≠ q) :
    (s.setPort q g').setPort p g = (s.setPort p g).setPort q g' := by
  simp only [State.setPort, Vector.set_comm _ _ (Fin.val_ne_of_ne h)]

theorem setRing_comm (s : State) {r r' : Fin Config.nRings} (g g' : Ring) (h : r ≠ r') :
    (s.setRing r' g').setRing r g = (s.setRing r g).setRing r' g' := by
  simp only [State.setRing, Vector.set_comm _ _ (Fin.val_ne_of_ne h)]

section
variable (s : State) {p q : Fin Config.nPorts} (bits : Port) (tx rx : Ring)

/-! `DBUF` and the free values of storage belong to no port. -/

theorem firstBytes_replacePort (n : Nat) : (s.replacePort q bits tx rx).firstBytes n = s.firstBytes n := rfl

theorem radioWindow_replacePort (w : Fin 2) : (s.replacePort q bits tx rx).radioWindow w = s.radioWindow w := rfl

theorem ringFree_replacePort (r : Fin Config.nRings) : (s.replacePort q bits tx rx).ringFree r = s.ringFree r := rfl

/-! The other port's bits and rings are its own. -/

variable (h : p ≠ q)
include h

theorem port_replacePort : (s.replacePort q bits tx rx).port p = s.port p := port_setPort_ne s bits h

theorem setPort_replacePort (g : Port) :
    (s.replacePort q bits tx rx).setPort p g = (s.setPort p g).replacePort q bits tx rx := by
  rw [State.replacePort, setPort_setRing, setPort_setRing, setPort_comm s g bits h, State.replacePort]

theorem ring_tx_replacePort : (s.replacePort q bits tx rx).ring (txRing p) = s.ring (txRing p) := by
  have htx : txRing p ≠ txRing q := fun heq => h (txRing_injective heq)
  rw [State.replacePort, ring_setRing_ne _ rx (txRing_ne_rxRing p q), ring_setRing_ne _ tx htx, ring_setPort]

theorem ring_rx_replacePort : (s.replacePort q bits tx rx).ring (rxRing p) = s.ring (rxRing p) := by
  have hrx : rxRing p ≠ rxRing q := fun heq => h (rxRing_injective heq)
  rw [State.replacePort, ring_setRing_ne _ rx hrx, ring_setRing_ne _ tx (txRing_ne_rxRing q p).symm, ring_setPort]

theorem setRing_tx_replacePort (g : Ring) :
    (s.replacePort q bits tx rx).setRing (txRing p) g = (s.setRing (txRing p) g).replacePort q bits tx rx := by
  have htx : txRing p ≠ txRing q := fun heq => h (txRing_injective heq)
  rw [State.replacePort, setRing_comm _ g rx (txRing_ne_rxRing p q), setRing_comm _ g tx htx, ← setPort_setRing,
    State.replacePort]

theorem setRing_rx_replacePort (g : Ring) :
    (s.replacePort q bits tx rx).setRing (rxRing p) g = (s.setRing (rxRing p) g).replacePort q bits tx rx := by
  have hrx : rxRing p ≠ rxRing q := fun heq => h (rxRing_injective heq)
  rw [State.replacePort, setRing_comm _ g rx hrx, setRing_comm _ g tx (txRing_ne_rxRing q p).symm, ← setPort_setRing,
    State.replacePort]

/-! So each part of a port operation commutes with the replacement. -/

theorem txwrite_replacePort (l : List Byte) : (s.replacePort q bits tx rx).txwrite p l =
    ((s.txwrite p l).1.replacePort q bits tx rx, (s.txwrite p l).2) := by
  simp only [State.txwrite_eq, ring_tx_replacePort s bits tx rx h, port_replacePort s bits tx rx h,
    setRing_tx_replacePort _ bits tx rx h, setPort_replacePort _ bits tx rx h]

theorem deq_rx_replacePort (n : Nat) : (s.replacePort q bits tx rx).deq (rxRing p) n =
    ((s.deq (rxRing p) n).1, (s.deq (rxRing p) n).2.replacePort q bits tx rx) := by
  simp only [State.deq_eq, ring_rx_replacePort s bits tx rx h, ringFree_replacePort,
    setRing_rx_replacePort _ bits tx rx h]

theorem receive_replacePort (b : Byte) :
    (s.replacePort q bits tx rx).receive p b = (s.receive p b).replacePort q bits tx rx := by
  simp only [State.receive_eq, ring_rx_replacePort s bits tx rx h, port_replacePort s bits tx rx h,
    setRing_rx_replacePort _ bits tx rx h, setPort_replacePort _ bits tx rx h]
  split <;> rfl

theorem txrdy_replacePort :
    (s.replacePort q bits tx rx).txrdy p = (s.txrdy p).replacePort q bits tx rx := by
  simp only [State.txrdy_eq, ring_tx_replacePort s bits tx rx h, port_replacePort s bits tx rx h, ringFree_replacePort,
    setRing_tx_replacePort _ bits tx rx h, setPort_replacePort _ bits tx rx h]
  split <;> rfl

end

/-- Settles O26: each operation is one of the shared ones on its own port, ended by `finish` or `returns`. -/
theorem portsAreIndependent : Obligations.PortsAreIndependent := by
  intro p q n v s bits tx rx h i hi
  have hp3 := ofNat_toNat_port (w := 3) (by decide) p
  have hp4 := ofNat_port_toNat p
  have hp8 := ofNat_toNat_port (w := 8) (by decide) p
  simp only [List.mem_cons, List.not_mem_nil, or_false] at hi
  rcases hi with rfl | rfl | rfl | rfl | rfl | rfl | rfl
  · rw [exec_serWrite _ n hp8, exec_serWrite _ n hp8, firstBytes_replacePort, txwrite_replacePort s bits tx rx h]
    rfl
  · rw [exec_serRead _ n hp8, exec_serRead _ n hp8, deq_rx_replacePort s bits tx rx h]
    rfl
  · rw [exec_pktSend _ hp8, exec_pktSend _ hp8, radioWindow_replacePort, txwrite_replacePort s bits tx rx h]
    rfl
  · rw [exec_evRx_port _ n hp4, exec_evRx_port _ n hp4, receive_replacePort s bits tx rx h]
    rfl
  · rw [exec_evTxrdy_port _ hp4, exec_evTxrdy_port _ hp4, port_replacePort s bits tx rx h,
      txrdy_replacePort s bits tx rx h]
    split <;> rfl
  · rw [exec_ld32Pstat_port _ hp3, exec_ld32Pstat_port _ hp3, port_replacePort s bits tx rx h]
    rfl
  · rw [exec_st32Pstat_port _ v hp3, exec_st32Pstat_port _ v hp3, port_replacePort s bits tx rx h,
      setPort_replacePort s bits tx rx h]
    rfl

end Sys2Proof.Machine

/-! PROOFS. Family 43, the packet codec: what a framing command leaves in `DBUF` (R181 to R186), what `PKT_DECODE`
reports and records (R187), that an encoded frame decodes (R188) and a changed one does not (R194), and the
transmission of the radio window (R190, R191). -/

namespace Sys2Proof.Machine

/-! ### The framing commands (R184 to R186) -/

/-- `PKT_ENCODE` frames its input (R184). -/
theorem exec_pktEncode (n ty : Byte) (s : State) :
    exec (.pktEncode n ty) s = .next (s.framed n (frameWith Config.checksumKind ty) 63) := rfl

/-- `PKT_ENVELOPE` frames its input behind `DEST` and `CHAN` (R185). -/
theorem exec_pktEnvelope (n ty : Byte) (s : State) :
    exec (.pktEnvelope n ty) s = .next (s.framed n (envelopeWith Config.checksumKind s.dest s.chan ty) 66) := rfl

/-- `PKT_ROUTE` frames its input behind the broadcast address and channel 0x00 (R186). -/
theorem exec_pktRoute (n : Byte) (s : State) : exec (.pktRoute n) s =
    .next (s.framed n (envelopeWith Config.checksumKind 0xFFFF#16 0x00#8 Config.typeRoute) 66) := rfl

/-- A payload over 61 bytes is `INVALID` (R184 to R186). -/
theorem framed_of_gt {n : Byte} (s : State) (bytes : List Byte → List Byte) (length : Nat) (h : 61 < n.toNat) :
    s.framed n bytes length = s.finish .invalid 0#32 := if_pos h

/-- A payload of at most 61 bytes is the first bytes of `DBUF`, and its frame is left there (R184 to R186). -/
theorem framed_of_le {n : Byte} (s : State) (bytes : List Byte → List Byte) (length : Nat) (h : n.toNat ≤ 61) :
    s.framed n bytes length =
      (s.outputBytes (bytes (s.firstBytes n.toNat))).finish .ok (countWord length) := by
  rw [← inputBytes_eq]
  exact if_neg (Nat.not_lt.2 h)

/-! ### A frame among the output bytes (R181, R182) -/

section
variable (s : State) (pre : List Byte)

/-- Output bytes behind others, each at its place (R25). -/
theorem some_dbufByte_outputBytes_append {l : List Byte} {k : Nat} (h : k < l.length) :
    some ((s.outputBytes (pre ++ l)).dbufByte (pre.length + k)) = l[k]? := by
  rw [some_dbufByte_outputBytes_of_lt _ (by rw [List.length_append]; omega),
    List.getElem?_append_right (Nat.le_add_right _ _), Nat.add_sub_cancel_left]

/-- `DBUF` holds a part of a command's output at the index it has in the whole (R25). -/
theorem dbufRange_outputBytes (l post : List Byte) :
    (s.outputBytes (pre ++ (l ++ post))).dbufRange pre.length l.length = l := by
  apply List.ext_getElem?
  intro k
  by_cases hk : k < l.length
  · rw [dbufRange_getElem? _ _ _ _ hk,
      some_dbufByte_outputBytes_append s pre (by rw [List.length_append]; omega), List.getElem?_append_left hk]
  · rw [List.getElem?_eq_none (by rw [dbufRange_length]; omega), List.getElem?_eq_none (by omega)]

variable {n : Nat} (ty : Byte) (h : n ≤ 61)
include h

/-- The frame of the first `n` bytes of `DBUF`, left there behind the bytes of an address (R181, R182). -/
theorem framedAt_outputBytes :
    FramedAt s (s.outputBytes (pre ++ frameWith Config.checksumKind ty (s.firstBytes n))) pre.length ty n := by
  have hl : (s.firstBytes n).length ≤ 61 := by rwa [firstBytes_length]
  have hlen := frameWith_length Config.checksumKind ty hl
  have hbyte := fun k (hk : k < 63) => some_dbufByte_outputBytes_append s pre (hlen.symm ▸ hk)
  obtain ⟨htype, hpayload, hck⟩ := frameWith_getElem? Config.checksumKind ty hl
  refine ⟨Option.some.inj ((hbyte 0 (by decide)).trans htype), fun k hk => ?payload, ?checksum⟩
  case payload =>
    rw [Nat.add_assoc, Option.some.inj ((hbyte (1 + k) (by omega)).trans (hpayload k hk))]
    by_cases hkn : k < n
    · rw [if_pos hkn, firstBytes_getElem? s hkn, Option.getD_some]
    · rw [if_neg hkn, List.getElem?_eq_none (by rw [firstBytes_length]; omega), Option.getD_none]
  case checksum =>
    rw [← dbufRange_eq, Option.some.inj ((hbyte 62 (by decide)).trans hck)]
    have hbody := dbufRange_outputBytes s pre (frameBody ty (s.firstBytes n))
      [ckWith Config.checksumKind (frameBody ty (s.firstBytes n))]
    rw [frameBody_length ty hl] at hbody
    exact congrArg _ hbody.symm

/-- Behind the address and the frame `DBUF` is unchanged (R184 to R186). -/
theorem dbufByte_frame_of_le {a : Nat} (ha : pre.length + 63 ≤ a) :
    (s.outputBytes (pre ++ frameWith Config.checksumKind ty (s.firstBytes n))).dbufByte a = s.dbufByte a := by
  have hlen := frameWith_length Config.checksumKind ty (l := s.firstBytes n) (by rwa [firstBytes_length])
  exact dbufByte_outputBytes_of_length_le s (by rw [List.length_append]; omega)

end

/-- Settles O28: the output is the frame alone. -/
theorem pktEncodeFramesThePayload : Obligations.PktEncodeFramesThePayload := by
  intro n ty s
  refine ⟨fun h => ?fits, fun h => ?invalid⟩
  case fits =>
    refine ⟨_, (exec_pktEncode n ty s).trans (congrArg _ (framed_of_le s _ _ h)), ?_, fun a => ?_, rfl⟩
    · exact framedAt_outputBytes s [] ty h
    · exact dbufByte_frame_of_le s [] ty h
  case invalid => exact (exec_pktEncode n ty s).trans (congrArg _ (framed_of_gt s _ _ h))

/-- An envelope is a frame behind three bytes (R182); what an instruction that leaves one does. -/
theorem exec_envelope_of_le {n : Byte} {i : Instr} {s : State} {dest : Half} {chan ty : Byte}
    (hi : exec i s = .next (s.framed n (envelopeWith Config.checksumKind dest chan ty) 66)) (h : n.toNat ≤ 61) :
    ∃ t, exec i s = .next t ∧
      t.dbufByte 0 = dest.extractLsb' 8 8 ∧ t.dbufByte 1 = dest.extractLsb' 0 8 ∧ t.dbufByte 2 = chan ∧
      FramedAt s t 3 ty n.toNat ∧ (∀ a, 66 ≤ a → t.dbufByte a = s.dbufByte a) ∧
      t = { s with dbuf := t.dbuf, err := 0x00#8, res := 66#32 } := by
  rw [framed_of_le s _ _ h] at hi
  refine ⟨_, hi, dbufByte_outputBytes s _ 0, dbufByte_outputBytes s _ 1, dbufByte_outputBytes s _ 2, ?_, fun a => ?_,
    rfl⟩
  · exact framedAt_outputBytes s [dest.extractLsb' 8 8, dest.extractLsb' 0 8, chan] ty h
  · exact dbufByte_frame_of_le s [dest.extractLsb' 8 8, dest.extractLsb' 0 8, chan] ty h

/-- Settles O29: the envelope to `DEST` and `CHAN`, the address by its two bytes as numbers. -/
theorem pktEnvelopeAddressesTheFrame : Obligations.PktEnvelopeAddressesTheFrame := by
  intro n ty s
  refine ⟨fun h => ?fits, fun h => ?invalid⟩
  case fits =>
    obtain ⟨t, ht, hhigh, hlow, hrest⟩ := exec_envelope_of_le (exec_pktEnvelope n ty s) h
    have hdest : s.dest.toNat < 2 ^ 16 := s.dest.isLt
    refine ⟨t, ht, ?_, ?_, hrest⟩
    · rw [hhigh, BitVec.extractLsb'_toNat, Nat.shiftRight_eq_div_pow]
      omega
    · rw [hlow, BitVec.extractLsb'_toNat]
      rfl
  case invalid => exact (exec_pktEnvelope n ty s).trans (congrArg _ (framed_of_gt s _ _ h))

/-- Settles O30: the envelope to 0xFFFF and channel 0x00. -/
theorem pktRouteBroadcasts : Obligations.PktRouteBroadcasts := fun n s =>
  ⟨exec_envelope_of_le (exec_pktRoute n s), fun h => (exec_pktRoute n s).trans (congrArg _ (framed_of_gt s _ _ h))⟩

/-! ### `PKT_DECODE` (R187) -/

/-- The checksum of a frame agrees when it is that of the 62 bytes before it (R181). -/
theorem frameAgrees_iff (s : State) (k : ChecksumKind) (off : Nat) :
    s.frameAgrees k off = true ↔ ckWith k (s.dbufRange off 62) = s.dbufByte (off + 62) := beq_iff_eq

/-- Settles O31: the three ways it ends, the 62 bytes as a range of `DBUF`. -/
theorem pktDecodeChecksTheFrame : Obligations.PktDecodeChecksTheFrame := by
  intro off s
  refine congrArg Host.Outcome.next ?_
  rw [← dbufRange_eq, cmdPktDecode, pktDecodeWith]
  simp only [frameAgrees_iff]
  rfl

section
variable {off : Byte} {s : State} (hoff : off.toNat ≤ 193)
include hoff

/-- On agreement `PKT_DECODE` records the type (R187). -/
theorem exec_pktDecode_of_agrees (h : s.frameAgrees Config.checksumKind off.toNat = true) :
    exec (.pktDecode off) s = .next { s with rtype := s.dbufByte off.toNat, err := 0x00#8, res := 61#32 } := by
  rw [frameAgrees_iff, dbufRange_eq] at h
  rw [pktDecodeChecksTheFrame, if_neg (Nat.not_lt.2 hoff), if_pos h]

/-- On disagreement `PKT_DECODE` reports it (R187). -/
theorem exec_pktDecode_of_not_agrees (h : ¬ s.frameAgrees Config.checksumKind off.toNat = true) :
    exec (.pktDecode off) s = .next { s with err := 0x05#8, res := 0#32 } := by
  rw [frameAgrees_iff, dbufRange_eq] at h
  rw [pktDecodeChecksTheFrame, if_neg (Nat.not_lt.2 hoff), if_neg h]

/-- A frame that decodes `OK` agrees with its checksum (R187). -/
theorem frameAgrees_of_decoded {t : State} (ht : exec (.pktDecode off) s = .next t) (herr : t.err = 0x00#8) :
    s.frameAgrees Config.checksumKind off.toNat = true := by
  by_contra hdiffers
  rw [exec_pktDecode_of_not_agrees hoff hdiffers] at ht
  cases ht
  cases herr

end

/-! ### An encoded frame decodes (R188) -/

/-- A frame that stands in `DBUF` agrees with its checksum (R181). -/
theorem FramedAt.frameAgrees {s t : State} {pos n : Nat} {ty : Byte} (h : FramedAt s t pos ty n) :
    t.frameAgrees Config.checksumKind pos = true := by
  obtain ⟨-, -, hck⟩ := h
  rw [frameAgrees_iff, dbufRange_eq, hck]

/-- Settles O32: the frame O28 leaves agrees with its checksum, and decoding leaves `DBUF` alone. -/
theorem encodedFrameDecodes : Obligations.EncodedFrameDecodes := by
  intro n ty s h
  obtain ⟨hfits, -⟩ := pktEncodeFramesThePayload n ty s
  obtain ⟨t, ht, hframe, -⟩ := hfits h
  have hdecode := exec_pktDecode_of_agrees (off := 0x00#8) (by decide) hframe.frameAgrees
  rw [execAll_cons_of_next ht, execAll_cons_of_next hdecode, execAll]
  obtain ⟨htype, hpayload, -⟩ := hframe
  refine ⟨_, rfl, rfl, rfl, htype, fun k hk => ?payload, fun k hnk hk => ?zeros⟩
  case payload => exact (hpayload k (by omega)).trans (if_pos hk)
  case zeros => exact (hpayload k hk).trans (if_neg (by omega))

/-! ### A changed frame does not decode (R194) -/

/-- One stored byte replaces the byte at its place in a range of `DBUF`. -/
theorem dbufRange_storeDbuf_singleton (s : State) (i n k : Nat) (v : Byte) :
    (s.storeDbuf (i + k) [v]).dbufRange i n = (s.dbufRange i n).set k v := by
  apply List.ext_getElem?
  intro j
  by_cases hj : j < n
  · rw [dbufRange_getElem? _ _ _ _ hj, dbufByte_storeDbuf_singleton, List.getElem?_set, dbufRange_length,
      dbufRange_getElem? _ _ _ _ hj]
    by_cases hjk : j = k
    · rw [if_pos (by omega), if_pos hjk.symm, if_pos (hjk ▸ hj)]
    · rw [if_neg (by omega), if_neg (Ne.symm hjk)]
  · rw [List.getElem?_eq_none (by rw [dbufRange_length]; omega),
      List.getElem?_eq_none (by rw [List.length_set, dbufRange_length]; omega)]

/-- A frame that agrees with its checksum agrees no longer with one byte changed: a byte of the body changes the sum
alone, the checksum byte only what the sum is compared with (R194). -/
theorem not_frameAgrees_storeDbuf {s : State} {kind : ChecksumKind} {off k : Nat} {v : Byte} (hk : k < 63)
    (hv : v ≠ s.dbufByte (off + k)) (h : s.frameAgrees kind off = true) :
    ¬ (s.storeDbuf (off + k) [v]).frameAgrees kind off = true := by
  rw [frameAgrees_iff] at h
  rw [frameAgrees_iff, dbufRange_storeDbuf_singleton, dbufByte_storeDbuf_singleton]
  rcases Nat.lt_or_eq_of_le (Nat.le_of_lt_succ hk) with hbody | rfl
  · have hlt : k < (s.dbufRange off 62).length := by rwa [dbufRange_length]
    have hold : (s.dbufRange off 62)[k] = s.dbufByte (off + k) :=
      Option.some.inj ((List.getElem?_eq_getElem hlt).symm.trans (dbufRange_getElem? s off 62 k hbody))
    rw [if_neg (by omega), ← h]
    exact ckWith_set_ne kind hlt (hold ▸ hv)
  · rw [if_pos rfl, List.set_eq_of_length_le (by rw [dbufRange_length]), h]
    exact hv.symm

/-- Settles O33: the frame agreed before the byte was stored, so it does not after. -/
theorem singleByteChangeIsDetected : Obligations.SingleByteChangeIsDetected := by
  intro off v k s t hoff hk ht herr hv
  have hindex : (BitVec.ofNat 8 (off.toNat + k)).toNat = off.toNat + k := by
    rw [BitVec.toNat_ofNat, Nat.mod_eq_of_lt (by omega)]
  have hdiffers := not_frameAgrees_storeDbuf hk hv (frameAgrees_of_decoded hoff ht herr)
  rw [execAll_cons_of_next (exec_st8Dbuf _ v s), hindex,
    execAll_cons_of_next (exec_pktDecode_of_not_agrees hoff hdiffers), execAll]
  exact ⟨_, rfl, rfl, rfl, rfl⟩

/-! ### The radio window (R190, R191) -/

/-- Settles O34: the TX ring as `enq` leaves it, the port armed if it stored a byte, `ERR` and `RES` from their
number. -/
theorem pktSendHandsOverTheRadioWindow : Obligations.PktSendHandsOverTheRadioWindow := by
  intro p s q h hok
  refine ⟨_, exec_pktSend s h, ?_⟩
  rw [← radioWindow_eq, txwrite_eq_enq]
  have hwritten : min (s.radioWindow Config.radioWindowOffset).length
      ((s.ring (txRing q)).cap.toNat - (s.ring (txRing q)).count.toNat) =
      (s.enq (txRing q) (s.radioWindow Config.radioWindowOffset)).2 := by
    rw [State.enq_eq, Ring.enq_written]
  dsimp only
  rw [hwritten]
  refine ⟨enq_stored _ hok, enq_indices _ hok, fun a => enq_read_of_ne_slot _ hok, port_setPort_same _ q _,
    fun j => enq_ring_ne s _, fun q' => port_setPort_ne _ _, ?frame⟩
  case frame =>
    rw [← overflowStatus_code]
    rfl

end Sys2Proof.Machine

/-! PROOFS. Family 44, the checksum: a checksum ignores zero padding and the order of its bytes (R216), what each command
leaves in the accumulator (R210, R212 to R214), and that clearing it and feeding it bytes leaves their checksum (R217). -/

namespace Sys2Proof.Machine

/-! ### Padding and order (R216) -/

/-- Zero bytes leave the running sum where it stands. -/
theorem sumFrom_replicate_zero (k : ChecksumKind) (acc : Byte) (j : Nat) :
    sumFrom k acc (List.replicate j 0x00#8) = acc := by
  induction j with
  | zero => rfl
  | succ j ih =>
    calc sumFrom k acc (List.replicate (j + 1) 0x00#8)
        = sumFrom k (combWith k acc 0x00#8) (List.replicate j 0x00#8) := rfl
      _ = acc := by rw [combWith_zero, ih]

/-- Two bytes combined into a sum one after the other may change places. -/
theorem combWith_right_comm (k : ChecksumKind) (a b c : Byte) :
    combWith k (combWith k a b) c = combWith k (combWith k a c) b := by
  rw [combWith_assoc, combWith_comm k b c, ← combWith_assoc]

/-- Settles O38: the padding leaves the sum of `l` where it stands, and combining is right-commutative. -/
theorem checksumIgnoresPaddingAndOrder : Obligations.ChecksumIgnoresPaddingAndOrder := by
  intro k l l' j
  refine ⟨?padding, fun hperm => ?order⟩
  case padding => rw [ckWith, sumFrom_append, sumFrom_replicate_zero, ckWith]
  case order => exact hperm.foldl_eq' (fun b _ c _ acc => combWith_right_comm k acc b c) 0x00#8

/-! ### The accumulator commands (R212 to R214) -/

@[simp] theorem setCkacc_ckacc (s : State) (v : Byte) : (s.setCkacc v).ckacc = v := rfl

/-- Setting the accumulator reports `OK`, returns the new value zero-extended and changes nothing else (R9, R212). -/
theorem setCkacc_eq (s : State) (v : Byte) :
    s.setCkacc v = { s with ckacc := v, err := 0x00#8, res := BitVec.ofNat 32 v.toNat } := by
  rw [BitVec.ofNat_toNat]
  rfl

/-- The accumulator is no part of `DBUF`. -/
theorem firstBytes_setCkacc (s : State) (v : Byte) (n : Nat) : (s.setCkacc v).firstBytes n = s.firstBytes n := rfl

/-- `CK_CLEAR` sets the accumulator to zero (R212). -/
theorem exec_ckClear (s : State) : exec .ckClear s = .next (s.setCkacc 0x00#8) := rfl

/-- `CK_BYTE` combines its operand into the accumulator (R213). -/
theorem exec_ckByte (b : Byte) (s : State) :
    exec (.ckByte b) s = .next (s.setCkacc (combWith Config.checksumKind s.ckacc b)) := rfl

/-- `CK_BUF` sums the first bytes of `DBUF` into the accumulator (R214). -/
theorem exec_ckBuf (n : Byte) (s : State) :
    exec (.ckBuf n) s = .next (s.setCkacc (sumFrom Config.checksumKind s.ckacc (s.firstBytes n.toNat))) := by
  rw [← inputBytes_eq]
  rfl

/-- Settles O36: each command is `setCkacc` of a value, and the value is a sum or an XOR by the kind. -/
theorem checksumCommandsUpdateTheAccumulator : Obligations.ChecksumCommandsUpdateTheAccumulator := by
  intro b n s
  rw [exec_ckClear, exec_ckByte, exec_ckBuf, setCkacc_eq, setCkacc_eq, setCkacc_eq]
  refine ⟨rfl, ?_⟩
  cases Config.checksumKind with
  | add8 => exact ⟨rfl, rfl⟩
  | xor8 => exact ⟨rfl, rfl⟩

/-! ### Clearing the accumulator and feeding it (R217) -/

/-- A sequence of `CK_BYTE` completes and leaves the running sum of its operands in the accumulator. -/
theorem execAll_ckBytes (l : List Byte) (s : State) :
    ∃ t, execAll (l.map .ckByte) s = .next t ∧ t.ckacc = sumFrom Config.checksumKind s.ckacc l := by
  induction l generalizing s with
  | nil => exact ⟨s, rfl, rfl⟩
  | cons b rest ih =>
    obtain ⟨t, ht, hsum⟩ := ih (s.setCkacc (combWith Config.checksumKind s.ckacc b))
    exact ⟨t, (execAll_cons_of_next (exec_ckByte b s)).trans ht, hsum⟩

/-- Settles O37: a checksum is the running sum from the zero that `CK_CLEAR` leaves. -/
theorem accumulatorHoldsTheChecksum : Obligations.AccumulatorHoldsTheChecksum := by
  refine ⟨fun n s => ?fromDbuf, fun l s => ?byteByByte⟩
  case fromDbuf =>
    rw [execAll_cons_of_next (exec_ckClear s), execAll_cons_of_next (exec_ckBuf n _), execAll,
      setCkacc_ckacc, firstBytes_setCkacc]
    exact ⟨_, rfl, rfl⟩
  case byteByByte =>
    rw [execAll_cons_of_next (exec_ckClear s)]
    exact execAll_ckBytes l (s.setCkacc 0x00#8)

end Sys2Proof.Machine

/-! PROOFS. Family 45, the timer flags: what the ticks and a `TFLAG` write do to each flag (R231, R232, R234), that
these instructions touch `TFLAG` alone, and how ticks and clears follow one another (R235, R237). -/

namespace Sys2Proof.Machine

/-! ### The two flags bit by bit (R231, R232, R234) -/

theorem setTick2ms_getLsbD (t : BitVec 2) (i : Nat) :
    (setTick2ms t).getLsbD i = (t.getLsbD i || decide (i = 0)) := by
  simp [setTick2ms]

theorem setTick1s_getLsbD (t : BitVec 2) (i : Nat) :
    (setTick1s t).getLsbD i = (t.getLsbD i || decide (i = 1)) := by
  match i with
  | 0 | 1 | _ + 2 => simp [setTick1s]

theorem clearTicks_getLsbD (t : BitVec 2) (v : Word) (i : Nat) :
    (clearTicks t v).getLsbD i = (t.getLsbD i && !v.getLsbD i) := by
  by_cases hi : i < 2
  · simp [clearTicks, hi]
  · rw [BitVec.getLsbD_of_ge _ _ (Nat.not_lt.1 hi), BitVec.getLsbD_of_ge t _ (Nat.not_lt.1 hi), Bool.false_and]

/-! ### Ticks and clears one after another (R235, R237) -/

theorem setTick2ms_setTick2ms (t : BitVec 2) : setTick2ms (setTick2ms t) = setTick2ms t := by
  rw [setTick2ms, setTick2ms, BitVec.or_assoc, BitVec.or_self]

theorem setTick1s_setTick1s (t : BitVec 2) : setTick1s (setTick1s t) = setTick1s t := by
  rw [setTick1s, setTick1s, BitVec.or_assoc, BitVec.or_self]

/-- Clearing bits erases that they were set. -/
theorem or_and_not_mask {n : Nat} (t m : BitVec n) : (t ||| m) &&& ~~~m = t &&& ~~~m := by
  rw [BitVec.and_or_distrib_right, BitVec.and_not_self]
  exact BitVec.or_zero

/-- Setting bits keeps nothing of their being cleared. -/
theorem and_not_or_mask {n : Nat} (t m : BitVec n) : (t &&& ~~~m) ||| m = t ||| m := by
  ext i hi
  cases hm : m[i] <;> simp [hm]

/-! ### The instructions that change `TFLAG` alone (R231, R232, R234) -/

/-- The instruction completes on every state and changes nothing but `TFLAG`, and that by `f`. -/
def UpdatesTflag (i : Instr) (f : BitVec 2 → BitVec 2) : Prop :=
  ∀ s : State, exec i s = .next { s with tflag := f s.tflag }

theorem updatesTflag_evTick2ms : UpdatesTflag .evTick2ms setTick2ms := fun _ => rfl

theorem updatesTflag_evTick1s : UpdatesTflag .evTick1s setTick1s := fun _ => rfl

theorem updatesTflag_st32Tflag (v : Word) : UpdatesTflag (.st32Tflag v) (clearTicks · v) := fun _ => rfl

/-- Two such instructions do what a third does when their updates compose to its update. -/
theorem UpdatesTflag.execAll_pair {i j k : Instr} {f g h : BitVec 2 → BitVec 2} (hi : UpdatesTflag i f)
    (hj : UpdatesTflag j g) (hk : UpdatesTflag k h) (hcomp : ∀ t, g (f t) = h t) (s : State) :
    execAll [i, j] s = exec k s := by
  rw [execAll_cons_of_next (hi s), execAll_cons_of_next (hj _), execAll, hk s, ← hcomp]

/-- A read of `TFLAG` returns it zero-extended and clears nothing (R233). -/
theorem exec_ld32Tflag (s : State) :
    exec .ld32Tflag s = .next { s with busReads := s.busReads ++ [BitVec.ofNat 32 s.tflag.toNat] } := by
  rw [BitVec.ofNat_toNat]
  rfl

/-! ### The obligations -/

/-- Settles O39: each tick updates `TFLAG` alone, and the bits say which flag. -/
theorem ticksSetTheirFlag : Obligations.TicksSetTheirFlag := by
  refine fun s => ⟨⟨_, updatesTflag_evTick2ms s, ?sets2ms, ?keeps1s, rfl⟩,
    ⟨_, updatesTflag_evTick1s s, ?sets1s, ?keeps2ms, rfl⟩⟩
  case sets2ms => exact (setTick2ms_getLsbD s.tflag 0).trans (Bool.or_true _)
  case keeps1s => exact (setTick2ms_getLsbD s.tflag 1).trans (Bool.or_false _)
  case sets1s => exact (setTick1s_getLsbD s.tflag 1).trans (Bool.or_true _)
  case keeps2ms => exact (setTick1s_getLsbD s.tflag 0).trans (Bool.or_false _)

/-- Settles O40: the read is `exec_ld32Tflag`; the write updates `TFLAG` alone, bit by bit. -/
theorem tflagIsWriteOneToClear : Obligations.TflagIsWriteOneToClear := fun v s =>
  ⟨exec_ld32Tflag s, _, updatesTflag_st32Tflag v s, clearTicks_getLsbD s.tflag v 0, clearTicks_getLsbD s.tflag v 1,
    rfl⟩

/-- Settles O41: a flag's tick and its clear are the setting and the clearing of one mask. -/
theorem ticksCoalesce : Obligations.TicksCoalesce := by
  intro s
  have htick2ms := updatesTflag_evTick2ms
  have htick1s := updatesTflag_evTick1s
  have hclear2ms := updatesTflag_st32Tflag 1#32
  have hclear1s := updatesTflag_st32Tflag 2#32
  refine ⟨?twice, ?erased2ms, ?kept2ms, ?erased1s, ?kept1s⟩
  case twice =>
    simp only [List.forall_mem_cons]
    exact ⟨htick2ms.execAll_pair htick2ms htick2ms setTick2ms_setTick2ms s,
      htick1s.execAll_pair htick1s htick1s setTick1s_setTick1s s, List.forall_mem_nil _⟩
  case erased2ms => exact htick2ms.execAll_pair hclear2ms hclear2ms (or_and_not_mask · 0b01#2) s
  case kept2ms => exact hclear2ms.execAll_pair htick2ms htick2ms (and_not_or_mask · 0b01#2) s
  case erased1s => exact htick1s.execAll_pair hclear1s hclear1s (or_and_not_mask · 0b10#2) s
  case kept1s => exact hclear1s.execAll_pair htick1s htick1s (and_not_or_mask · 0b10#2) s

end Sys2Proof.Machine

/-! PROOFS. Family 60, exceptions: what a command can end with (R9, R251, R253), the order of its checks (R254), and
that events which share no part of the block commute (R257). -/

namespace Sys2Proof.Machine

/-! ### How a command ends (R9, R251, R253) -/

/-- The states a command can leave: it fails, and then changed nothing and reports 0; or it did its work and ends with
`OK`, or with `QUEUE_OVERFLOW` where that stored fewer bytes than asked. -/
inductive CommandEnd (s : State) : State → Prop where
  | failed (e : Status) : CommandEnd s (s.finish e 0#32)
  | done (t : State) (v : Word) : CommandEnd s (t.finish .ok v)
  | overflowed (t : State) (v : Word) : CommandEnd s (t.finish .queueOverflow v)

section
variable (s : State)

/-- The commands that store bytes (R126, R152, R191). -/
theorem CommandEnd.stored (t : State) (written asked : Nat) (v : Word) :
    CommandEnd s (t.finish (overflowStatus written asked) v) := by
  unfold overflowStatus
  split
  · exact .overflowed _ _
  · exact .done _ _

theorem commandEnd_cmdRbInit (r cap : Byte) : CommandEnd s (cmdRbInit r cap s) := by
  unfold cmdRbInit
  split
  · exact .failed _
  · split
    · exact .failed _
    · exact .done _ _

theorem commandEnd_cmdRbEnq (r n : Byte) : CommandEnd s (cmdRbEnq r n s) := by
  unfold cmdRbEnq
  split
  · exact .failed _
  · exact .stored _ _ _ _ _

theorem commandEnd_cmdRbDeq (r n : Byte) : CommandEnd s (cmdRbDeq r n s) := by
  unfold cmdRbDeq
  split
  · exact .failed _
  · exact .done _ _

theorem commandEnd_cmdRbIsEmpty (r : Byte) : CommandEnd s (cmdRbIsEmpty r s) := by
  unfold cmdRbIsEmpty
  split
  · exact .failed _
  · exact .done _ _

theorem commandEnd_cmdRbIsFull (r : Byte) : CommandEnd s (cmdRbIsFull r s) := by
  unfold cmdRbIsFull
  split
  · exact .failed _
  · exact .done _ _

theorem commandEnd_cmdRbCount (r : Byte) : CommandEnd s (cmdRbCount r s) := by
  unfold cmdRbCount
  split
  · exact .failed _
  · exact .done _ _

theorem commandEnd_cmdRbCap (r : Byte) : CommandEnd s (cmdRbCap r s) := by
  unfold cmdRbCap
  split
  · exact .failed _
  · exact .done _ _

theorem commandEnd_cmdSerWrite (p n : Byte) : CommandEnd s (cmdSerWrite p n s) := by
  unfold cmdSerWrite
  split
  · exact .failed _
  · exact .stored _ _ _ _ _

theorem commandEnd_cmdSerRead (p n : Byte) : CommandEnd s (cmdSerRead p n s) := by
  unfold cmdSerRead
  split
  · exact .failed _
  · exact .done _ _

/-- The three framing commands (R184 to R186). -/
theorem commandEnd_framed (n : Byte) (bytes : List Byte → List Byte) (length : Nat) :
    CommandEnd s (s.framed n bytes length) := by
  unfold State.framed
  split
  · exact .failed _
  · exact .done _ _

theorem commandEnd_cmdPktDecode (off : Byte) : CommandEnd s (cmdPktDecode off s) := by
  unfold cmdPktDecode pktDecodeWith
  split
  · exact .failed _
  · split
    · exact .done _ _
    · exact .failed _

theorem commandEnd_cmdPktSend (p : Byte) : CommandEnd s (cmdPktSend p s) := by
  unfold cmdPktSend pktSendWith
  split
  · exact .failed _
  · exact .stored _ _ _ _ _

theorem commandEnd_runCommand (c : Command) : CommandEnd s (runCommand c s) := by
  obtain ⟨op, idx, len, imm⟩ := c
  cases op with
  | rbInit => exact commandEnd_cmdRbInit s idx len
  | rbEnq => exact commandEnd_cmdRbEnq s idx len
  | rbDeq => exact commandEnd_cmdRbDeq s idx len
  | rbIsEmpty => exact commandEnd_cmdRbIsEmpty s idx
  | rbIsFull => exact commandEnd_cmdRbIsFull s idx
  | rbCount => exact commandEnd_cmdRbCount s idx
  | rbCap => exact commandEnd_cmdRbCap s idx
  | serWrite => exact commandEnd_cmdSerWrite s idx len
  | serRead => exact commandEnd_cmdSerRead s idx len
  | pktEncode | pktEnvelope | pktRoute => exact commandEnd_framed s len _ _
  | pktDecode => exact commandEnd_cmdPktDecode s imm
  | pktSend => exact commandEnd_cmdPktSend s idx
  | ckClear | ckByte | ckBuf => exact .done _ _

/-- A `CMD` write ends as its command does, or with `BAD_CMD` (R95, R96). -/
theorem commandEnd_cmdWritten (w : Word) : CommandEnd s (cmdWritten w s) := by
  unfold cmdWritten
  split
  · exact .failed _
  · exact commandEnd_runCommand s _

end

/-- `OK` and `QUEUE_OVERFLOW` are outside the five failing codes, so only a command that failed has one of these. -/
theorem CommandEnd.eq_of_err {s t : State} (h : CommandEnd s t) (hlow : 1 ≤ t.err.toNat) (hhigh : t.err.toNat ≤ 5) :
    t = { s with err := t.err, res := 0#32 } := by
  cases h with
  | failed e => rfl
  | done t v => exact absurd (show 1 ≤ 0 from hlow) (by decide)
  | overflowed t v => exact absurd (show 6 ≤ 5 from hhigh) (by decide)

/-- Settles O9: the state after a `CMD` write is one a command can leave. -/
theorem failedCommandChangesOnlyTheResult : Obligations.FailedCommandChangesOnlyTheResult := by
  intro w s t hexec hlow hhigh
  obtain rfl : cmdWritten w s = t := Host.Outcome.next.inj ((exec_st32Cmd w s).symm.trans hexec)
  exact (commandEnd_cmdWritten s w).eq_of_err hlow hhigh

/-! ### The order of the checks (R254) -/

/-- The row of a `CMD` write does what the command of a legal word does (R95). -/
theorem exec_st32Cmd_of_decodes {w : Word} {c : Command} (s : State) (h : decodeCommand w = some c) :
    exec (.st32Cmd w) s = exec c.toInstr s := by
  rw [exec_st32Cmd, cmdWritten_legal s h, exec_toInstr]

/-- Settles O10: the first and fourth words have a stray field (O6); the others decode, to a command with a bad index
(O11), with a good index and a bad capacity (O12), and with a payload too long (O28). -/
theorem statusesAreReportedInOrder : Obligations.StatusesAreReportedInOrder := by
  intro s
  refine ⟨?strayImm, ?badIndex, ?badCapacity, ?strayIdx, ?longPayload⟩
  case strayImm => exact (illegalWordIsBadCmd 0x01090001#32 s (by decide)).2
  case badIndex =>
    have hdecode : decodeCommand 0x01090000#32 = some ⟨.rbInit, 9, 0, 0⟩ := by decide
    rw [exec_st32Cmd_of_decodes s hdecode]
    exact (rbInitEmptiesTheRing 9 0 s).2 (by decide)
  case badCapacity =>
    have hdecode : decodeCommand 0x01040000#32 = some ⟨.rbInit, 4, 0, 0⟩ := by decide
    rw [exec_st32Cmd_of_decodes s hdecode]
    exact (rbInitEmptiesTheRing 4 0 s).1 ⟨4, by decide⟩ rfl
  case strayIdx => exact (illegalWordIsBadCmd 0x20013E00#32 s (by decide)).2
  case longPayload =>
    have hdecode : decodeCommand 0x20003E00#32 = some ⟨.pktEncode, 0, 62, 0⟩ := by decide
    rw [exec_st32Cmd_of_decodes s hdecode]
    exact (pktEncodeFramesThePayload 62 0 s).2 (by decide)

/-! ### The part of the block an event works on (R257) -/

/-- A write of one part of the block: `TFLAG`, or the bits and the two rings of a port. -/
inductive PartWrite where
  | tflag (v : BitVec 2)
  | port (p : Fin Config.nPorts) (bits : Port) (tx rx : Ring)

/-- The port a write belongs to; `TFLAG` has none, as the ticks have none. -/
def PartWrite.port? : PartWrite → Option (Fin Config.nPorts)
  | .tflag _ => none
  | .port p _ _ _ => some p

/-- The state after a write. -/
def PartWrite.apply : PartWrite → State → State
  | .tflag v, s => { s with tflag := v }
  | .port p bits tx rx, s => s.replacePort p bits tx rx

/-- Writes of two ports commute. -/
theorem replacePort_comm (s : State) {p q : Fin Config.nPorts} (bits bits' : Port) (tx rx tx' rx' : Ring)
    (h : p ≠ q) :
    (s.replacePort q bits' tx' rx').replacePort p bits tx rx =
      (s.replacePort p bits tx rx).replacePort q bits' tx' rx' := by
  rw [State.replacePort, setPort_replacePort _ _ _ _ h, setRing_tx_replacePort _ _ _ _ h,
    setRing_rx_replacePort _ _ _ _ h, ← State.replacePort]

/-- Writes of different parts commute. -/
theorem PartWrite.apply_comm {w w' : PartWrite} (s : State) (h : w.port? ≠ w'.port?) :
    w.apply (w'.apply s) = w'.apply (w.apply s) := by
  cases w with
  | tflag v =>
    cases w' with
    | tflag v' => exact absurd rfl h
    | port q bits' tx' rx' => rfl
  | port p bits tx rx =>
    cases w' with
    | tflag v' => rfl
    | port q bits' tx' rx' => exact replacePort_comm s bits bits' tx rx tx' rx' fun hpq => h (congrArg some hpq)

section
variable (s : State) (p : Fin Config.nPorts) (bits : Port) (g : Ring)

/-- Replacing a port's bits and its RX ring keeps its TX ring. -/
theorem setRing_rx_setPort :
    (s.setRing (rxRing p) g).setPort p bits = s.replacePort p bits (s.ring (txRing p)) g := by
  rw [setPort_setRing, State.replacePort, ← ring_setPort s p bits, setRing_ring_self]

/-- Replacing a port's bits and its TX ring keeps its RX ring. -/
theorem setRing_tx_setPort :
    (s.setRing (txRing p) g).setPort p bits = s.replacePort p bits g (s.ring (rxRing p)) := by
  have hrx : ((s.setPort p bits).setRing (txRing p) g).ring (rxRing p) = s.ring (rxRing p) :=
    ring_setRing_ne _ g (txRing_ne_rxRing p p).symm
  rw [setPort_setRing, State.replacePort, ← hrx, setRing_ring_self]

theorem setRing_rx_eq_replacePort :
    s.setRing (rxRing p) g = s.replacePort p (s.port p) (s.ring (txRing p)) g := by
  rw [← setRing_rx_setPort, ← port_setRing s (rxRing p) g, setPort_port_self]

theorem setPort_eq_replacePort :
    s.setPort p bits = s.replacePort p bits (s.ring (txRing p)) (s.ring (rxRing p)) := by
  rw [← setRing_rx_setPort, setRing_ring_self]

end

/-- The receive event writes its own port's part (R156). -/
theorem receive_eq_apply (s : State) (p : Fin Config.nPorts) (b : Byte) :
    ∃ w : PartWrite, w.port? = some p ∧ s.receive p b = w.apply s := by
  rw [State.receive_eq]
  split
  · exact ⟨.port p _ _ _, rfl, setRing_rx_setPort s p _ _⟩
  · exact ⟨.port p _ _ _, rfl, setRing_rx_eq_replacePort s p _⟩

/-- The transmit event writes its own port's part (R155). -/
theorem txrdy_eq_apply (s : State) (p : Fin Config.nPorts) :
    ∃ w : PartWrite, w.port? = some p ∧ s.txrdy p = w.apply s := by
  rw [State.txrdy_eq]
  split
  · exact ⟨.port p _ _ _, rfl, setPort_eq_replacePort s p _⟩
  · exact ⟨.port p _ _ _, rfl, setRing_tx_setPort s p _ _⟩

/-- Whatever an event changes is the part of its port, or `TFLAG` (R155, R156, R231, R232). -/
theorem exec_event_eq_apply {a : Event} {s t : State} (h : exec a.instr s = .next t) :
    ∃ w : PartWrite, w.port? = a.port? ∧ t = w.apply s := by
  cases a with
  | rx p b =>
    rw [Event.instr, exec_evRx_port s b (ofNat_port_toNat p)] at h
    cases h
    exact receive_eq_apply s p b
  | txrdy p =>
    rw [Event.instr, exec_evTxrdy_port s (ofNat_port_toNat p)] at h
    split at h
    · cases h
      exact txrdy_eq_apply s p
    · cases h
  | tick2ms =>
    cases h
    exact ⟨.tflag _, rfl, rfl⟩
  | tick1s =>
    cases h
    exact ⟨.tflag _, rfl, rfl⟩

/-! ### An event beside another part of the block -/

section
variable (s : State) (p : Fin Config.nPorts) (v : BitVec 2)

/-! `TFLAG` is no part of a port, its rings or their storage. -/

theorem port_apply_tflag : ((PartWrite.tflag v).apply s).port p = s.port p := rfl

theorem ring_apply_tflag (r : Fin Config.nRings) : ((PartWrite.tflag v).apply s).ring r = s.ring r := rfl

theorem ringFree_apply_tflag (r : Fin Config.nRings) : ((PartWrite.tflag v).apply s).ringFree r = s.ringFree r := rfl

/-! So the line events commute with a write of `TFLAG`. -/

theorem receive_apply_tflag (b : Byte) :
    ((PartWrite.tflag v).apply s).receive p b = (PartWrite.tflag v).apply (s.receive p b) := by
  rw [State.receive_eq, State.receive_eq, ring_apply_tflag, apply_ite (PartWrite.tflag v).apply]
  rfl

theorem txrdy_apply_tflag : ((PartWrite.tflag v).apply s).txrdy p = (PartWrite.tflag v).apply (s.txrdy p) := by
  rw [State.txrdy_eq, State.txrdy_eq, ring_apply_tflag, ringFree_apply_tflag, port_apply_tflag,
    apply_ite (PartWrite.tflag v).apply]
  rfl

end

/-- An event neither reads nor writes the part of another port, nor a line event `TFLAG`, nor a tick a port's part
(R150, R257). -/
theorem exec_event_apply {b : Event} {w : PartWrite} (s : State) (h : b.port? ≠ w.port?) :
    exec b.instr (w.apply s) = mapNext w.apply (exec b.instr s) := by
  cases w with
  | tflag v =>
    cases b with
    | rx q c =>
      have hq := ofNat_port_toNat q
      rw [Event.instr, exec_evRx_port _ c hq, exec_evRx_port _ c hq, receive_apply_tflag]
      rfl
    | txrdy q =>
      have hq := ofNat_port_toNat q
      rw [Event.instr, exec_evTxrdy_port _ hq, exec_evTxrdy_port _ hq, port_apply_tflag, txrdy_apply_tflag]
      split <;> rfl
    | tick2ms | tick1s => exact absurd rfl h
  | port p bits tx rx =>
    cases b with
    | rx q c =>
      have hqp : q ≠ p := fun hqp => h (congrArg some hqp)
      exact portsAreIndependent q p c 0#32 s bits tx rx hqp _ (by simp [Event.instr])
    | txrdy q =>
      have hqp : q ≠ p := fun hqp => h (congrArg some hqp)
      exact portsAreIndependent q p 0#8 0#32 s bits tx rx hqp _ (by simp [Event.instr])
    | tick2ms | tick1s => rfl

/-! ### Events apart commute (R257) -/

theorem mapNext_eq_next {f : State → State} {o : Host.Outcome State Fault Refusal} {u : State}
    (h : mapNext f o = .next u) : ∃ t, o = .next t ∧ f t = u := by
  cases o with
  | next t => exact ⟨t, rfl, Host.Outcome.next.inj h⟩
  | fault e => cases h
  | refused e => cases h

/-- Two instructions that each complete, in turn. -/
theorem execAll_pair_of_next {i j : Instr} {s t u : State} (hi : exec i s = .next t) (hj : exec j t = .next u) :
    execAll [i, j] s = .next u := by
  rw [execAll_cons_of_next hi, execAll_cons_of_next hj, execAll]

/-- Events of different parts commute: each is a write of its own part, which the other neither reads nor writes. -/
theorem events_of_different_parts_commute {a b : Event} {s t u : State} (hab : a.port? ≠ b.port?)
    (ha : exec a.instr s = .next t) (hb : exec b.instr t = .next u) : execAll [b.instr, a.instr] s = .next u := by
  obtain ⟨wa, hwa, rfl⟩ := exec_event_eq_apply ha
  rw [exec_event_apply s (hwa ▸ hab.symm)] at hb
  obtain ⟨t', hb', rfl⟩ := mapNext_eq_next hb
  obtain ⟨wb, hwb, rfl⟩ := exec_event_eq_apply hb'
  have ha' : exec a.instr (wb.apply s) = .next (wb.apply (wa.apply s)) := by
    rw [exec_event_apply s (hwb ▸ hab), ha, mapNext]
  rw [PartWrite.apply_comm s (by rwa [hwa, hwb])]
  exact execAll_pair_of_next hb' ha'

/-- A tick sets the bits of one mask in `TFLAG` (R231, R232). -/
theorem updatesTflag_tick {a : Event} (h : a.port? = none) : ∃ m, UpdatesTflag a.instr (· ||| m) := by
  cases a with
  | rx p b => cases h
  | txrdy p => cases h
  | tick2ms => exact ⟨_, updatesTflag_evTick2ms⟩
  | tick1s => exact ⟨_, updatesTflag_evTick1s⟩

/-- Ticks commute, as the setting of bits does. -/
theorem ticks_commute {a b : Event} {s t u : State} (ha : a.port? = none) (hb : b.port? = none)
    (hat : exec a.instr s = .next t) (hbu : exec b.instr t = .next u) : execAll [b.instr, a.instr] s = .next u := by
  obtain ⟨m, hm⟩ := updatesTflag_tick ha
  obtain ⟨m', hm'⟩ := updatesTflag_tick hb
  obtain rfl := Host.Outcome.next.inj ((hm s).symm.trans hat)
  obtain rfl := Host.Outcome.next.inj ((hm' _).symm.trans hbu)
  rw [execAll_pair_of_next (hm' s) (hm _)]
  simp only [BitVec.or_assoc, BitVec.or_comm m m']

/-- Settles O27: events apart work on different parts of the block, or are two ticks. -/
theorem eventsApartCommute : Obligations.EventsApartCommute := by
  intro a b s t u hapart ha hb
  rcases hapart with hparts | ⟨htick, htick'⟩
  · exact events_of_different_parts_commute hparts ha hb
  · exact ticks_commute htick htick' ha hb

end Sys2Proof.Machine

/-! PROOFS. Family 70, reset and hazards: the values after a reset (R281), the reset input (R280), that a command reads
neither `RES` nor `ERR` of the one before (R95, R286), and the send with room checked beforehand (R288). -/

namespace Sys2Proof.Machine

/-! ### The state after a reset (R281) -/

theorem ring_atReset (epoch : Nat) (pending : List Input) (r : Fin Config.nRings) :
    (State.atReset epoch pending).ring r = Ring.atReset := Vector.getElem_replicate r.isLt

theorem port_atReset (epoch : Nat) (pending : List Input) (p : Fin Config.nPorts) :
    (State.atReset epoch pending).port p = Port.atReset := Vector.getElem_replicate p.isLt

/-- Settles O54: the state after any reset meets both invariants, so the first one does. -/
theorem resetMeetsTheInvariant : Obligations.ResetMeetsTheInvariant :=
  ⟨Inv_atReset 0 [], TxSynced_atReset 0 []⟩

/-- Settles O55: every ring is `Ring.atReset`, every port `Port.atReset`, and the registers are the literals of R281. -/
theorem resetHoldsTheSpecifiedValues : Obligations.ResetHoldsTheSpecifiedValues := by
  refine ⟨fun r => ?rings, fun p => ?ports, rfl, rfl, rfl, rfl, rfl, rfl, rfl⟩
  case rings =>
    rw [State.reset, ring_atReset]
    exact ⟨rfl, rfl, rfl, rfl⟩
  case ports =>
    rw [State.reset, port_atReset]
    exact ⟨rfl, rfl, rfl⟩

/-! ### The reset input (R280) -/

theorem exists_decodeEvent_eq_instr {w : Half} (h : isEventWord w = true) : ∃ i, decodeEvent w = .instr i := by
  rcases decodeEvent_cases w with ⟨-, -, hd⟩ | ⟨-, -, -, hd⟩ | ⟨-, hd⟩ | ⟨-, hd⟩ | ⟨hno, -⟩
  · exact ⟨_, hd⟩
  · exact ⟨_, hd⟩
  · exact ⟨_, hd⟩
  · exact ⟨_, hd⟩
  · exact absurd h (by rw [hno]; decide)

/-- While the reset input is asserted an event is lost, and a word that is no event is refused (R280, R101). -/
theorem whileInReset_event (w : Half) (s : State) :
    whileInReset (.event w) s = if isEventWord w then .next s else .refused (.notAnEvent w) := by
  split
  case isTrue h =>
    obtain ⟨i, hi⟩ := exists_decodeEvent_eq_instr h
    rw [whileInReset, hi]
  case isFalse h => rw [whileInReset, decodeEvent_of_not_isEventWord (Bool.eq_false_iff.2 h)]

/-- The release of the reset input is a reset of its own number (R280, R281). -/
theorem resetLine_false_of_inReset {s : State} (h : s.inReset = true) :
    resetLine false s = State.atReset (s.epoch + 1) s.pending := by
  rw [resetLine, if_neg Bool.false_ne_true, if_pos h, State.released]

/-- Settles O56: a step takes the change of the reset input, or turns the operation away as `whileInReset` says. -/
theorem resetInputStopsAndRestoresTheBlock : Obligations.ResetInputStopsAndRestoresTheBlock := by
  intro s rest
  refine ⟨fun hp => ?assert, fun hr => ⟨fun w hp => ?event, fun off width dir hp => ?access, fun hp => ?release⟩⟩
  case assert => rw [step_resetLine hp, resetLine, if_pos rfl]
  case event => rw [step_op_inReset hr hp, whileInReset_event]
  case access => rw [step_op_inReset hr hp, whileInReset]
  case release =>
    rw [step_resetLine hp, resetLine_false_of_inReset (s := { s with pending := rest }) hr]
    rfl

/-! ### `RES` and `ERR` are written, never read, by a command (R95, R286) -/

/-- The state with `RES` and `ERR` replaced: what an earlier command could have left otherwise. -/
def State.withResult (s : State) (e : Byte) (r : Word) : State := { s with err := e, res := r }

section
variable (s : State) (e : Byte) (r : Word)

/-- `finish` overwrites both (R9). -/
theorem finish_withResult (st : Status) (v : Word) : (s.withResult e r).finish st v = s.finish st v := rfl

theorem setCkacc_withResult (v : Byte) : (s.withResult e r).setCkacc v = s.setCkacc v := rfl

/-! What a command reads of the state is neither of the two. -/

theorem ring_withResult (i : Fin Config.nRings) : (s.withResult e r).ring i = s.ring i := rfl

theorem inputBytes_withResult (n : Byte) : (s.withResult e r).inputBytes n = s.inputBytes n := rfl

theorem radioWindow_withResult (w : Fin 2) : (s.withResult e r).radioWindow w = s.radioWindow w := rfl

theorem frameAgrees_withResult (k : ChecksumKind) (off : Nat) :
    (s.withResult e r).frameAgrees k off = s.frameAgrees k off := rfl

/-! What it does to the rest of the state leaves the two as they were. -/

theorem setRing_withResult (i : Fin Config.nRings) (g : Ring) :
    (s.withResult e r).setRing i g = (s.setRing i g).withResult e r := rfl

theorem outputBytes_withResult (l : List Byte) :
    (s.withResult e r).outputBytes l = (s.outputBytes l).withResult e r := rfl

theorem enq_withResult (i : Fin Config.nRings) (l : List Byte) :
    (s.withResult e r).enq i l = ((s.enq i l).1.withResult e r, (s.enq i l).2) := rfl

theorem deq_withResult (i : Fin Config.nRings) (n : Nat) :
    (s.withResult e r).deq i n = ((s.deq i n).1, (s.deq i n).2.withResult e r) := rfl

theorem txwrite_withResult (p : Fin Config.nPorts) (l : List Byte) :
    (s.withResult e r).txwrite p l = ((s.txwrite p l).1.withResult e r, (s.txwrite p l).2) := by
  rw [State.txwrite_eq, State.txwrite_eq]
  rfl

/-! So a command, which ends with `finish`, does the same whatever they held. -/

theorem framed_withResult (n : Byte) (bytes : List Byte → List Byte) (length : Nat) :
    (s.withResult e r).framed n bytes length = s.framed n bytes length := by
  simp only [State.framed, inputBytes_withResult, outputBytes_withResult, finish_withResult]

/-- `PKT_DECODE` writes `RTYPE` alone before it finishes (R187). -/
theorem cmdPktDecode_withResult (off : Byte) : cmdPktDecode off (s.withResult e r) = cmdPktDecode off s := by
  simp only [cmdPktDecode, pktDecodeWith, frameAgrees_withResult, finish_withResult]
  rfl

/-- Every command but the four queries is rewritten by the facts above; a query is one `finish` of a ring's value. -/
theorem runCommand_withResult (c : Command) : runCommand c (s.withResult e r) = runCommand c s := by
  obtain ⟨op, idx, len, imm⟩ := c
  cases op with
  | rbInit => simp only [runCommand, cmdRbInit, ring_withResult, setRing_withResult, finish_withResult]
  | rbEnq => simp only [runCommand, cmdRbEnq, inputBytes_withResult, enq_withResult, finish_withResult]
  | rbDeq => simp only [runCommand, cmdRbDeq, deq_withResult, outputBytes_withResult, finish_withResult]
  | rbIsEmpty | rbIsFull | rbCount | rbCap => rfl
  | serWrite =>
    simp only [runCommand, cmdSerWrite, inputBytes_withResult, txwrite_withResult, finish_withResult]
  | serRead => simp only [runCommand, cmdSerRead, deq_withResult, outputBytes_withResult, finish_withResult]
  | pktEncode | pktEnvelope | pktRoute => exact framed_withResult s e r len _ _
  | pktDecode => exact cmdPktDecode_withResult s e r imm
  | pktSend =>
    simp only [runCommand, cmdPktSend, pktSendWith, radioWindow_withResult, txwrite_withResult, finish_withResult]
  | ckClear | ckByte | ckBuf => exact setCkacc_withResult s e r _

theorem cmdWritten_withResult (w : Word) : cmdWritten w (s.withResult e r) = cmdWritten w s := by
  unfold cmdWritten
  split
  · exact finish_withResult s e r _ _
  · exact runCommand_withResult s e r _

end

/-- Settles O8: no command reads `RES` or `ERR`, and each ends with `finish`, which writes both. -/
theorem resultDescribesOnlyTheLastCommand : Obligations.ResultDescribesOnlyTheLastCommand := fun w s e r =>
  congrArg Host.Outcome.next (cmdWritten_withResult s e r w)

/-! ### A send with room checked beforehand (R288, R191) -/

/-- Settles O35: by O34 the send stores as much of the window as fits, and with this room that is all of it. -/
theorem roomCheckedSendIsWhole : Obligations.RoomCheckedSendIsWhole := by
  intro p s q hp hok hroom
  obtain ⟨t, hexec, hstored, -, -, hport, -, -, hframe⟩ := pktSendHandsOverTheRadioWindow p s q hp hok
  have hw : Config.radioWindowOffset.val < 2 := Config.radioWindowOffset.isLt
  have hlen : ((s.firstBytes 66).drop Config.radioWindowOffset.val).length = 66 - Config.radioWindowOffset.val := by
    rw [List.length_drop, firstBytes_length]
  rw [hlen, Nat.min_eq_left hroom] at hstored hport hframe
  refine ⟨t, hexec, ?err, ?res, ?armed, ?stored⟩
  case err =>
    rw [hframe]
    exact if_neg (Nat.lt_irrefl _)
  case res =>
    rw [hframe]
    exact countWord_toNat (by omega)
  case armed =>
    rw [hport]
    simp only [Bool.or_eq_true, decide_eq_true_eq]
    omega
  case stored => rw [hstored, List.take_of_length_le hlen.le]

end Sys2Proof.Machine
